-- ==== Sys2Proof/Word.lean ====
section
/-! DEFINITION. The word types of the engine: 32-bit registers and tokens (D22), input bytes,
and the 16-bit positions of `head`, `prev`, `match_start`, `prev_match`, `hash_head` (D26). -/

namespace Sys2Proof

/-- A host register, a command word, a token word (R21, R80, R90). -/
abbrev Word := BitVec 32

/-- An input byte, a window byte (R28, R40). -/
abbrev Byte := BitVec 8

/-- A 16-bit position (R8, D26). -/
abbrev Half := BitVec 16

end Sys2Proof
end

