-- ==== Sys2Proof/Config.lean ====
section
/-! DEFINITION. What is fixed for one engine: the constants of R8, the platform and implementation
parameters of R8, R9 and R31 (held in State as `params`, so that a claim holds for every value of
them), and the free draws of memory contents, opaque constants with no body (D39, I4 to I6). -/

namespace Sys2Proof.Config

/-- R8 `MIN_MATCH`. -/
abbrev minMatch : Nat := 3
/-- R8 `MAX_MATCH`. -/
abbrev maxMatch : Nat := 258
/-- R8 `MIN_LOOKAHEAD` = `MAX_MATCH + MIN_MATCH + 1`. -/
abbrev minLookahead : Nat := 262
/-- R8 `HASH_SIZE` = `2^HASH_BITS`. -/
abbrev hashSize : Nat := 32768
/-- R8 `TOO_FAR`. -/
abbrev tooFar : Nat := 4096
/-- R8 `FILTER_MAX`. -/
abbrev filterMax : Nat := 5
/-- R8 `DEFAULT_LEVEL`, the level that `LEVEL = 15` resolves to (R87). -/
abbrev defaultLevel : BitVec 4 := 6
/-- The `WBITS` that `WBITS = 0` resolves to (R87). -/
abbrev defaultWbits : BitVec 4 := 15
/-- R22 `ID`. -/
abbrev idValue : Word := 0x4C5A4D45
/-- R23 `VERSION`. -/
abbrev versionValue : Word := 0x00010000
/-- R94, the EMPTY word. -/
abbrev emptyWord : Word := 0xC0000000
/-- D16, D17: the largest depth `IN_COUNT` and `TOK_COUNT` can show, `2^24 - 1` (R28, R29). -/
abbrev maxDepth : Nat := 16777215
/-- The window positions at the largest `WBITS`, `2 * 2^15` (R8). -/
abbrev windowCapacity : Nat := 65536
/-- The prev entries at the largest `WBITS`, `2^15` (R8). -/
abbrev prevCapacity : Nat := 32768

/-- The iteration rule chosen by the level (R26, R200). Code 3 of the field is never read (I16). -/
inductive Flavour where
  | store
  | fast
  | slow
deriving DecidableEq, Repr

/-- One row of `LEVEL_TABLE` (R31); the flavour column is the source's and no parameter (R200). -/
structure LevelRow where
  goodLength : BitVec 9
  maxLazy : BitVec 9
  niceLength : BitVec 9
  maxChainLength : BitVec 13
deriving DecidableEq, Repr

/-- The default `LEVEL_TABLE` of R31. -/
def defaultLevelTable : List LevelRow :=
  [⟨0, 0, 0, 0⟩,
   ⟨4, 4, 8, 4⟩,
   ⟨4, 5, 16, 8⟩,
   ⟨4, 6, 32, 32⟩,
   ⟨4, 4, 16, 16⟩,
   ⟨8, 16, 32, 32⟩,
   ⟨8, 16, 128, 128⟩,
   ⟨8, 32, 128, 256⟩,
   ⟨32, 128, 258, 1024⟩,
   ⟨32, 258, 258, 4096⟩]

/-- The parameters a model takes as arguments (R9, R31): OPEN `IN_FIFO_DEPTH`, `TOK_FIFO_DEPTH`,
`BASE_ADDR` (D16, D17, D23) and, with defaults, `LEVEL_TABLE` and `CHAIN_REDUCE_SHIFT` (D5, D6). -/
structure Params where
  inFifoDepth : Nat
  tokFifoDepth : Nat
  baseAddr : Nat
  levelTable : List LevelRow
  chainReduceShift : Nat
deriving DecidableEq, Repr

/-- R183, I19: a Fast or Slow row must leave a chain budget of at least 1 after the reduction. -/
def Params.rowsOk (p : Params) : Bool :=
  (p.levelTable.drop 1).all fun r => decide (1 ≤ r.maxChainLength.toNat >>> p.chainReduceShift)

/-- The ranges the spec gives the parameters: D16, D17 (1 to `2^24 - 1`), D23 (a multiple of 4096),
R31 (ten rows) and R183. -/
def Params.ok (p : Params) : Bool :=
  decide (1 ≤ p.inFifoDepth) && decide (p.inFifoDepth ≤ maxDepth)
    && decide (1 ≤ p.tokFifoDepth) && decide (p.tokFifoDepth ≤ maxDepth)
    && decide (p.baseAddr % 4096 = 0)
    && decide (p.levelTable.length = 10) && p.rowsOk

/-- The parameters `State.reset` stands on. DESIGN CHOICE (log 4): both depths 65536 and base address 0;
`LEVEL_TABLE` and `CHAIN_REDUCE_SHIFT` are the spec's defaults. -/
def Params.default : Params where
  inFifoDepth := 65536
  tokFifoDepth := 65536
  baseAddr := 0
  levelTable := defaultLevelTable
  chainReduceShift := 1

/-- Explicit contents for one draw of the private memories, position 0 first; positions the lists do not
reach are 0 (log 6). -/
structure Draw where
  window : List Byte
  head : List Half
  prev : List Half
deriving DecidableEq, Repr

/-- FREE VALUE (D39, I4, I6; log 6): window byte `a` of draw `k` is `windowInit k a`. No body. -/
opaque windowInit : Nat → Nat → Byte

/-- FREE VALUE (I6; log 6): head entry `a` of draw `k` is `headInit k a`. No body. -/
opaque headInit : Nat → Nat → Half

/-- FREE VALUE (D39, I5, I6; log 6): prev entry `a` of draw `k` is `prevInit k a`. No body. -/
opaque prevInit : Nat → Nat → Half

end Sys2Proof.Config
end

