-- ==== Sys2Proof/Syntax.lean ====
section
/-! DEFINITION. The syntax of the host command interface (R3): bus accesses as the host issues them,
the flush types, and `Instr`, one constructor per row of spec/opcode_table.json. -/

namespace Sys2Proof

/-- The width of a host access (R32 `SIZE`, R64): byte, halfword, word, or wider than a word. -/
inductive Size where
  | byte
  | half
  | word
  | wide
deriving DecidableEq, Repr

/-- One host bus access (R60, R64). `data` is what the host drives on the 32-bit write data bus
(byte lane 0 in bits [7:0], R62); a read carries none and its `data` is ignored. -/
structure Access where
  write : Bool
  size : Size
  address : Nat
  data : Word
deriving DecidableEq, Repr

/-- The flush types of R84 in the order of their codes 0 to 4. -/
inductive Flush where
  | noFlush
  | partialFlush
  | syncFlush
  | fullFlush
  | finish
deriving DecidableEq, Repr

/-- The rows of spec/opcode_table.json: the command words (R81, R135 to R140) and the host register
accesses (R141 to R146, R120). -/
inductive Instr where
  /-- `lz.nop` (R122). -/
  | nop
  /-- `lz.init` (R82, R125): the raw operand fields LEVEL, WBITS, STRATEGY. -/
  | init (level wbits : BitVec 4) (strategy : BitVec 2)
  /-- `lz.setdict` (R83, R127): N. -/
  | setDict (n : BitVec 16)
  /-- `lz.run` (R84, R135): the raw FLUSH field. -/
  | run (flush : BitVec 3)
  /-- `lz.run none` (R136). -/
  | runNone
  /-- `lz.run partial` (R137). -/
  | runPartial
  /-- `lz.run sync` (R138). -/
  | runSync
  /-- `lz.run full` (R139). -/
  | runFull
  /-- `lz.run finish` (R140). -/
  | runFinish
  /-- `lz.reset` (R131). -/
  | reset
  /-- `lz.end` (R133). -/
  | endSession
  /-- `push` (R141): the whole written word; its bits [7:0] are the input byte. -/
  | push (v : Word)
  /-- `pop` (R142). -/
  | pop
  /-- `rd` (R143): a word read of an offset other than `TOK_DATA`. -/
  | rd (offset : BitVec 12)
  /-- `wr INT_ENABLE` (R144). -/
  | wrIntEnable (v : Word)
  /-- `wr INT_STATUS` (R145). -/
  | wrIntStatus (v : Word)
  /-- `wr CMD` (R120): any command word. -/
  | wrCmd (v : Word)
  /-- Any rejected access (R146): direction, width, offset, and the bus value with unwritten byte
  lanes 0 (R245). -/
  | badAccess (write : Bool) (size : Size) (offset : BitVec 12) (data : Word)
deriving DecidableEq, Repr

end Sys2Proof
end

