-- ==== Sys2Proof/Decode.lean ====
section
/-! DEFINITION. The register map (R21), the decoder from a host access to an instruction, total and
rejecting by name, and after it the encoder, both from the encoding tables of 30_encoding.md and the
access rules of 40_commands.md. -/

namespace Sys2Proof

/-- The access type of a register (R21). -/
inductive RegAccess where
  | readOnly
  | writeOnly
  | readWrite
  | writeOneToClear
  | pop
deriving DecidableEq, Repr

/-- The host-visible registers of R21, in the order of their offsets. -/
inductive Reg where
  | id
  | version
  | cmd
  | status
  | config
  | param0
  | param1
  | inData
  | inCount
  | tokData
  | tokCount
  | totalIn
  | totalTok
  | errCode
  | errInfo
  | intEnable
  | intStatus
  | dbgStrstart
  | dbgLookahead
  | dbgMatch
  | dbgPos
  | dbgMisc
deriving DecidableEq, Repr

/-- R21: the offset of a register from `BASE_ADDR`. -/
def regOffset : Reg → Nat
  | .id => 0x000
  | .version => 0x004
  | .cmd => 0x008
  | .status => 0x00C
  | .config => 0x010
  | .param0 => 0x014
  | .param1 => 0x018
  | .inData => 0x01C
  | .inCount => 0x020
  | .tokData => 0x024
  | .tokCount => 0x028
  | .totalIn => 0x02C
  | .totalTok => 0x030
  | .errCode => 0x034
  | .errInfo => 0x038
  | .intEnable => 0x03C
  | .intStatus => 0x040
  | .dbgStrstart => 0x044
  | .dbgLookahead => 0x048
  | .dbgMatch => 0x04C
  | .dbgPos => 0x050
  | .dbgMisc => 0x054

/-- R21: the access type of a register. -/
def regAccess : Reg → RegAccess
  | .cmd => .writeOnly
  | .inData => .writeOnly
  | .tokData => .pop
  | .intEnable => .readWrite
  | .intStatus => .writeOneToClear
  | .id => .readOnly
  | .version => .readOnly
  | .status => .readOnly
  | .config => .readOnly
  | .param0 => .readOnly
  | .param1 => .readOnly
  | .inCount => .readOnly
  | .tokCount => .readOnly
  | .totalIn => .readOnly
  | .totalTok => .readOnly
  | .errCode => .readOnly
  | .errInfo => .readOnly
  | .dbgStrstart => .readOnly
  | .dbgLookahead => .readOnly
  | .dbgMatch => .readOnly
  | .dbgPos => .readOnly
  | .dbgMisc => .readOnly

/-- The register at an offset; none for the reserved offsets 0x058 to 0xFFC (R36) and for offsets that are
no multiple of 4. -/
def regAt (offset : Nat) : Option Reg :=
  match offset with
  | 0x000 => some .id
  | 0x004 => some .version
  | 0x008 => some .cmd
  | 0x00C => some .status
  | 0x010 => some .config
  | 0x014 => some .param0
  | 0x018 => some .param1
  | 0x01C => some .inData
  | 0x020 => some .inCount
  | 0x024 => some .tokData
  | 0x028 => some .tokCount
  | 0x02C => some .totalIn
  | 0x030 => some .totalTok
  | 0x034 => some .errCode
  | 0x038 => some .errInfo
  | 0x03C => some .intEnable
  | 0x040 => some .intStatus
  | 0x044 => some .dbgStrstart
  | 0x048 => some .dbgLookahead
  | 0x04C => some .dbgMatch
  | 0x050 => some .dbgPos
  | 0x054 => some .dbgMisc
  | _ => none

/-- R242: a word write at this offset is legal: to a register that is neither RO nor POP, and to no
reserved offset. -/
def writable (offset : Nat) : Bool :=
  match regAt offset with
  | some r => decide (regAccess r ≠ .readOnly ∧ regAccess r ≠ .pop)
  | none => false

/-- R32 `SIZE`: log2 of the byte width, 3 for wider than a word. -/
def sizeLog2 : Size → BitVec 2
  | .byte => 0
  | .half => 1
  | .word => 2
  | .wide => 3

/-- The byte lanes of the 32-bit write data bus that an access of this width at this offset drives
(R62, R245). DEDUCED (log 11): a word access and a wider one drive all four lanes. -/
def laneMask (size : Size) (offset : BitVec 12) : Word :=
  match size with
  | .byte => (0xFF : Word) <<< (8 * (offset.toNat % 4))
  | .half => (0xFFFF : Word) <<< (8 * (offset.toNat % 4))
  | .word => 0xFFFFFFFF
  | .wide => 0xFFFFFFFF

/-- R146, R242: the access is rejected with BAD_ACCESS, by width, alignment, then access type. -/
def isBadAccess (write : Bool) (size : Size) (offset : BitVec 12) : Bool :=
  decide (size ≠ .word) || decide (offset.toNat % 4 ≠ 0) || (write && !writable offset.toNat)

/-! ## Command words (R80 to R89) -/

/-- R80: `OP = v[3:0]`. -/
def opField (v : Word) : BitVec 4 := v.extractLsb' 0 4
/-- R82: `LEVEL = v[7:4]`. -/
def levelField (v : Word) : BitVec 4 := v.extractLsb' 4 4
/-- R82: `WBITS = v[11:8]`. -/
def wbitsField (v : Word) : BitVec 4 := v.extractLsb' 8 4
/-- R82: `STRATEGY = v[13:12]`. -/
def strategyField (v : Word) : BitVec 2 := v.extractLsb' 12 2
/-- R83: `N = v[31:16]`. -/
def lengthField (v : Word) : BitVec 16 := v.extractLsb' 16 16
/-- R84: `FLUSH = v[6:4]`. -/
def flushField (v : Word) : BitVec 3 := v.extractLsb' 4 3

/-- R120: some reserved bit of the word's format is 1: v[31:14] for op 1, v[15:4] for op 2, v[31:7] for
op 3, v[31:4] for op 0, 4 and 5 (R82 to R85). -/
def reservedBitsSet (v : Word) : Bool :=
  match (opField v).toNat with
  | 1 => decide (v.extractLsb' 14 18 ≠ 0)
  | 2 => decide (v.extractLsb' 4 12 ≠ 0)
  | 3 => decide (v.extractLsb' 7 25 ≠ 0)
  | _ => decide (v.extractLsb' 4 28 ≠ 0)

/-- R86, R89: the word is ILLEGAL_CMD: a reserved opcode 0x6 to 0xF or a nonzero reserved bit. -/
def illegalWord (v : Word) : Bool :=
  decide (6 ≤ (opField v).toNat) || reservedBitsSet v

/-- R84: the flush type of a code; none for 5 to 7. -/
def flushOfCode (c : BitVec 3) : Option Flush :=
  match c.toNat with
  | 0 => some .noFlush
  | 1 => some .partialFlush
  | 2 => some .syncFlush
  | 3 => some .fullFlush
  | 4 => some .finish
  | _ => none

/-- R84: the code of a flush type. -/
def flushCode : Flush → BitVec 3
  | .noFlush => 0
  | .partialFlush => 1
  | .syncFlush => 2
  | .fullFlush => 3
  | .finish => 4

/-- The instruction of a legal RUN word, by the most specific row of the table (R136 to R140). -/
def runInstr (flush : BitVec 3) : Instr :=
  match flushOfCode flush with
  | some .noFlush => .runNone
  | some .partialFlush => .runPartial
  | some .syncFlush => .runSync
  | some .fullFlush => .runFull
  | some .finish => .runFinish
  | none => .run flush

/-- The row a command word belongs to (R81, R89): the most specific row whose mask and match fit it, else
`wr CMD` itself, whose word is then ILLEGAL_CMD. -/
def decodeCommand (v : Word) : Instr :=
  if illegalWord v then .wrCmd v
  else match (opField v).toNat with
    | 0 => .nop
    | 1 => .init (levelField v) (wbitsField v) (strategyField v)
    | 2 => .setDict (lengthField v)
    | 3 => runInstr (flushField v)
    | 4 => .reset
    | 5 => .endSession
    | _ => .wrCmd v

/-! ## Accesses (R141 to R146) -/

/-- Why an access decodes to no instruction. -/
inductive DecodeError where
  /-- The address is not in the 4096 bytes from `BASE_ADDR` (R60): no access to this block. -/
  | outsideRegisterSpace
deriving DecidableEq, Repr

/-- The instruction of a word write to a writable register (R120, R141, R144, R145). -/
def decodeWrite (offset : BitVec 12) (v : Word) : Instr :=
  match regAt offset.toNat with
  | some .cmd => decodeCommand v
  | some .inData => .push v
  | some .intEnable => .wrIntEnable v
  | some .intStatus => .wrIntStatus v
  | _ => .badAccess true .word offset v

/-- The instruction of an access at an offset of the register space: BAD_ACCESS is decided first (R242). -/
def decodeAt (write : Bool) (size : Size) (offset : BitVec 12) (v : Word) : Instr :=
  if isBadAccess write size offset then
    .badAccess write size offset (if write then v &&& laneMask size offset else 0)
  else if write then decodeWrite offset v
  else if offset.toNat = regOffset .tokData then .pop
  else .rd offset

/-- The decoder: an access to the 4096 bytes at `base` is exactly one instruction (R60, R89); any other
address is rejected by name. -/
def decode (base : Nat) (a : Access) : Except DecodeError Instr :=
  if base ≤ a.address ∧ a.address < base + 4096 then
    .ok (decodeAt a.write a.size (BitVec.ofNat 12 (a.address - base)) a.data)
  else .error .outsideRegisterSpace

/-! ## The encoder (R82 to R85, R96) -/

/-- R82: the word of an INIT. -/
def initWord (level wbits : BitVec 4) (strategy : BitVec 2) : Word :=
  (strategy.setWidth 32 <<< 12) ||| (wbits.setWidth 32 <<< 8) ||| (level.setWidth 32 <<< 4) ||| 1

/-- R83: the word of a SET_DICT. -/
def setDictWord (n : BitVec 16) : Word := (n.setWidth 32 <<< 16) ||| 2

/-- R84: the word of a RUN. -/
def runWord (flush : BitVec 3) : Word := (flush.setWidth 32 <<< 4) ||| 3

/-- R85: RESET. -/
def resetWord : Word := 0x00000004

/-- R85: END. -/
def endWord : Word := 0x00000005

/-- A 32-bit access to a register of the block at `base` (R96 `wr`, `rd`). -/
def wordAccess (write : Bool) (base : Nat) (r : Reg) (v : Word) : Access :=
  ⟨write, .word, base + regOffset r, v⟩

/-- A command word written to `CMD` (R80). -/
def commandAccess (base : Nat) (v : Word) : Access := wordAccess true base .cmd v

/-- The access that issues an instruction to the block at `base`. A read carries data 0. -/
def encode (base : Nat) : Instr → Access
  | .nop => commandAccess base 0
  | .init level wbits strategy => commandAccess base (initWord level wbits strategy)
  | .setDict n => commandAccess base (setDictWord n)
  | .run flush => commandAccess base (runWord flush)
  | .runNone => commandAccess base 0x00000003
  | .runPartial => commandAccess base 0x00000013
  | .runSync => commandAccess base 0x00000023
  | .runFull => commandAccess base 0x00000033
  | .runFinish => commandAccess base 0x00000043
  | .reset => commandAccess base resetWord
  | .endSession => commandAccess base endWord
  | .push v => wordAccess true base .inData v
  | .pop => wordAccess false base .tokData 0
  | .rd offset => ⟨false, .word, base + offset.toNat, 0⟩
  | .wrIntEnable v => wordAccess true base .intEnable v
  | .wrIntStatus v => wordAccess true base .intStatus v
  | .wrCmd v => commandAccess base v
  | .badAccess write size offset v => ⟨write, size, base + offset.toNat, v⟩

/-! ## The opcode table's numbering (log 12) -/

/-- The access of an F-MMIO row whose 12-bit offset is given, its 32-bit data 0: a write for the rows
`wr CMD`, `push`, `wr INT_ENABLE`, `wr INT_STATUS`, else a read (`pop`, `rd`, `bad access`). -/
def mmioRowAccess (base : Nat) (offset : Nat) : Access :=
  ⟨decide (offset = 0x008) || decide (offset = 0x01C) || decide (offset = 0x03C) || decide (offset = 0x040),
    .word, base + offset % 4096, 0⟩

/-- The access a table word stands for. A number of at most 16 bits is the offset of an F-MMIO row. A longer
one is a command word written to `CMD`, except that the bare offsets of `push`, `pop`, `wr INT_ENABLE` and
`wr INT_STATUS`, which are no command row's words, are those rows. -/
def tableAccess (base nbits w : Nat) : Access :=
  if nbits ≤ 16 then mmioRowAccess base w
  else if w = 0x01C ∨ w = 0x024 ∨ w = 0x03C ∨ w = 0x040 then mmioRowAccess base w
  else commandAccess base (BitVec.ofNat 32 w)

/-- The instruction the decoder reads from a table word. -/
def decodeTableWord (nbits w : Nat) : Option Instr :=
  match decode 0 (tableAccess 0 nbits w) with
  | .ok i => some i
  | .error _ => none

end Sys2Proof
end

