-- ==== Sys2Proof/Machine/State.lean ====
section
/-! DEFINITION. The state of one engine, as plain data, and its value after hardware reset (R270). Widths are
those of 10_state.md; sets of named values are inductive types, so that values the spec says are never read
(I16) cannot be held. -/

namespace Sys2Proof.Machine

open Sys2Proof.Config

/-- `STATUS.BSTATE`, values 0 to 6 of R25; 7 is never read. -/
inductive BState where
  | none
  | needMore
  | blockDone
  | finishStarted
  | finishDone
  | noProgress
  | inProgress
deriving DecidableEq, Repr

/-- `STATUS.SESSION`, values 0 to 4 and 7 of R25; 5 and 6 are never read. -/
inductive Session where
  | uninit
  | ready
  | streaming
  | finishing
  | finished
  | faulted
deriving DecidableEq, Repr

/-- `PHASE`, values 0 to 9 and 15 of R50; 10 to 14 are never read. -/
inductive Phase where
  | idle
  | initOp
  | resetOp
  | endOp
  | dictPop
  | dictCommit
  | runStart
  | runIter
  | runTail
  | runMark
  | faulted
deriving DecidableEq, Repr

/-- `cur_op`, the opcodes of R81. -/
inductive Op where
  | nop
  | init
  | setDict
  | run
  | reset
  | endSession
deriving DecidableEq, Repr

/-- `CONFIG.STRATEGY`, values 0 to 2 of R26. -/
inductive Strategy where
  | default
  | filtered
  | huffmanOnly
deriving DecidableEq, Repr

/-- `ERR_CODE.CODE`, values 0 to 7 of R240; 8 to 15 are never recorded. -/
inductive ErrKind where
  | none
  | illegalCmd
  | badParam
  | badState
  | busy
  | inOverflow
  | badAccess
  | internal
deriving DecidableEq, Repr

/-- A token (R90 to R93): a literal, a back-reference or a marker. The EMPTY word is no token (R94). -/
inductive Token where
  | lit (b : Byte)
  | backref (len dist : Nat)
  | mark (f : Flush)
deriving DecidableEq, Repr

/-- The configuration registers shown by `CONFIG`, `PARAM0`, `PARAM1` (R26, R27, R47). -/
structure SessionConfig where
  level : BitVec 4
  wbits : BitVec 4
  strategy : Strategy
  flavour : Flavour
  goodLength : BitVec 9
  maxLazy : BitVec 9
  niceLength : BitVec 9
  maxChainLength : BitVec 13
deriving DecidableEq, Repr

/-- The position and match registers (R43 to R46). -/
structure EngineRegs where
  strstart : BitVec 17
  lookahead : BitVec 17
  matchLength : BitVec 9
  prevLength : BitVec 9
  matchStart : Half
  prevMatch : Half
  matchAvailable : Bool
  hashHead : Half
  lastFlush : Flush
deriving DecidableEq, Repr

/-- The command registers (R48), meaningful only while `BUSY = 1`. `level`, `wbits`, `strategy` are `cur_cfg`,
`dictLeft` is `dict_n`, `dictBuf` is `dict_buf`, oldest byte first. -/
structure CommandRegs where
  op : Op
  level : BitVec 4
  wbits : BitVec 4
  strategy : Strategy
  flush : Flush
  dictTotal : BitVec 16
  dictLeft : BitVec 16
  dictBuf : List Byte
deriving DecidableEq, Repr

/-- The error record `ERR_CODE`, `ERR_INFO` (R32, R245). -/
structure ErrRecord where
  code : ErrKind
  multi : Bool
  write : Bool
  size : BitVec 2
  offset : BitVec 12
  info : Word
deriving DecidableEq, Repr

/-- A private memory: the entries that differ from 0, at strictly rising indexes (`Memory.wf`); an unlisted
index reads 0. `Cells 8` is a list of `Host.Cell`. -/
abbrev Cells (w : Nat) := List (Nat × BitVec w)

/-- One turn of an interleaving (R69): a host access, one engine step, or a hardware reset (R270). -/
inductive Turn where
  | host (a : Access)
  | engine
  | hardReset
deriving DecidableEq, Repr

/-- Why the machine stops. -/
inductive Fault where
  /-- Raised by `step` when the host access whose turn it is has an address outside the 4096 bytes from
  `BASE_ADDR` (R60): it is no access to this block, and the rest of the system is not modelled. Safe. -/
  | outsideRegisterSpace
deriving DecidableEq, Repr

/-- Why the model gives no step. -/
inductive Refusal where
  /-- Raised by an arm of `exec` that has no meaning yet, with the row's mnemonic. Safe. -/
  | notModelled (mnemonic : String)
  /-- Raised by `step` when `params` is out of the ranges the spec gives; for `LEVEL_TABLE` in the spec's own
  words "a model refuses a table that does not" (R183, I19). Safe. -/
  | parametersOutOfRange
deriving DecidableEq, Repr

/-- The whole state. `history` is the count the last bound of R226 is checked against (log 21): the bytes before `strstart` since INIT
or RESET, those of the dictionary included, and since the last Full flush. The last five fields are the model's own
(INVENTORY.md). -/
structure State where
  busy : Bool
  bstate : BState
  session : Session
  dictLoaded : Bool
  phase : Phase
  cfg : SessionConfig
  regs : EngineRegs
  cmd : CommandRegs
  err : ErrRecord
  done : Bool
  errFlag : Bool
  intEnable : BitVec 4
  totalIn : Word
  totalTok : Word
  history : Nat
  inFifo : List Byte
  tokFifo : List Token
  window : List Host.Cell
  head : Cells 16
  prev : Cells 16
  params : Params
  schedule : List Turn
  readData : Word
  draws : List Draw
  drawIndex : Nat
deriving DecidableEq, Repr

/-- R270, R27: the configuration registers after hardware reset and END. -/
def SessionConfig.zero : SessionConfig := ⟨0, 0, .default, .store, 0, 0, 0, 0⟩

/-- R270: the position and match registers after hardware reset. -/
def EngineRegs.zero : EngineRegs := ⟨0, 0, 0, 0, 0, 0, false, 0, .noFlush⟩

/-- The command registers after hardware reset. DESIGN CHOICE (log 9): R270 leaves them unspecified. -/
def CommandRegs.zero : CommandRegs := ⟨.nop, 0, 0, .default, .noFlush, 0, 0, []⟩

/-- R32: the empty error record. -/
def ErrRecord.none : ErrRecord := ⟨.none, false, false, 0, 0, 0⟩

/-- R270: the machine right after hardware reset, for any parameters. The memories list nothing and the model's
own fields are empty (log 1, 3, 6, 7, 21). -/
def State.resetWith (p : Params) : State where
  busy := false
  bstate := .none
  session := .uninit
  dictLoaded := false
  phase := .idle
  cfg := SessionConfig.zero
  regs := EngineRegs.zero
  cmd := CommandRegs.zero
  err := ErrRecord.none
  done := false
  errFlag := false
  intEnable := 0
  totalIn := 0
  totalTok := 0
  history := 0
  inFifo := []
  tokFifo := []
  window := []
  head := []
  prev := []
  params := p
  schedule := []
  readData := 0
  draws := []
  drawIndex := 0

/-- R270 at the parameters of `Params.default` (log 4). -/
def State.reset : State := State.resetWith Params.default

end Sys2Proof.Machine
end

