-- ==== Sys2Proof/Machine/Operands.lean ====
section
/-! DEFINITION. The operand forms of the commands: codes of the named values, resolved operands (R87), out-of-range
fields (R88), the functions of `WBITS` (R8), and the token words (R90 to R95). -/

namespace Sys2Proof.Machine

open Sys2Proof.Config

/-! ## Codes of the named values -/

/-- R25 `BSTATE`. -/
def bstateCode : BState → BitVec 3
  | .none => 0
  | .needMore => 1
  | .blockDone => 2
  | .finishStarted => 3
  | .finishDone => 4
  | .noProgress => 5
  | .inProgress => 6

/-- R25 `SESSION`. -/
def sessionCode : Session → BitVec 3
  | .uninit => 0
  | .ready => 1
  | .streaming => 2
  | .finishing => 3
  | .finished => 4
  | .faulted => 7

/-- R50 `PHASE`. -/
def phaseCode : Phase → BitVec 4
  | .idle => 0
  | .initOp => 1
  | .resetOp => 2
  | .endOp => 3
  | .dictPop => 4
  | .dictCommit => 5
  | .runStart => 6
  | .runIter => 7
  | .runTail => 8
  | .runMark => 9
  | .faulted => 15

/-- R26 `STRATEGY`. -/
def strategyCode : Strategy → BitVec 2
  | .default => 0
  | .filtered => 1
  | .huffmanOnly => 2

/-- R26 `FLAVOUR`. -/
def flavourCode : Flavour → BitVec 2
  | .store => 0
  | .fast => 1
  | .slow => 2

/-- R240 `CODE`. -/
def errKindCode : ErrKind → BitVec 4
  | .none => 0
  | .illegalCmd => 1
  | .badParam => 2
  | .badState => 3
  | .busy => 4
  | .inOverflow => 5
  | .badAccess => 6
  | .internal => 7

/-! ## INIT and RUN operands -/

/-- R87: `LEVEL = 15` resolves to `DEFAULT_LEVEL`. -/
def resolveLevel (level : BitVec 4) : BitVec 4 := if level = 15 then defaultLevel else level

/-- R87: `WBITS = 0` resolves to 15. -/
def resolveWbits (wbits : BitVec 4) : BitVec 4 := if wbits = 0 then defaultWbits else wbits

/-- R82: the strategy of a field; 3 is BAD_PARAM. -/
def strategyOf (field : BitVec 2) : Option Strategy :=
  match field.toNat with
  | 0 => some .default
  | 1 => some .filtered
  | 2 => some .huffmanOnly
  | _ => none

/-- R88: INIT `LEVEL` in 10 to 14, `WBITS` in 1 to 8, or `STRATEGY` = 3. -/
def badInitParam (level wbits : BitVec 4) (strategy : BitVec 2) : Bool :=
  (decide (10 ≤ level.toNat) && decide (level.toNat ≤ 14))
    || (decide (1 ≤ wbits.toNat) && decide (wbits.toNat ≤ 8))
    || decide (strategy = 3)

/-- R200: level 0 is Store, levels 1 to 3 are Fast, levels 4 to 9 are Slow. -/
def flavourOfLevel (level : BitVec 4) : Flavour :=
  if level.toNat = 0 then .store else if level.toNat ≤ 3 then .fast else .slow

/-- R31: the row of a level. -/
def levelRow (p : Params) (level : BitVec 4) : LevelRow := p.levelTable.getD level.toNat ⟨0, 0, 0, 0⟩

/-! ## Functions of WBITS (R8, R47) -/

/-- R8 `W = 2^WBITS`. -/
def windowSize (c : SessionConfig) : Nat := 2 ^ c.wbits.toNat

/-- R8 `MAX_DIST = W - MIN_LOOKAHEAD`. -/
def maxDist (c : SessionConfig) : Nat := windowSize c - minLookahead

/-- `p & WMASK`, with `WMASK = W - 1` and `W` a power of 2 (R8): the index of position `p` in `prev`. -/
def prevIndex (c : SessionConfig) (p : Nat) : Nat := p % windowSize c

/-- R11 `a -16 b`: `(a - b) mod 2^16`. -/
def sub16 (a b : Nat) : Nat := (BitVec.ofNat 16 a - BitVec.ofNat 16 b).toNat

/-! ## Token words -/

/-- R91 to R93: the 32-bit word of a token. -/
def tokenWord : Token → Word
  | .lit b => b.setWidth 32
  | .backref len dist => 0x40000000 ||| (BitVec.ofNat 32 (len - 3) <<< 16) ||| BitVec.ofNat 32 (dist - 1)
  | .mark f => 0x80000000 ||| (flushCode f).setWidth 32

/-- R95: the token a consumer reads from a word; none for the EMPTY kind and for a marker whose code is no
flush code. -/
def tokenOfWord (v : Word) : Option Token :=
  match (v.extractLsb' 30 2).toNat with
  | 0 => some (.lit (v.extractLsb' 0 8))
  | 1 => some (.backref ((v.extractLsb' 16 8).toNat + 3) ((v.extractLsb' 0 15).toNat + 1))
  | 2 => (flushOfCode (v.extractLsb' 0 3)).map .mark
  | _ => none

/-- R226: the bounds of length and distance, of those the engine checks at every `emit` of a MATCH. -/
def tokenInBounds (c : SessionConfig) : Token → Bool
  | .backref len dist =>
      decide (minMatch ≤ len) && decide (len ≤ maxMatch) && decide (1 ≤ dist) && decide (dist ≤ maxDist c)
  | .lit _ => true
  | .mark _ => true

/-- R226: a MATCH "refers only to bytes of the stream or dictionary". `history` counts the bytes before the position a match ends at
(log 21), so `history - len` of them lie before its first position. -/
def tokenInHistory (history : Nat) : Token → Bool
  | .backref len dist => decide (dist + len ≤ history)
  | .lit _ => true
  | .mark _ => true

end Sys2Proof.Machine
end

