-- ==== Sys2Proof/Machine/Flags.lean ====
section
/-! DEFINITION. The status flags and the views of the host-visible registers (R21 to R36), and the interrupt
output (R255). -/

namespace Sys2Proof.Machine

open Sys2Proof.Config

/-- A field placed with its bit 0 at bit `lo` of a 32-bit register. -/
def place {w : Nat} (v : BitVec w) (lo : Nat) : Word := v.setWidth 32 <<< lo

/-- A one-bit field placed at bit `lo`. -/
def placeBit (b : Bool) (lo : Nat) : Word := (BitVec.ofBool b).setWidth 32 <<< lo

/-! ## FIFO flags (R25, R34) -/

/-- R25 `IN_FULL`: `in_count = IN_FIFO_DEPTH`. -/
def inFull (s : State) : Bool := decide (s.inFifo.length = s.params.inFifoDepth)
/-- R25 `IN_EMPTY`: `in_count = 0`. -/
def inEmpty (s : State) : Bool := decide (s.inFifo.length = 0)
/-- R25 `TOK_FULL`: the token FIFO holds `TOK_FIFO_DEPTH` tokens. -/
def tokFull (s : State) : Bool := decide (s.tokFifo.length = s.params.tokFifoDepth)
/-- R25 `TOK_EMPTY`: the token FIFO is empty. -/
def tokEmpty (s : State) : Bool := decide (s.tokFifo.length = 0)
/-- R34 `TOK_AVAIL`: the token FIFO is not empty. -/
def tokAvail (s : State) : Bool := decide (0 < s.tokFifo.length)
/-- R34 `IN_SPACE`: `in_count < IN_FIFO_DEPTH`. -/
def inSpace (s : State) : Bool := decide (s.inFifo.length < s.params.inFifoDepth)

/-! ## Register views -/

/-- R25 `STATUS`. -/
def statusWord (s : State) : Word :=
  placeBit s.busy 0 ||| place (bstateCode s.bstate) 1 ||| place (sessionCode s.session) 4
    ||| placeBit s.dictLoaded 7 ||| placeBit (inFull s) 8 ||| placeBit (inEmpty s) 9
    ||| placeBit (tokFull s) 10 ||| placeBit (tokEmpty s) 11 ||| place (phaseCode s.phase) 16

/-- R26 `CONFIG`. -/
def configWord (c : SessionConfig) : Word :=
  place c.level 0 ||| place c.wbits 4 ||| place (strategyCode c.strategy) 8 ||| place (flavourCode c.flavour) 10

/-- R27 `PARAM0`. -/
def param0Word (c : SessionConfig) : Word := place c.goodLength 0 ||| place c.maxLazy 16

/-- R27 `PARAM1`. -/
def param1Word (c : SessionConfig) : Word := place c.niceLength 0 ||| place c.maxChainLength 16

/-- R28, R29: a count in bits [23:0]. -/
def countWord (n : Nat) : Word := place (BitVec.ofNat 24 n) 0

/-- R32 `ERR_CODE`. -/
def errCodeWord (e : ErrRecord) : Word :=
  place (errKindCode e.code) 0 ||| placeBit e.multi 8 ||| placeBit e.write 9 ||| place e.size 10
    ||| place e.offset 16

/-- R34 `INT_STATUS`, bits [3:0]: DONE, ERR, TOK_AVAIL, IN_SPACE. -/
def intStatusBits (s : State) : BitVec 4 :=
  (BitVec.ofBool s.done).setWidth 4 ||| ((BitVec.ofBool s.errFlag).setWidth 4 <<< 1)
    ||| ((BitVec.ofBool (tokAvail s)).setWidth 4 <<< 2) ||| ((BitVec.ofBool (inSpace s)).setWidth 4 <<< 3)

/-- R255: the interrupt output, the OR of the pending bits under the enables. -/
def irq (s : State) : Bool := decide (intStatusBits s &&& s.intEnable ≠ 0#4)

/-- R35 `DBG_MATCH`. -/
def dbgMatchWord (r : EngineRegs) : Word :=
  place r.matchLength 0 ||| place r.prevLength 16 ||| placeBit r.matchAvailable 31

/-- R35 `DBG_POS`. -/
def dbgPosWord (r : EngineRegs) : Word := place r.matchStart 0 ||| place r.prevMatch 16

/-- R35 `DBG_MISC`. -/
def dbgMiscWord (r : EngineRegs) : Word := place r.hashHead 0 ||| place (flushCode r.lastFlush) 16

/-- R142: the word a read of `TOK_DATA` returns: the oldest token, or EMPTY. -/
def tokDataWord (s : State) : Word :=
  match s.tokFifo with
  | [] => emptyWord
  | t :: _ => tokenWord t

/-- R143, R22 to R35: the value a read of a register returns. `CMD` and `IN_DATA` read 0. -/
def registerValue (s : State) : Reg → Word
  | .id => idValue
  | .version => versionValue
  | .cmd => 0
  | .status => statusWord s
  | .config => configWord s.cfg
  | .param0 => param0Word s.cfg
  | .param1 => param1Word s.cfg
  | .inData => 0
  | .inCount => countWord s.inFifo.length
  | .tokData => tokDataWord s
  | .tokCount => countWord s.tokFifo.length
  | .totalIn => s.totalIn
  | .totalTok => s.totalTok
  | .errCode => errCodeWord s.err
  | .errInfo => s.err.info
  | .intEnable => place s.intEnable 0
  | .intStatus => place (intStatusBits s) 0
  | .dbgStrstart => place s.regs.strstart 0
  | .dbgLookahead => place s.regs.lookahead 0
  | .dbgMatch => dbgMatchWord s.regs
  | .dbgPos => dbgPosWord s.regs
  | .dbgMisc => dbgMiscWord s.regs

/-- R143, R36: the value an aligned word read returns; reserved offsets read 0. -/
def offsetValue (s : State) (offset : Nat) : Word :=
  match regAt offset with
  | some r => registerValue s r
  | none => 0

end Sys2Proof.Machine
end

