-- ==== Sys2Proof/Machine/Memory.lean ====
section
/-! DEFINITION. The private memories (R40 to R42, R60): reads, writes and the whole-table updates of the spec, over
sparse lists in one canonical form. -/

namespace Sys2Proof.Machine.Memory

variable {w : Nat}

/-- Indexes from `lo` on, strictly rising, no value 0. -/
def wfFrom (lo : Nat) : Cells w → Bool
  | [] => true
  | (k, v) :: rest => decide (lo ≤ k) && decide (v ≠ 0#w) && wfFrom (k + 1) rest

/-- The canonical form: strictly rising indexes, and no entry equal to what an unlisted index reads as. -/
def wf (m : Cells w) : Bool := wfFrom 0 m

/-- Every listed index is below `n`. -/
def below (n : Nat) (m : Cells w) : Bool := m.all fun e => decide (e.1 < n)

/-- R12 `window[i]`, `head[h]`, `prev[i]`: an unlisted index reads 0 (log 7). -/
def read : Cells w → Nat → BitVec w
  | [], _ => 0#w
  | (k, v) :: rest, a => if a = k then v else read rest a

/-- R12 `window[i] <- b`, `head[h] <- p`, `prev[i] <- p`: writing 0 removes the entry. -/
def write : Cells w → Nat → BitVec w → Cells w
  | [], a, v => if v = 0#w then [] else [(a, v)]
  | (k, x) :: rest, a, v =>
    if a < k then (if v = 0#w then (k, x) :: rest else (a, v) :: (k, x) :: rest)
    else if a = k then (if v = 0#w then rest else (a, v) :: rest)
    else (k, x) :: write rest a v

/-- Write the values of a list at `base`, `base + 1`, ... in order. -/
def writeList (m : Cells w) (base : Nat) : List (BitVec w) → Cells w
  | [] => m
  | v :: rest => writeList (write m base v) (base + 1) rest

/-- The memory that holds a list of values from index `base` on. -/
def ofListFrom (base : Nat) : List (BitVec w) → Cells w
  | [] => []
  | v :: rest => if v = 0#w then ofListFrom (base + 1) rest else (base, v) :: ofListFrom (base + 1) rest

/-- The memory that holds a list of values from index 0 on, 0 after them. -/
def ofList (l : List (BitVec w)) : Cells w := ofListFrom 0 l

/-- The memory of `n` entries whose entry `a` is `f a`. -/
def ofFn (n : Nat) (f : Nat → BitVec w) : Cells w := ofList ((List.range n).map f)

/-- The entries of indexes `n` to `2n - 1`, moved down by `n`. -/
def lowered (n : Nat) (m : Cells w) : Cells w :=
  m.filterMap fun e => if n ≤ e.1 ∧ e.1 < 2 * n then some (e.1 - n, e.2) else none

/-- R167, the window: index `i < n` takes the value of `i + n`, and the indexes from `n` on keep theirs. -/
def copyDown (n : Nat) (m : Cells w) : Cells w :=
  lowered n m ++ m.filter fun e => decide (n ≤ e.1)

/-- R167, one position: `p >= W ? p - W : NIL`. Position `W` becomes 0, the value of `NIL` (log 20). -/
def rebasePos (n : Nat) (p : Half) : Half := if n ≤ p.toNat then BitVec.ofNat 16 (p.toNat - n) else 0#16

/-- R167, `head` and `prev`: every entry is rebased by `n`. -/
def rebase (n : Nat) (m : Cells 16) : Cells 16 :=
  m.filterMap fun e => if rebasePos n e.2 = 0#16 then none else some (e.1, rebasePos n e.2)

end Sys2Proof.Machine.Memory
end

