-- ==== Sys2Proof/Machine/Ops.lean ====
section
/-! DEFINITION. The named operations of R12 over the state: raising a usage error and an internal fault (this
hardware's exceptions, R245, R250) and the acknowledgement that ends one (R145, R247), `complete`, `emit`, the
FIFOs, `SessionClear`, the free draws, and hardware reset. -/

namespace Sys2Proof.Machine

open Sys2Proof.Config

/-! ## Exceptions -/

/-- R245: the record after a usage error: the first error is kept, a further one sets `MULTI`. -/
def recordUsage (e : ErrRecord) (kind : ErrKind) (info : Word) (write : Bool) (size : Size)
    (offset : BitVec 12) : ErrRecord :=
  if e.code = .none then ⟨kind, false, write, sizeLog2 size, offset, info⟩
  else { e with multi := true }

/-- R245 `raise UsageError(code, info)` in an access of this direction, width and offset: the record,
`INT_STATUS.ERR`, and a rejected read returns 0. -/
def usageError (kind : ErrKind) (info : Word) (write : Bool) (size : Size) (offset : BitVec 12)
    (s : State) : State :=
  { s with
    err := recordUsage s.err kind info write size offset
    errFlag := true
    readData := if write then s.readData else 0 }

/-- A usage error raised by a 32-bit write to `CMD`, with the command word as information (R120, R245). -/
def commandError (kind : ErrKind) (v : Word) (s : State) : State :=
  usageError kind v true .word 0x008 s

/-- A usage error raised by a 32-bit write to `IN_DATA` (R141, R245). -/
def pushError (kind : ErrKind) (v : Word) (s : State) : State :=
  usageError kind v true .word 0x01C s

/-- R250 `raise InternalFault(info)`: the record is overwritten and the engine is FAULTED. -/
def internalFault (info : Nat) (s : State) : State :=
  { s with
    err := ⟨.internal, decide (s.err.code ≠ .none), false, 0, 0xFFF, BitVec.ofNat 32 info⟩
    errFlag := true
    session := .faulted
    phase := .faulted
    busy := false }

/-- R145: the write-one-to-clear of `INT_STATUS`; it ends a usage error (R247), and in FAULTED it clears
`DONE` only (R250). -/
def acknowledge (v : Word) (s : State) : State :=
  { s with
    done := if v.getLsbD 0 then false else s.done
    errFlag := if v.getLsbD 1 && decide (s.session ≠ .faulted) then false else s.errFlag
    err := if v.getLsbD 1 && decide (s.session ≠ .faulted) then ErrRecord.none else s.err }

/-! ## Completion and tokens -/

/-- R12 `complete(-)`: the end of a command other than RUN. -/
def complete (s : State) : State := { s with busy := false, phase := .idle, done := true }

/-- R12 `complete(bstate)`: the end of a RUN. -/
def completeRun (b : BState) (s : State) : State :=
  { s with busy := false, phase := .idle, done := true, bstate := b }

/-- R12 `emit(t)`: append the token and count it modulo 2^32 (R30). -/
def emit (t : Token) (s : State) : State :=
  { s with tokFifo := s.tokFifo ++ [t], totalTok := s.totalTok + 1 }

/-- The step's one possible `emit`. -/
def emitOpt (t : Option Token) (s : State) : State :=
  match t with
  | some t => emit t s
  | none => s

/-- R12 `pop_in()`, with the byte it returns in front: remove the oldest input byte. -/
def dropInput (s : State) : State := { s with inFifo := s.inFifo.tail }

/-! ## Free draws (log 6, log 8) -/

/-- The next draw of window contents, `n` bytes: an explicit one if the state carries one, else the free
constant of Config. -/
def drawnWindow (n : Nat) (s : State) : List Host.Cell :=
  match s.draws with
  | d :: _ => Memory.ofList (d.window.take n)
  | [] => Memory.ofFn n (windowInit s.drawIndex)

/-- The next draw of head contents. -/
def drawnHead (n : Nat) (s : State) : Cells 16 :=
  match s.draws with
  | d :: _ => Memory.ofList (d.head.take n)
  | [] => Memory.ofFn n (headInit s.drawIndex)

/-- The next draw of prev contents, `n` entries. -/
def drawnPrev (n : Nat) (s : State) : Cells 16 :=
  match s.draws with
  | d :: _ => Memory.ofList (d.prev.take n)
  | [] => Memory.ofFn n (prevInit s.drawIndex)

/-- A draw is used up. -/
def nextDraw (s : State) : State := { s with draws := s.draws.tail, drawIndex := s.drawIndex + 1 }

/-- R133, R270, I6: the three private memories become unspecified: they take a fresh draw. -/
def scrambleMemories (s : State) : State :=
  nextDraw { s with
    window := drawnWindow windowCapacity s
    head := drawnHead hashSize s
    prev := drawnPrev prevCapacity s }

/-! ## Session setup and hardware reset -/

/-- R124: the position and match registers at the start of a session. -/
def EngineRegs.cleared : EngineRegs := ⟨0, 0, 2, 2, 0, 0, false, 0, .noFlush⟩

/-- R124 `SessionClear()`. -/
def sessionClear (s : State) : State :=
  { s with
    head := []
    regs := EngineRegs.cleared
    inFifo := []
    tokFifo := []
    totalIn := 0
    totalTok := 0
    history := 0
    dictLoaded := false
    bstate := .none }

/-- R270: hardware reset at any instant. The parameters, the host's schedule, the draws and the value the host last
read are outside the engine and stay; the memories are unspecified (log 8). -/
def hardReset (s : State) : State :=
  scrambleMemories { State.resetWith s.params with
    schedule := s.schedule
    readData := s.readData
    draws := s.draws
    drawIndex := s.drawIndex }

end Sys2Proof.Machine
end

