-- ==== Sys2Proof/Machine/Window.lean ====
section
/-! DEFINITION. The sliding window and the hash chains (41_window_hash.md): hash, InsertString, SLIDE, FILL. -/

namespace Sys2Proof.Machine

open Sys2Proof.Config

/-- R160: `H(b0, b1, b2) = ((b0 << 10) ^ (b1 << 5) ^ b2) & 0x7FFF`. -/
def hash3 (b0 b1 b2 : Byte) : Nat :=
  ((b0.toNat <<< 10) ^^^ (b1.toNat <<< 5) ^^^ b2.toNat) % hashSize

/-- R160: the hash of position `p`. -/
def hashAt (m : List Host.Cell) (p : Nat) : Nat :=
  hash3 (Memory.read m p) (Memory.read m (p + 1)) (Memory.read m (p + 2))

/-- R162: the previous head `InsertString(p)` returns. -/
def chainHead (p : Nat) (s : State) : Half := Memory.read s.head (hashAt s.window p)

/-- R162: the writes of `InsertString(p)`: one `prev` entry, then one `head` entry. -/
def insertString (p : Nat) (s : State) : State :=
  { s with
    prev := Memory.write s.prev (prevIndex s.cfg p) (chainHead p s)
    head := Memory.write s.head (hashAt s.window p) (BitVec.ofNat 16 p) }

/-- `hash_head <- InsertString(p)` (R162). -/
def insertHashHead (p : Nat) (s : State) : State :=
  { insertString p s with regs := { s.regs with hashHead := chainHead p s } }

/-- R129: `InsertString` at the positions `p`, `p + 1`, ..., `n` of them, results discarded. -/
def insertRange (p : Nat) : Nat → State → State
  | 0, s => s
  | n + 1, s => insertRange (p + 1) n (insertString p s)

/-- R167 `SLIDE()`. DESIGN CHOICE (log 20): a head entry of exactly `W` becomes 0, which is `NIL`, as R167 says, also where R227,
and R136 and R282 with it, claim that the tokens do not depend on when a slide comes. -/
def slide (s : State) : State :=
  { s with
    window := Memory.copyDown (windowSize s.cfg) s.window
    regs := { s.regs with
      matchStart := s.regs.matchStart - BitVec.ofNat 16 (windowSize s.cfg)
      strstart := s.regs.strstart - BitVec.ofNat 17 (windowSize s.cfg) }
    head := Memory.rebase (windowSize s.cfg) s.head
    prev := Memory.rebase (windowSize s.cfg) s.prev }

/-- R166: the slide condition `strstart >= W + MAX_DIST`. -/
def slideDue (s : State) : Bool := decide (windowSize s.cfg + maxDist s.cfg ≤ s.regs.strstart.toNat)

/-- R166: the slide of one pass, when it is due. -/
def slideIfDue (s : State) : State := if slideDue s then slide s else s

/-- R166 `more`, after the slide of the pass if one was due. -/
def roomAfterSlide (s : State) : Nat :=
  2 * windowSize s.cfg - s.regs.lookahead.toNat - s.regs.strstart.toNat
    + (if slideDue s then windowSize s.cfg else 0)

/-- R166: move the `n` oldest bytes of the input FIFO to the end of the lookahead. -/
def takeInput (n : Nat) (s : State) : State :=
  { s with
    window := Memory.writeList s.window (s.regs.strstart.toNat + s.regs.lookahead.toNat) (s.inFifo.take n)
    inFifo := s.inFifo.drop n
    regs := { s.regs with lookahead := s.regs.lookahead + BitVec.ofNat 17 n }
    totalIn := s.totalIn + BitVec.ofNat 32 n }

/-- R166: the loop of `FILL()`, at most `k` passes. -/
def fillLoop : Nat → State → State
  | 0, s => s
  | k + 1, s =>
    if (slideIfDue s).inFifo.length = 0 then slideIfDue s
    else
      let t := takeInput (min (roomAfterSlide s) (slideIfDue s).inFifo.length) (slideIfDue s)
      if t.regs.lookahead.toNat < minLookahead ∧ t.inFifo.length ≠ 0 then fillLoop k t else t

/-- R166 `FILL()`. The loop runs at most once in every state that meets R54 (R166); `in_count + 1` passes
bound it in all others (log 17). -/
def fill (s : State) : State := fillLoop (s.inFifo.length + 1) s

end Sys2Proof.Machine
end

