-- ==== Sys2Proof/Machine/Search.lean ====
section
/-! DEFINITION. The match search (42_match_search.md): MatchLen and LongestMatch. -/

namespace Sys2Proof.Machine

open Sys2Proof.Config

/-- R184: the number of equal leading bytes of the strings at `a` and `b`, at most `k`. -/
def matchLenUpTo (m : List Host.Cell) : Nat → Nat → Nat → Nat
  | 0, _, _ => 0
  | k + 1, a, b => if Memory.read m a = Memory.read m b then matchLenUpTo m k (a + 1) (b + 1) + 1 else 0

/-- R184 `MatchLen(a, b)`. -/
def matchLen (m : List Host.Cell) (a b : Nat) : Nat := matchLenUpTo m maxMatch a b

/-- The best match of a walk: its length and where it starts. -/
structure Best where
  len : Nat
  start : Half
deriving DecidableEq, Repr

/-- R180: the candidate `cur` with match length `len` replaces the best when it is longer (R187). -/
def better (len : Nat) (cur : Half) (b : Best) : Best := if b.len < len then ⟨len, cur⟩ else b

/-- R180: the chain walk from `cur`, with `more` candidates allowed after it. It stops at a recorded candidate of
length `nice` or more, at a next candidate `<= limit`, or when the budget is spent (R182). -/
def walk (m : List Host.Cell) (prev : Cells 16) (c : SessionConfig) (pos limit nice : Nat) :
    Nat → Half → Best → Best
  | more, cur, b =>
    let len := matchLen m cur.toNat pos
    if b.len < len ∧ nice ≤ len then better len cur b
    else
      let cur' := Memory.read prev (prevIndex c cur.toNat)
      if cur'.toNat ≤ limit then better len cur b
      else match more with
        | 0 => better len cur b
        | k + 1 => walk m prev c pos limit nice k cur' (better len cur b)

/-- R183: the chain budget: `MaxChainLength`, reduced when `prev_length >= GoodLength` at entry. -/
def chainBudget (s : State) : Nat :=
  if s.cfg.goodLength.toNat ≤ s.regs.prevLength.toNat
  then s.cfg.maxChainLength.toNat >>> s.params.chainReduceShift
  else s.cfg.maxChainLength.toNat

/-- R181: `limit`. -/
def distanceLimit (s : State) : Nat :=
  if maxDist s.cfg < s.regs.strstart.toNat then s.regs.strstart.toNat - maxDist s.cfg else 0

/-- R185: `nice = min(NiceLength, lookahead)`. -/
def niceLimit (s : State) : Nat := min s.cfg.niceLength.toNat s.regs.lookahead.toNat

/-- R180: the best of the walk from `cur`, which must beat `prev_length`. -/
def searchBest (cur : Half) (s : State) : Best :=
  walk s.window s.prev s.cfg s.regs.strstart.toNat (distanceLimit s) (niceLimit s) (chainBudget s - 1) cur
    ⟨s.regs.prevLength.toNat, s.regs.matchStart⟩

/-- R186: the result, clamped to `lookahead`. -/
def longestMatch (cur : Half) (s : State) : Nat :=
  if s.regs.lookahead.toNat ≤ (searchBest cur s).len then s.regs.lookahead.toNat else (searchBest cur s).len

/-- `match_length <- LongestMatch(cur)`, with its write of `match_start` (R180). -/
def searchFrom (cur : Half) (s : State) : State :=
  { s with regs := { s.regs with
      matchStart := (searchBest cur s).start
      matchLength := BitVec.ofNat 9 (longestMatch cur s) } }

/-- R211, R216: the candidate is no `NIL` and is within `MAX_DIST` by the 16-bit distance. DEDUCED (log 22): this test alone decides, also
for a `hash_head` left from before a slide that is below the new `strstart`, which R168 (c) says cannot be. -/
def candidateInReach (s : State) : Bool :=
  decide (s.regs.hashHead ≠ 0#16)
    && decide (sub16 s.regs.strstart.toNat s.regs.hashHead.toNat ≤ maxDist s.cfg)

end Sys2Proof.Machine
end

