-- ==== Sys2Proof/Machine/Flavours.lean ====
section
/-! DEFINITION. One iteration of each flavour (43_flavours.md): the top-of-loop tests, StoreIter, FastIter and
SlowIter. An iteration's one possible `emit` is its `token`; the step performs it (R203, R226). -/

namespace Sys2Proof.Machine

open Sys2Proof.Config

/-- R203: how an iteration ends. -/
inductive IterEnd where
  | cont
  | needMore
  | leave
deriving DecidableEq, Repr

/-- R203: the state an iteration leaves, the token it emits, and how it ends (`leave` is BREAK). -/
structure IterResult where
  state : State
  token : Option Token
  ends : IterEnd
deriving DecidableEq, Repr

/-! ## Top-of-loop tests -/

/-- R204: the state after StoreTop. -/
def storeTopState (s : State) : State := if s.regs.lookahead.toNat = 0 then fill s else s

/-- R204: how StoreTop ends, in the state it leaves. -/
def storeTopEnd (flush : Flush) (t : State) : IterEnd :=
  if t.regs.lookahead.toNat = 0 then (if flush = .noFlush then .needMore else .leave) else .cont

/-- R205: the state after TopFill. -/
def topFillState (s : State) : State := if s.regs.lookahead.toNat < minLookahead then fill s else s

/-- R205: how TopFill ends, in the state it leaves. -/
def topFillEnd (flush : Flush) (t : State) : IterEnd :=
  if t.regs.lookahead.toNat < minLookahead ∧ flush = .noFlush then .needMore
  else if t.regs.lookahead.toNat = 0 then .leave
  else .cont

/-! ## Shared moves -/

/-- `strstart <- strstart + n` and `lookahead <- lookahead - k`. The `k` bytes taken off the lookahead are encoded, so they join
the history (R226, log 21). -/
def advance (n k : Nat) (s : State) : State :=
  { s with
    regs := { s.regs with
      strstart := s.regs.strstart + BitVec.ofNat 17 n
      lookahead := s.regs.lookahead - BitVec.ofNat 17 k }
    history := s.history + k }

/-- R210, R215: `if lookahead >= MIN_MATCH: hash_head <- InsertString(strstart)`. -/
def insertCurrent (s : State) : State :=
  if minMatch ≤ s.regs.lookahead.toNat then insertHashHead s.regs.strstart.toNat s else s

/-- The byte at position `p` as a literal. -/
def literalAt (p : Nat) (s : State) : Token := .lit (Memory.read s.window p)

/-! ## Store (R206) -/

/-- R206 StoreIter. -/
def storeIter (flush : Flush) (s : State) : IterResult :=
  let t := storeTopState s
  match storeTopEnd flush t with
  | .cont => ⟨advance 1 1 t, some (literalAt t.regs.strstart.toNat t), .cont⟩
  | .needMore => ⟨t, none, .needMore⟩
  | .leave => ⟨t, none, .leave⟩

/-! ## Fast (R210 to R214) -/

/-- R211: the search of a Fast iteration, when its condition holds. -/
def fastSearch (s : State) : State :=
  if candidateInReach s ∧ s.cfg.strategy ≠ .huffmanOnly then searchFrom s.regs.hashHead s else s

/-- R213: `n` times `strstart <- strstart + 1; hash_head <- InsertString(strstart)`. -/
def insertSpan : Nat → State → State
  | 0, s => s
  | n + 1, s => insertSpan n (insertHashHead (advance 1 0 s).regs.strstart.toNat (advance 1 0 s))

/-- `match_length <- n`. -/
def setMatchLength (n : BitVec 9) (s : State) : State := { s with regs := { s.regs with matchLength := n } }

/-- R210, R213: what follows the MATCH of a Fast iteration: the span is inserted when it is short and leaves
enough lookahead, else skipped; `match_length` ends 0 both ways. -/
def fastAfterMatch (s : State) : State :=
  let t := advance 0 s.regs.matchLength.toNat s
  if s.regs.matchLength.toNat ≤ s.cfg.maxLazy.toNat ∧ minMatch ≤ t.regs.lookahead.toNat then
    setMatchLength 0 (advance 1 0 (insertSpan (s.regs.matchLength.toNat - 1) t))
  else setMatchLength 0 (advance s.regs.matchLength.toNat 0 t)

/-- R212: the emission of a Fast iteration, after its search. DEDUCED (log 19): the distance is modulo `2^16`, by D26
"Distances are computed as `a -16 b`". -/
def fastEmit (s : State) : IterResult :=
  if minMatch ≤ s.regs.matchLength.toNat then
    ⟨fastAfterMatch s,
      some (.backref s.regs.matchLength.toNat (sub16 s.regs.strstart.toNat s.regs.matchStart.toNat)), .cont⟩
  else ⟨advance 1 1 s, some (literalAt s.regs.strstart.toNat s), .cont⟩

/-- R210 FastIter. -/
def fastIter (flush : Flush) (s : State) : IterResult :=
  let t := topFillState s
  match topFillEnd flush t with
  | .cont => fastEmit (fastSearch (insertCurrent t))
  | .needMore => ⟨t, none, .needMore⟩
  | .leave => ⟨t, none, .leave⟩

/-! ## Slow (R215 to R221) -/

/-- R215: `prev_length <- match_length; prev_match <- match_start; match_length <- MIN_MATCH - 1`. -/
def shiftMatch (s : State) : State :=
  { s with regs := { s.regs with
      prevLength := s.regs.matchLength
      prevMatch := s.regs.matchStart
      matchLength := 2 } }

/-- R218: the match just found is dropped. -/
def truncated (s : State) : Bool :=
  decide (s.regs.matchLength.toNat ≤ filterMax)
    && (decide (s.cfg.strategy = .filtered)
      || (decide (s.regs.matchLength.toNat = minMatch)
        && decide (tooFar < sub16 s.regs.strstart.toNat s.regs.matchStart.toNat)))

/-- R218: drop the match just found when the truncation test holds. -/
def truncate (s : State) : State := if truncated s then setMatchLength 2 s else s

/-- R216, R217: the search and the truncation of a Slow iteration, when its condition holds. -/
def slowSearch (s : State) : State :=
  if candidateInReach s ∧ s.regs.prevLength.toNat < s.cfg.maxLazy.toNat then
    truncate (if s.cfg.strategy ≠ .huffmanOnly then searchFrom s.regs.hashHead s else s)
  else s

/-- R219: `n` times `strstart <- strstart + 1; if strstart <= max_insert: hash_head <- InsertString(strstart)`, where
`max_insert = bound - MIN_MATCH`. -/
def insertSpanUpTo (bound : Nat) : Nat → State → State
  | 0, s => s
  | n + 1, s =>
    let t := advance 1 0 s
    insertSpanUpTo bound n
      (if t.regs.strstart.toNat + minMatch ≤ bound then insertHashHead t.regs.strstart.toNat t else t)

/-- R219: the registers at the end of an emitted match. -/
def endSlowMatch (s : State) : State :=
  { s with regs := { s.regs with
      prevLength := 0
      matchAvailable := false
      matchLength := 2 } }

/-- R219: what follows the MATCH of a Slow iteration. -/
def slowAfterMatch (s : State) : State :=
  let bound := s.regs.strstart.toNat + s.regs.lookahead.toNat
  let t := advance 0 (s.regs.prevLength.toNat - 1) s
  advance 1 0 (endSlowMatch (insertSpanUpTo bound (s.regs.prevLength.toNat - 2) t))

/-- R221: the current position becomes the held one. -/
def hold (s : State) : State := { s with regs := { s.regs with matchAvailable := true } }

/-- R219 to R221: the emission of a Slow iteration, after its search. DEDUCED (log 19): the distance is modulo `2^16`,
by D26, so that a slide between the search and the emission, which wraps a `match_start` of `W - 1`, keeps it. -/
def slowEmit (s : State) : IterResult :=
  if minMatch ≤ s.regs.prevLength.toNat ∧ s.regs.matchLength.toNat ≤ s.regs.prevLength.toNat then
    ⟨slowAfterMatch s,
      some (.backref s.regs.prevLength.toNat (sub16 (s.regs.strstart.toNat - 1) s.regs.prevMatch.toNat)), .cont⟩
  else if s.regs.matchAvailable then
    ⟨advance 1 1 s, some (literalAt (s.regs.strstart.toNat - 1) s), .cont⟩
  else ⟨hold (advance 1 1 s), none, .cont⟩

/-- R215 SlowIter. -/
def slowIter (flush : Flush) (s : State) : IterResult :=
  let t := topFillState s
  match topFillEnd flush t with
  | .cont => slowEmit (slowSearch (shiftMatch (insertCurrent t)))
  | .needMore => ⟨t, none, .needMore⟩
  | .leave => ⟨t, none, .leave⟩

/-- R203: the iteration of the session's flavour. -/
def flavourIter (flush : Flush) (s : State) : IterResult :=
  match s.cfg.flavour with
  | .store => storeIter flush s
  | .fast => fastIter flush s
  | .slow => slowIter flush s

end Sys2Proof.Machine
end

