-- ==== Sys2Proof/Machine/Engine.lean ====
section
/-! DEFINITION. The engine steps (R280): what each step would do, the invariants and token bounds the engine checks
(R54, R226), and the step itself (R250). -/

namespace Sys2Proof.Machine

open Sys2Proof.Config

/-- What a step would do: the state with its effects but the emission, and its one possible token. -/
structure Attempt where
  state : State
  token : Option Token
deriving DecidableEq, Repr

/-- A step that emits nothing. -/
def silent (s : State) : Attempt := ⟨s, none⟩

/-! ## Session steps -/

/-- R125, R31, R200: the configuration an INIT installs. -/
def initConfig (s : State) : SessionConfig where
  level := s.cmd.level
  wbits := s.cmd.wbits
  strategy := s.cmd.strategy
  flavour := flavourOfLevel s.cmd.level
  goodLength := (levelRow s.params s.cmd.level).goodLength
  maxLazy := (levelRow s.params s.cmd.level).maxLazy
  niceLength := (levelRow s.params s.cmd.level).niceLength
  maxChainLength := (levelRow s.params s.cmd.level).maxChainLength

/-- R125: the configuration, then the draws of the window and the prev table. -/
def installConfig (s : State) : State :=
  nextDraw { s with
    cfg := initConfig s
    window := drawnWindow (2 * windowSize (initConfig s)) s
    prev := drawnPrev (windowSize (initConfig s)) s }

/-- R125 INIT_OP. -/
def initOp (s : State) : State :=
  complete { sessionClear (installConfig s) with session := .ready }

/-- R131 RESET_OP. -/
def resetOp (s : State) : State :=
  complete { sessionClear s with session := .ready }

/-- R133: `match_length`, `prev_length` and the configuration return to their hardware-reset values. -/
def releaseSession (s : State) : State :=
  { s with
    regs := { s.regs with matchLength := 0, prevLength := 0 }
    cfg := SessionConfig.zero
    session := .uninit }

/-- R133 END_OP. -/
def endOp (s : State) : State :=
  complete (scrambleMemories (releaseSession (sessionClear s)))

/-! ## Dictionary steps -/

/-- R128: append a byte to `dict_buf`, which keeps the last `MAX_DIST` bytes. -/
def pushDict (limit : Nat) (buf : List Byte) (b : Byte) : List Byte :=
  if limit < (buf ++ [b]).length then (buf ++ [b]).tail else buf ++ [b]

/-- R128 DICT_POP. -/
def dictPop (s : State) : State :=
  match s.inFifo with
  | [] => s
  | b :: _ =>
    { dropInput s with
      cmd := { s.cmd with
        dictBuf := pushDict (maxDist s.cfg) s.cmd.dictBuf b
        dictLeft := s.cmd.dictLeft - 1 }
      phase := if s.cmd.dictLeft - 1 = 0#16 then .dictCommit else .dictPop }

/-- R129: the dictionary in the window and the hash chains, its bytes counted as history (R226, log 21). -/
def loadDict (s : State) : State :=
  insertRange 0 (s.cmd.dictBuf.length - 2)
    { s with
      window := Memory.writeList s.window 0 s.cmd.dictBuf
      regs := { s.regs with strstart := BitVec.ofNat 17 s.cmd.dictBuf.length }
      history := s.cmd.dictBuf.length }

/-- R129 DICT_COMMIT. -/
def dictCommit (s : State) : State :=
  complete (if minMatch ≤ s.cmd.dictTotal.toNat then loadDict { s with dictLoaded := true }
    else { s with dictLoaded := true })

/-! ## RUN steps -/

/-- R202: the RUN has nothing to do: no input, a flush no stronger than the last, not Finish. -/
def noProgress (s : State) : Bool :=
  decide (s.inFifo.length = 0) && decide ((flushCode s.cmd.flush).toNat ≤ (flushCode s.regs.lastFlush).toNat)
    && decide (s.cmd.flush ≠ .finish)

/-- R201: the prologue: `last_flush <- cur_flush`, and STREAMING unless the flush is Finish. -/
def enterStream (s : State) : State :=
  { s with
    regs := { s.regs with lastFlush := s.cmd.flush }
    session := if s.cmd.flush = .finish then s.session else .streaming }

/-- R201: the RUN proceeds: `hash_head <- NIL; PHASE <- RUN_ITER`. -/
def beginLoop (s : State) : State :=
  { s with regs := { s.regs with hashHead := 0 }, phase := .runIter }

/-- R201 RUN_START. -/
def runStart (s : State) : State :=
  if s.session = .finished then completeRun .finishDone s
  else if noProgress s then completeRun .noProgress (enterStream s)
  else beginLoop (enterStream s)

/-- R203 RUN_ITER, but for the emission. -/
def runIter (s : State) : Attempt :=
  let r := flavourIter s.cmd.flush s
  match r.ends with
  | .cont => ⟨r.state, r.token⟩
  | .needMore => ⟨completeRun .needMore r.state, r.token⟩
  | .leave => ⟨{ r.state with phase := .runTail }, r.token⟩

/-- R222: a byte is held. -/
def holdsByte (s : State) : Bool := decide (s.cfg.flavour = .slow) && s.regs.matchAvailable

/-- R222 RUN_TAIL, but for the emission. -/
def runTail (s : State) : Attempt :=
  if holdsByte s then
    ⟨{ s with regs := { s.regs with matchAvailable := false }, phase := .runMark },
      some (literalAt (s.regs.strstart.toNat - 1) s)⟩
  else silent { s with phase := .runMark }

/-- R224: a Full flush empties the head table, and the bytes before it count as history no more (R226, log 21). -/
def clearChains (s : State) : State := { s with head := [], history := 0 }

/-- R223 RUN_MARK, but for the emission. -/
def runMark (s : State) : Attempt :=
  let t := if s.cmd.flush = .fullFlush then clearChains s else s
  ⟨if s.cmd.flush = .finish then completeRun .finishDone { t with session := .finished }
    else completeRun .blockDone t,
    some (.mark s.cmd.flush)⟩

/-! ## The step -/

/-- R280: the enabling condition of the current phase's step. -/
def enabled (s : State) : Bool :=
  s.busy && match s.phase with
    | .idle => false
    | .initOp => true
    | .resetOp => true
    | .endOp => true
    | .dictPop => decide (0 < s.inFifo.length)
    | .dictCommit => true
    | .runStart => true
    | .runIter => decide (s.tokFifo.length < s.params.tokFifoDepth)
    | .runTail => decide (s.tokFifo.length < s.params.tokFifoDepth)
    | .runMark => decide (s.tokFifo.length < s.params.tokFifoDepth)
    | .faulted => false

/-- R280: what the step of the current phase would do. -/
def attempt (s : State) : Attempt :=
  match s.phase with
  | .idle => silent s
  | .initOp => silent (initOp s)
  | .resetOp => silent (resetOp s)
  | .endOp => silent (endOp s)
  | .dictPop => silent (dictPop s)
  | .dictCommit => silent (dictCommit s)
  | .runStart => silent (runStart s)
  | .runIter => runIter s
  | .runTail => runTail s
  | .runMark => runMark s
  | .faulted => silent s

/-- R54: the sessions in which the invariants hold. -/
def inSession (s : State) : Bool :=
  match s.session with
  | .ready => true
  | .streaming => true
  | .finishing => true
  | .finished => true
  | .uninit => false
  | .faulted => false

/-- R54 item 1. -/
def windowFits (s : State) : Bool :=
  decide (s.regs.strstart.toNat + s.regs.lookahead.toNat ≤ 2 * windowSize s.cfg)

/-- R54 item 2: every nonzero head entry is below `strstart`. -/
def headsInserted (s : State) : Bool := s.head.all fun e => decide (e.2.toNat < s.regs.strstart.toNat)

/-- R54 item 3. -/
def heldByteOk (s : State) : Bool :=
  !s.regs.matchAvailable || (decide (s.cfg.flavour = .slow) && decide (1 ≤ s.regs.strstart.toNat))

/-- R54 item 4. -/
def lengthsOk (s : State) : Bool :=
  decide (s.regs.prevLength.toNat ≤ maxMatch) && decide (s.regs.matchLength.toNat ≤ maxMatch)

/-- R54 item 5. -/
def fifosFit (s : State) : Bool :=
  decide (s.tokFifo.length ≤ s.params.tokFifoDepth) && decide (s.inFifo.length ≤ s.params.inFifoDepth)

/-- The smallest number, 1 to 6, of a check that fails (R256): an invariant of R54 in the state a step leaves (log 14),
or the bounds of R226 on its token (log 21). -/
def firstBroken (s : State) (t : Option Token) : Option Nat :=
  if inSession s && !windowFits s then some 1
  else if inSession s && !headsInserted s then some 2
  else if inSession s && !heldByteOk s then some 3
  else if inSession s && !lengthsOk s then some 4
  else if inSession s && !fifosFit s then some 5
  else match t with
    | some t => if tokenInBounds s.cfg t && tokenInHistory s.history t then none else some 6
    | none => none

/-- R250: the attempt's effects, or InternalFault in place of all of them. -/
def commit (s : State) (a : Attempt) : State :=
  match firstBroken (emitOpt a.token a.state) a.token with
  | none => emitOpt a.token a.state
  | some n => internalFault n s

/-- R280: one turn of the engine: the step of the current phase when it is enabled, else nothing (a stall or an
idle engine, R265, R283). -/
def engineStep (s : State) : State := if enabled s then commit s (attempt s) else s

end Sys2Proof.Machine
end

