-- ==== Sys2Proof/Machine/Commands.lean ====
section
/-! DEFINITION. The commands (40_commands.md): acceptance (R120, R121) and one meaning per command row of the
opcode table. The steps an accepted command then takes are in Machine/Engine.lean. -/

namespace Sys2Proof.Machine

/-! ## Acceptance -/

/-- R121, row INIT: every session but FAULTED. FINISHING is never seen with `BUSY = 0` (log 13). -/
def initAllowed (s : State) : Bool :=
  match s.session with
  | .uninit => true
  | .ready => true
  | .streaming => true
  | .finished => true
  | .finishing => false
  | .faulted => false

/-- R121, row SET_DICT: READY, once per session. -/
def setDictAllowed (s : State) : Bool := decide (s.session = .ready) && !s.dictLoaded

/-- R121, row RUN: READY and STREAMING; in FINISHED with Finish only. -/
def runAllowed (flush : Flush) (s : State) : Bool :=
  match s.session with
  | .ready => true
  | .streaming => true
  | .finished => decide (flush = .finish)
  | .uninit => false
  | .finishing => false
  | .faulted => false

/-- R121, rows RESET and END. -/
def openSession (s : State) : Bool :=
  match s.session with
  | .ready => true
  | .streaming => true
  | .finished => true
  | .uninit => false
  | .finishing => false
  | .faulted => false

/-- R120: the checks of a command word with no reserved bit set, in order, and the acceptance:
`BUSY <- 1; cur_op <- op` and the command's own effects. -/
def issue (op : Op) (v : Word) (badParam allowed : Bool) (accept : State → State) (s : State) : State :=
  if s.busy then commandError .busy v s
  else if badParam then commandError .badParam v s
  else if !allowed then commandError .badState v s
  else accept { s with busy := true, cmd := { s.cmd with op := op } }

/-- R125: the acceptance effects of INIT. -/
def acceptInit (level wbits : BitVec 4) (strategy : Strategy) (s : State) : State :=
  { s with
    cmd := { s.cmd with level := resolveLevel level, wbits := resolveWbits wbits, strategy := strategy }
    phase := .initOp }

/-- R127: the acceptance effects of SET_DICT. -/
def acceptSetDict (n : BitVec 16) (s : State) : State :=
  { s with
    cmd := { s.cmd with dictTotal := n, dictLeft := n, dictBuf := [] }
    phase := if n.toNat > 0 then .dictPop else .dictCommit }

/-- R135: the acceptance effects of RUN. -/
def acceptRun (flush : Flush) (s : State) : State :=
  { s with
    cmd := { s.cmd with flush := flush }
    phase := .runStart
    bstate := if flush = .finish then .finishStarted else .inProgress
    session := if flush = .finish ∧ s.session ≠ .finished then .finishing else s.session }

/-- R131: the acceptance effect of RESET. -/
def acceptReset (s : State) : State := { s with phase := .resetOp }

/-- R133: the acceptance effect of END. -/
def acceptEnd (s : State) : State := { s with phase := .endOp }

/-- R120, R135: a RUN with a legal flush code. -/
def issueRun (flush : Flush) (s : State) : State :=
  issue .run (runWord (flushCode flush)) false (runAllowed flush s) (acceptRun flush) s

/-! ## Meanings -/

/-- R122 `lz.nop`. -/
def execNop (s : State) : Host.Outcome State Fault Refusal := .next s

/-- R125 `lz.init`. A STRATEGY field of 3 is BAD_PARAM (R88), so the value it would resolve to is never used. -/
def execInit (level wbits : BitVec 4) (strategy : BitVec 2) (s : State) : Host.Outcome State Fault Refusal :=
  .next (issue .init (initWord level wbits strategy) (badInitParam level wbits strategy) (initAllowed s)
    (acceptInit level wbits ((strategyOf strategy).getD .default)) s)

/-- R127 `lz.setdict`. -/
def execSetDict (n : BitVec 16) (s : State) : Host.Outcome State Fault Refusal :=
  .next (issue .setDict (setDictWord n) false (setDictAllowed s) (acceptSetDict n) s)

/-- R135 `lz.run` by its raw FLUSH field: 5 to 7 are BAD_PARAM (R88), after the BUSY check. -/
def execRun (flush : BitVec 3) (s : State) : Host.Outcome State Fault Refusal :=
  match flushOfCode flush with
  | some f => .next (issueRun f s)
  | none => .next (issue .run (runWord flush) true false id s)

/-- R136 `lz.run none`. -/
def execRunNone (s : State) : Host.Outcome State Fault Refusal := .next (issueRun .noFlush s)

/-- R137 `lz.run partial`. -/
def execRunPartial (s : State) : Host.Outcome State Fault Refusal := .next (issueRun .partialFlush s)

/-- R138 `lz.run sync`. -/
def execRunSync (s : State) : Host.Outcome State Fault Refusal := .next (issueRun .syncFlush s)

/-- R139 `lz.run full`. -/
def execRunFull (s : State) : Host.Outcome State Fault Refusal := .next (issueRun .fullFlush s)

/-- R140 `lz.run finish`. -/
def execRunFinish (s : State) : Host.Outcome State Fault Refusal := .next (issueRun .finish s)

/-- R131 `lz.reset`. -/
def execReset (s : State) : Host.Outcome State Fault Refusal :=
  .next (issue .reset resetWord false (openSession s) acceptReset s)

/-- R133 `lz.end`. -/
def execEndSession (s : State) : Host.Outcome State Fault Refusal :=
  .next (issue .endSession endWord false (openSession s) acceptEnd s)

/-- R120: a word of no command row: BUSY comes before ILLEGAL_CMD (R241). -/
def rejectIllegal (v : Word) (s : State) : State :=
  if s.busy then commandError .busy v s else commandError .illegalCmd v s

/-- R120 `wr CMD`: the word is decoded by the rows of the command formats (spec/opcode_table.json, row
`wr CMD`), and what fits none of them is ILLEGAL_CMD (R89). -/
def execWrCmd (v : Word) (s : State) : Host.Outcome State Fault Refusal :=
  if illegalWord v then .next (rejectIllegal v s)
  else match (opField v).toNat with
    | 0 => execNop s
    | 1 => execInit (levelField v) (wbitsField v) (strategyField v) s
    | 2 => execSetDict (lengthField v) s
    | 3 => execRun (flushField v) s
    | 4 => execReset s
    | 5 => execEndSession s
    | _ => .next (rejectIllegal v s)

end Sys2Proof.Machine
end

