-- ==== Sys2Proof/Machine/HostAccess.lean ====
section
/-! DEFINITION. The host register accesses (R141 to R146), one meaning per row of the opcode table. -/

namespace Sys2Proof.Machine

/-- R141: the sessions and phases in which a push is no BAD_STATE. -/
def pushAllowed (s : State) : Bool :=
  (decide (s.session = .ready) || decide (s.session = .streaming))
    && !(decide (s.phase = .initOp) || decide (s.phase = .resetOp) || decide (s.phase = .endOp))

/-- R141: append the byte `v[7:0]` to the input FIFO. -/
def appendInput (v : Word) (s : State) : State := { s with inFifo := s.inFifo ++ [v.setWidth 8] }

/-- R141 `push`: BAD_STATE is checked first, then IN_OVERFLOW. -/
def execPush (v : Word) (s : State) : Host.Outcome State Fault Refusal :=
  .next (if !pushAllowed s then pushError .badState v s
    else if inFull s then pushError .inOverflow v s
    else appendInput v s)

/-- R142 `pop`: return and remove the oldest token; EMPTY, and nothing changes, when there is none. -/
def execPop (s : State) : Host.Outcome State Fault Refusal :=
  .next { s with readData := tokDataWord s, tokFifo := s.tokFifo.tail }

/-- R143 `rd`. -/
def execRd (offset : BitVec 12) (s : State) : Host.Outcome State Fault Refusal :=
  .next { s with readData := offsetValue s offset.toNat }

/-- R144 `wr INT_ENABLE`. -/
def execWrIntEnable (v : Word) (s : State) : Host.Outcome State Fault Refusal :=
  .next { s with intEnable := v.extractLsb' 0 4 }

/-- R145 `wr INT_STATUS`. -/
def execWrIntStatus (v : Word) (s : State) : Host.Outcome State Fault Refusal := .next (acknowledge v s)

/-- R146 a rejected access: BAD_ACCESS, with the written value as information for a write and 0 for a read. -/
def execBadAccess (write : Bool) (size : Size) (offset : BitVec 12) (v : Word) (s : State) :
    Host.Outcome State Fault Refusal :=
  .next (usageError .badAccess (if write then v else 0) write size offset s)

end Sys2Proof.Machine
end

