-- ==== Sys2Proof/Machine/Dispatch.lean ====
section
/-! DEFINITION. One arm per row of the opcode table. -/

namespace Sys2Proof.Machine

def exec (i : Instr) (s : State) : Host.Outcome State Fault Refusal :=
  match i with
  | .nop => Sys2Proof.Machine.execNop s
  | .init level wbits strategy => Sys2Proof.Machine.execInit level wbits strategy s
  | .setDict n => Sys2Proof.Machine.execSetDict n s
  | .run flush => Sys2Proof.Machine.execRun flush s
  | .runNone => Sys2Proof.Machine.execRunNone s
  | .runPartial => Sys2Proof.Machine.execRunPartial s
  | .runSync => Sys2Proof.Machine.execRunSync s
  | .runFull => Sys2Proof.Machine.execRunFull s
  | .runFinish => Sys2Proof.Machine.execRunFinish s
  | .reset => Sys2Proof.Machine.execReset s
  | .endSession => Sys2Proof.Machine.execEndSession s
  | .push v => Sys2Proof.Machine.execPush v s
  | .pop => Sys2Proof.Machine.execPop s
  | .rd offset => Sys2Proof.Machine.execRd offset s
  | .wrIntEnable v => Sys2Proof.Machine.execWrIntEnable v s
  | .wrIntStatus v => Sys2Proof.Machine.execWrIntStatus v s
  | .wrCmd v => Sys2Proof.Machine.execWrCmd v s
  | .badAccess write size offset v => Sys2Proof.Machine.execBadAccess write size offset v s

end Sys2Proof.Machine
end

