-- ==== Sys2Proof/Machine/Step.lean ====
section
/-! DEFINITION. The step (R69, R280): the agent whose turn it is makes one move. -/

namespace Sys2Proof.Machine

/-- The next turn of the schedule is taken off and performed (log 1): a host access is decoded and executed, the
engine performs one step if it is enabled, or hardware reset happens (R270). With no turn left the engine moves
(log 2). A parameter set out of the spec's ranges is refused (R183, I19). -/
def step (s : State) : Host.Outcome State Fault Refusal :=
  if s.params.ok then
    match s.schedule with
    | [] => .next (engineStep s)
    | .engine :: rest => .next (engineStep { s with schedule := rest })
    | .hardReset :: rest => .next (hardReset { s with schedule := rest })
    | .host a :: rest =>
      match decode s.params.baseAddr a with
      | .ok i => exec i { s with schedule := rest }
      | .error .outsideRegisterSpace => .fault .outsideRegisterSpace
  else .refused .parametersOutOfRange

/-- The host access of a table word becomes the next turn (log 1, log 12). -/
def State.withFetchWord (s : State) (nbits w : Nat) : State :=
  { s with schedule := .host (tableAccess s.params.baseAddr nbits w) :: s.schedule }

end Sys2Proof.Machine
end

