-- ==== Sys2Proof/Safety.lean ====
section
/-! DEFINITION. What counts as a safe state and a safe run, in the terms the claims use. -/

namespace Sys2Proof.Machine

open Sys2Proof.Config

/-- The private memories are in their one canonical form (`Memory.wf`). -/
def MemoriesWf (s : State) : Prop :=
  Memory.wf s.window = true ∧ Memory.wf s.head = true ∧ Memory.wf s.prev = true

/-- A phase of a RUN (R135, R280). -/
def runPhase : Phase → Bool
  | .runStart => true
  | .runIter => true
  | .runTail => true
  | .runMark => true
  | .idle => false
  | .initOp => false
  | .resetOp => false
  | .endOp => false
  | .dictPop => false
  | .dictCommit => false
  | .faulted => false

/-- The control state is one the rules allow: `BUSY`, `PHASE`, `SESSION` and the command registers agree
(R25, R50, R120, R121, R135, R223, R250), and an open session has a legal configuration (R26, R87, R88, R200). -/
structure ControlOk (s : State) : Prop where
  /-- R25, R280: `BUSY = 1` exactly while a command is in progress. -/
  busyPhase : s.busy = true ↔ s.phase ≠ .idle ∧ s.phase ≠ .faulted
  /-- R250: the session and the phase are FAULTED together. -/
  faultedPhase : s.session = .faulted ↔ s.phase = .faulted
  /-- R121: "a session is FINISHING only while a RUN is in progress". -/
  finishingRun : s.session = .finishing → s.cmd.flush = .finish ∧ runPhase s.phase = true
  /-- R26, R200: the configuration of an open session. -/
  config : inSession s = true → 9 ≤ s.cfg.wbits.toNat ∧ s.cfg.level.toNat ≤ 9
    ∧ s.cfg.flavour = flavourOfLevel s.cfg.level
  /-- R121, R87: an INIT in progress. -/
  initOp : s.phase = .initOp → initAllowed s = true ∧ 9 ≤ s.cmd.wbits.toNat ∧ s.cmd.level.toNat ≤ 9
  /-- R121: a RESET or END in progress. -/
  resetOrEnd : s.phase = .resetOp ∨ s.phase = .endOp → openSession s = true
  /-- R127, R128: a SET_DICT popping bytes. -/
  dictPop : s.phase = .dictPop → s.session = .ready ∧ s.dictLoaded = false ∧ s.cmd.dictLeft ≠ 0#16
  /-- R127: a SET_DICT about to commit. -/
  dictCommit : s.phase = .dictCommit → s.session = .ready ∧ s.dictLoaded = false
  /-- R135: a RUN at its first step. -/
  runStart : s.phase = .runStart →
    (s.cmd.flush = .finish → s.session = .finishing ∨ s.session = .finished)
      ∧ (s.cmd.flush ≠ .finish → s.session = .ready ∨ s.session = .streaming)
  /-- R201: a RUN past its first step. -/
  runLoop : s.phase = .runIter ∨ s.phase = .runTail ∨ s.phase = .runMark →
    s.session = (if s.cmd.flush = .finish then .finishing else .streaming)
  /-- R203, R205, R223: the tail and the marker come only after every buffered byte is encoded, and never with
  flush None. -/
  runTail : s.phase = .runTail ∨ s.phase = .runMark →
    s.cmd.flush ≠ .noFlush ∧ s.regs.lookahead.toNat = 0
  /-- R222: no byte is held when the marker is emitted. -/
  runMark : s.phase = .runMark → holdsByte s = false

/-- The invariants of R54: items 1 to 4 in an open session, item 5 always. -/
def SpecInvariants (s : State) : Prop :=
  (inSession s = true → windowFits s = true ∧ headsInserted s = true ∧ heldByteOk s = true ∧ lengthsOk s = true)
    ∧ fifosFit s = true

/-- R226, R93: every token in the FIFO is in the bounds of the session's configuration and no marker has code 0. -/
def TokenFifoOk (s : State) : Prop :=
  ∀ t ∈ s.tokFifo, tokenInBounds s.cfg t = true ∧ t ≠ .mark .noFlush

/-- The state an internal fault leaves (R250): FAULTED, idle, with code 7 in the record. -/
def Frozen (s : State) : Prop :=
  s.session = .faulted ∧ s.phase = .faulted ∧ s.busy = false ∧ s.err.code = .internal ∧ s.errFlag = true

/-- A state some interleaving of host accesses, engine steps and hardware resets leads to from hardware reset, at the
parameters `p` and with any draws. -/
def Reachable (p : Params) (s : State) : Prop :=
  ∃ (k : Nat) (schedule : List Turn) (draws : List Draw),
    Host.Core.run Sys2Proof.core k
      { State.resetWith p with schedule := schedule, draws := draws } = .next s

/-- A safe state: no internal fault has happened (R250). -/
def Safe (s : State) : Prop := s.session ≠ .faulted

/-! ## Terms of the statements -/

/-- R21, R270: what a read of each register returns after hardware reset. -/
def resetRegister : Reg → Word
  | .id => 0x4C5A4D45
  | .version => 0x00010000
  | .cmd => 0
  | .status => 0x00000A00
  | .config => 0
  | .param0 => 0
  | .param1 => 0
  | .inData => 0
  | .inCount => 0
  | .tokData => 0xC0000000
  | .tokCount => 0
  | .totalIn => 0
  | .totalTok => 0
  | .errCode => 0
  | .errInfo => 0
  | .intEnable => 0
  | .intStatus => 0x00000008
  | .dbgStrstart => 0
  | .dbgLookahead => 0
  | .dbgMatch => 0
  | .dbgPos => 0
  | .dbgMisc => 0

/-- The row of a RUN's flush type (R136 to R140). -/
def runRow : Flush → Instr
  | .noFlush => .runNone
  | .partialFlush => .runPartial
  | .syncFlush => .runSync
  | .fullFlush => .runFull
  | .finish => .runFinish

/-- The rows that present a command (R120). -/
def commandRow : Instr → Bool
  | .nop => true
  | .init _ _ _ => true
  | .setDict _ => true
  | .run _ => true
  | .runNone => true
  | .runPartial => true
  | .runSync => true
  | .runFull => true
  | .runFinish => true
  | .reset => true
  | .endSession => true
  | .wrCmd _ => true
  | .push _ => false
  | .pop => false
  | .rd _ => false
  | .wrIntEnable _ => false
  | .wrIntStatus _ => false
  | .badAccess _ _ _ _ => false

/-- The rows that are reads (R142, R143, R146). -/
def readRow : Instr → Bool
  | .pop => true
  | .rd _ => true
  | .badAccess write _ _ _ => !write
  | .nop => false
  | .init _ _ _ => false
  | .setDict _ => false
  | .run _ => false
  | .runNone => false
  | .runPartial => false
  | .runSync => false
  | .runFull => false
  | .runFinish => false
  | .reset => false
  | .endSession => false
  | .wrCmd _ => false
  | .push _ => false
  | .wrIntEnable _ => false
  | .wrIntStatus _ => false

/-- The state after a rejected 32-bit write (R120, R245): only the error record and `INT_STATUS.ERR` change. -/
def rejectedWrite (kind : ErrKind) (offset : BitVec 12) (v : Word) (s : State) : State :=
  { s with
    err := if s.err.code = .none then ⟨kind, false, true, 2, offset, v⟩ else { s.err with multi := true }
    errFlag := true }

/-- R121's table, by the opcode and the flush code of a word: the session check passes. -/
def sessionTable (op flush : Nat) (s : State) : Prop :=
  match op with
  | 1 => s.session ≠ .faulted
  | 2 => s.session = .ready ∧ s.dictLoaded = false
  | 3 => s.session = .ready ∨ s.session = .streaming ∨ (s.session = .finished ∧ flush = 4)
  | _ => s.session = .ready ∨ s.session = .streaming ∨ s.session = .finished

/-- R88: an operand of the word is out of range. -/
def outOfRange (v : Nat) : Prop :=
  (v % 16 = 1 ∧ ((10 ≤ v / 2 ^ 4 % 16 ∧ v / 2 ^ 4 % 16 ≤ 14) ∨ (1 ≤ v / 2 ^ 8 % 16 ∧ v / 2 ^ 8 % 16 ≤ 8)
      ∨ v / 2 ^ 12 % 4 = 3))
    ∨ (v % 16 = 3 ∧ 5 ≤ v / 2 ^ 4 % 8)

/-- R86, R89: the word has a reserved opcode or a reserved bit set. -/
def reservedWord (v : Nat) : Prop :=
  6 ≤ v % 16 ∨ (v % 16 = 1 ∧ v / 2 ^ 14 ≠ 0) ∨ (v % 16 = 2 ∧ v / 2 ^ 4 % 2 ^ 12 ≠ 0)
    ∨ (v % 16 = 3 ∧ v / 2 ^ 7 ≠ 0) ∨ ((v % 16 = 0 ∨ v % 16 = 4 ∨ v % 16 = 5) ∧ v / 2 ^ 4 ≠ 0)

/-- R124: what `SessionClear` leaves in a state. -/
def sessionCleared (t : State) : Prop :=
  (∀ h, Memory.read t.head h = 0) ∧ t.regs = ⟨0, 0, 2, 2, 0, 0, false, 0, .noFlush⟩
    ∧ t.inFifo = [] ∧ t.tokFifo = [] ∧ t.totalIn = 0 ∧ t.totalTok = 0 ∧ t.history = 0 ∧ t.dictLoaded = false
    ∧ t.bstate = .none

/-- The registers INIT, RESET and END keep (R271), and those `complete` sets. -/
def completedKeepingErrors (s t : State) : Prop :=
  t.busy = false ∧ t.phase = .idle ∧ t.done = true
    ∧ t.err = s.err ∧ t.errFlag = s.errFlag ∧ t.intEnable = s.intEnable ∧ t.readData = s.readData
    ∧ t.params = s.params ∧ t.schedule = s.schedule

/-- R166: the free bytes after the lookahead. -/
def refillRoom (t : State) : Nat := 2 * 2 ^ t.cfg.wbits.toNat - t.regs.lookahead.toNat - t.regs.strstart.toNat

/-- The held match of the Slow flavour is true (R228): the bytes from `match_start` equal those from the held position. -/
def HeldMatchTrue (t : State) : Prop :=
  ∀ k, k < t.regs.matchLength.toNat → Memory.read t.window (t.regs.matchStart.toNat + k)
    = Memory.read t.window (t.regs.strstart.toNat - 1 + k)

/-- R162: from the chains of `s` to those of `t`, exactly the positions `lo` to `hi - 1` were inserted, in rising order, by the
hashes of the window of `t`: each head entry is the last position of its hash, each inserted position links to the one before it
with its hash, and every other entry is unchanged. -/
structure Inserted (s t : State) (lo hi : Nat) : Prop where
  /-- A hash of none of the positions keeps its head. -/
  headOther : ∀ h, (∀ p, lo ≤ p → p < hi → hashAt t.window p ≠ h) → Memory.read t.head h = Memory.read s.head h
  /-- The head of a position's hash is the last of the positions with that hash. -/
  headLast : ∀ p, lo ≤ p → p < hi →
    p ≤ (Memory.read t.head (hashAt t.window p)).toNat ∧ (Memory.read t.head (hashAt t.window p)).toNat < hi
      ∧ hashAt t.window (Memory.read t.head (hashAt t.window p)).toNat = hashAt t.window p
  /-- The first of the positions with a hash links to the head the hash had before. -/
  prevFirst : ∀ p, lo ≤ p → p < hi → (∀ q, lo ≤ q → q < p → hashAt t.window q ≠ hashAt t.window p) →
    Memory.read t.prev (p % 2 ^ t.cfg.wbits.toNat) = Memory.read s.head (hashAt t.window p)
  /-- A later one links to the last of them before it. -/
  prevLast : ∀ p q, lo ≤ q → q < p → p < hi → hashAt t.window q = hashAt t.window p →
    q ≤ (Memory.read t.prev (p % 2 ^ t.cfg.wbits.toNat)).toNat
      ∧ (Memory.read t.prev (p % 2 ^ t.cfg.wbits.toNat)).toNat < p
      ∧ hashAt t.window (Memory.read t.prev (p % 2 ^ t.cfg.wbits.toNat)).toNat = hashAt t.window p
  /-- The prev entries of no inserted position are unchanged. -/
  prevOther : ∀ i, (∀ p, lo ≤ p → p < hi → p % 2 ^ t.cfg.wbits.toNat ≠ i) → Memory.read t.prev i = Memory.read s.prev i

/-- R180: the candidates of a search, `n` links down the chain from `cur`. -/
def candidate (cur : Half) (s : State) : Nat → Half
  | 0 => cur
  | n + 1 => Memory.read s.prev ((candidate cur s n).toNat % 2 ^ s.cfg.wbits.toNat)

/-- R184: the match length of the `n`-th candidate. -/
def candidateLen (cur : Half) (s : State) (n : Nat) : Nat :=
  matchLen s.window (candidate cur s n).toNat s.regs.strstart.toNat

/-- R180, R187: the `n`-th candidate beats `prev_length` and every candidate before it. -/
def Beats (cur : Half) (s : State) (n : Nat) : Prop :=
  s.regs.prevLength.toNat < candidateLen cur s n ∧ ∀ i, i < n → candidateLen cur s i < candidateLen cur s n

/-- R185: the `n`-th candidate beats the others before it and is long enough to end the walk. -/
def NiceAt (cur : Half) (s : State) (n : Nat) : Prop :=
  Beats cur s n ∧ min s.cfg.niceLength.toNat s.regs.lookahead.toNat ≤ candidateLen cur s n

/-- The state an enabled step leaves if no check fails (R280). -/
def wouldLeave (s : State) : State := emitOpt (attempt s).token (attempt s).state

/-- R250: no check of the step fails: the state it would leave meets the invariants of R54, and its token the bounds of R226. -/
def NothingBroken (s : State) : Prop :=
  SpecInvariants (wouldLeave s) ∧ ∀ t, (attempt s).token = some t →
    tokenInBounds (wouldLeave s).cfg t = true ∧ tokenInHistory (wouldLeave s).history t = true

end Sys2Proof.Machine
end

