-- ==== Sys2Proof/WellFormed.lean ====
section
/-! DEFINITION. The check on instructions: an instruction is well-formed when it is the spelling the
decoder gives its access (R89: every word is exactly one row, an ILLEGAL_CMD or a BAD_PARAM). -/

namespace Sys2Proof

/-- `lz.run` by its raw field is kept for the codes that are no legal RUN word (R84: 5 to 7); `rd` reads an
aligned offset other than `TOK_DATA` (R143); `wr CMD` is kept for the words of no command row (R86, R89);
a bad access is one of those R146 lists, with its unwritten lanes 0 and no data for a read (R245). -/
def Instr.wf : Instr → Bool
  | .run flush => decide (5 ≤ flush.toNat)
  | .rd offset => decide (offset.toNat % 4 = 0) && decide (offset.toNat ≠ regOffset .tokData)
  | .wrCmd v => illegalWord v
  | .badAccess write size offset v =>
      isBadAccess write size offset
        && decide ((if write then v &&& laneMask size offset else 0) = v)
  | .nop => true
  | .init _ _ _ => true
  | .setDict _ => true
  | .runNone => true
  | .runPartial => true
  | .runSync => true
  | .runFull => true
  | .runFinish => true
  | .reset => true
  | .endSession => true
  | .push _ => true
  | .pop => true
  | .wrIntEnable _ => true
  | .wrIntStatus _ => true

end Sys2Proof
end

