-- ==== Sys2Proof/Certificates/Slice0/Obligations.lean ====
section
/-! DEFINITION. The statements for the provers. Each formalises the rules its docstring names. -/

open Sys2Proof Sys2Proof.Machine Sys2Proof.Config

/-! ## Encoding and decoding -/

/-- R82 to R85, R141, R142, R144 to R146: words and accesses written out from the encoding tables decode to their rows. -/
def Obligations.WrittenOutWordsDecodeToTheirRows : Prop :=
  decodeCommand 0x00000000 = .nop
    ∧ decodeCommand 0x000000F1 = .init 15 0 0
    ∧ decodeCommand 0x00001911 = .init 1 9 1
    ∧ decodeCommand 0x001D0002 = .setDict 29
    ∧ decodeCommand 0x00000023 = .runSync
    ∧ decodeCommand 0x00000053 = .run 5
    ∧ decodeCommand 0x00000004 = .reset
    ∧ decodeCommand 0x00000005 = .endSession
    ∧ decodeCommand 0x00010003 = .wrCmd 0x00010003
    ∧ decode 0x4000 ⟨true, .word, 0x401C, 0x12345661⟩ = .ok (.push 0x12345661)
    ∧ decode 0x4000 ⟨false, .word, 0x4024, 0⟩ = .ok .pop
    ∧ decode 0x4000 ⟨false, .word, 0x400C, 0⟩ = .ok (.rd 0x00C)
    ∧ decode 0x4000 ⟨true, .word, 0x403C, 8⟩ = .ok (.wrIntEnable 8)
    ∧ decode 0x4000 ⟨true, .word, 0x4040, 3⟩ = .ok (.wrIntStatus 3)
    ∧ decode 0x4000 ⟨true, .byte, 0x401C, 0x61⟩ = .ok (.badAccess true .byte 0x01C 0x61)

/-- R80 to R89, R96, R141 to R146: decoding the access that encodes a well-formed instruction gives the instruction back,
with every operand at every value. -/
def Obligations.EncodedInstructionsDecodeBack : Prop :=
  ∀ (base : Nat) (i : Instr), i.wf = true → decode base (encode base i) = .ok i

/-- R60, R89, R242: every access to the register space is exactly one well-formed instruction, and encoding that
instruction gives the access back, with the unwritten byte lanes of a write 0 (R245) and no data for a read. Which lanes a misaligned
word write, a halfword write at offset 3 modulo 4 and a write wider than a word drive is the model's choice (DEDUCED, log 11). -/
def Obligations.DecodedAccessesEncodeBack : Prop :=
  ∀ (base : Nat) (a : Access) (i : Instr), decode base a = .ok i →
    i.wf = true ∧ encode base i =
      { a with data := if a.write then a.data &&& laneMask a.size (BitVec.ofNat 12 (a.address - base)) else 0 }

/-- R86, R88, R89, R120: a command word is ILLEGAL_CMD exactly when its opcode is reserved or a reserved bit of its
format is set, and every other word is exactly the row of its opcode, with its operands; of RUN the row of its flush type. -/
def Obligations.EveryCommandWordIsOneRowOrIllegal : Prop :=
  ∀ v : Word,
    (decodeCommand v = .wrCmd v ↔
      6 ≤ v.toNat % 16
        ∨ (v.toNat % 16 = 1 ∧ v.toNat / 2 ^ 14 ≠ 0)
        ∨ (v.toNat % 16 = 2 ∧ v.toNat / 2 ^ 4 % 2 ^ 12 ≠ 0)
        ∨ (v.toNat % 16 = 3 ∧ v.toNat / 2 ^ 7 ≠ 0)
        ∨ ((v.toNat % 16 = 0 ∨ v.toNat % 16 = 4 ∨ v.toNat % 16 = 5) ∧ v.toNat / 2 ^ 4 ≠ 0))
    ∧ (decodeCommand v = .nop ↔ v = 0)
    ∧ (decodeCommand v = .reset ↔ v = 4)
    ∧ (decodeCommand v = .endSession ↔ v = 5)
    ∧ (∀ n, decodeCommand v = .setDict n ↔ v.toNat = n.toNat * 2 ^ 16 + 2)
    ∧ (∀ f, decodeCommand v = runRow f ↔ v.toNat = (flushCode f).toNat * 2 ^ 4 + 3)
    ∧ (∀ c, 5 ≤ c.toNat → (decodeCommand v = .run c ↔ v.toNat = c.toNat * 2 ^ 4 + 3))
    ∧ (∀ l w st, decodeCommand v = .init l w st ↔
        v.toNat = st.toNat * 2 ^ 12 + w.toNat * 2 ^ 8 + l.toNat * 2 ^ 4 + 1)

/-- R91, R92 (with R90, R93 to R95): the value of the word of an in-bounds token, which is never EMPTY, and the token decoder
reads the token back from it; a distance in bounds is at most 32506. -/
def Obligations.TokenWordsDecodeBack : Prop :=
  ∀ (c : SessionConfig) (t : Token), tokenInBounds c t = true →
    tokenOfWord (tokenWord t) = some t ∧ tokenWord t ≠ 0xC0000000
      ∧ (∀ b : Byte, t = .lit b → (tokenWord t).toNat = b.toNat)
      ∧ (∀ len dist : Nat, t = .backref len dist →
          (tokenWord t).toNat = 0x40000000 + (len - 3) * 2 ^ 16 + (dist - 1)
            ∧ 3 ≤ len ∧ len ≤ 258 ∧ 1 ≤ dist ∧ dist ≤ 2 ^ c.wbits.toNat - 262 ∧ dist ≤ 32506)
      ∧ (∀ f : Flush, t = .mark f → (tokenWord t).toNat = 0x80000000 + (flushCode f).toNat)

/-! ## The step -/

/-- R69, R89 (log 1): when it is the host's turn and the access decodes, the step is the instruction's meaning on the state
with that turn taken off. -/
def Obligations.StepRunsTheDecodedAccess : Prop :=
  ∀ (s : State) (a : Access) (rest : List Turn) (i : Instr), s.params.ok = true → s.schedule = .host a :: rest →
    decode s.params.baseAddr a = .ok i → step s = exec i { s with schedule := rest }

/-- R69, R280, R183 (log 1, log 2, log 5, log 10): the turns that are no decoded access: the engine's turn, the empty schedule,
an address outside the register space, parameters out of range; and these two are the only stops. -/
def Obligations.StepGivesTheEngineItsTurnOrStops : Prop :=
  ∀ (s : State),
    (s.params.ok = true → s.schedule = [] → step s = .next (engineStep s))
      ∧ (∀ rest, s.params.ok = true → s.schedule = .engine :: rest →
          step s = .next (engineStep { s with schedule := rest }))
      ∧ (s.params.ok = false → step s = .refused .parametersOutOfRange)
      ∧ (∀ a rest, s.params.ok = true → s.schedule = .host a :: rest →
          ¬(s.params.baseAddr ≤ a.address ∧ a.address < s.params.baseAddr + 4096) →
          step s = .fault .outsideRegisterSpace)
      ∧ (s.params.ok = true →
          (∀ a rest, s.schedule = .host a :: rest →
            s.params.baseAddr ≤ a.address ∧ a.address < s.params.baseAddr + 4096) →
          ∃ t, step s = .next t)

/-- R270 (with R21, R53): hardware reset, in any state and at any instant, gives the reset table, and so does the state the model
starts from, at all parameters. That the reset is a turn of the schedule, and that the rest of the schedule and the parameters stay,
are the model's choices (log 1, log 8). What it leaves in the command registers and the private memories, which R270 calls
unspecified, is the model's choice too (log 8, log 9) and is not stated. -/
def Obligations.HardwareResetGivesTheResetTable : Prop :=
  (∀ (s : State) (rest : List Turn), s.params.ok = true → s.schedule = .hardReset :: rest →
    ∃ t, step s = .next t ∧ (∀ r, registerValue t r = resetRegister r) ∧ irq t = false
      ∧ t.busy = false ∧ t.bstate = .none ∧ t.session = .uninit ∧ t.dictLoaded = false ∧ t.phase = .idle
      ∧ t.inFifo = [] ∧ t.tokFifo = [] ∧ t.totalIn = 0 ∧ t.totalTok = 0 ∧ t.regs = EngineRegs.zero
      ∧ t.cfg = SessionConfig.zero ∧ t.err = ErrRecord.none ∧ t.done = false ∧ t.errFlag = false ∧ t.intEnable = 0
      ∧ t.schedule = rest ∧ t.params = s.params)
  ∧ ∀ p : Params, p.ok = true → (∀ r, registerValue (State.resetWith p) r = resetRegister r)
    ∧ irq (State.resetWith p) = false

/-! ## Registers and the interrupt -/

/-- R22 to R33, R35: what a read of each register but `INT_STATUS` gives (R143): every field at its bits, reserved bits 0, and the
counts, counters and constants. -/
def Obligations.RegisterFieldsAreAtTheirBits : Prop :=
  ∀ s : State,
    registerValue s .id = 0x4C5A4D45 ∧ registerValue s .version = 0x00010000
      ∧ registerValue s .cmd = 0 ∧ registerValue s .inData = 0
      ∧ (registerValue s .status).getLsbD 0 = s.busy
      ∧ (registerValue s .status).extractLsb' 1 3 = bstateCode s.bstate
      ∧ (registerValue s .status).extractLsb' 4 3 = sessionCode s.session
      ∧ (registerValue s .status).getLsbD 7 = s.dictLoaded
      ∧ (registerValue s .status).getLsbD 8 = decide (s.inFifo.length = s.params.inFifoDepth)
      ∧ (registerValue s .status).getLsbD 9 = decide (s.inFifo = [])
      ∧ (registerValue s .status).getLsbD 10 = decide (s.tokFifo.length = s.params.tokFifoDepth)
      ∧ (registerValue s .status).getLsbD 11 = decide (s.tokFifo = [])
      ∧ (registerValue s .status).extractLsb' 12 4 = 0
      ∧ (registerValue s .status).extractLsb' 16 4 = phaseCode s.phase
      ∧ (registerValue s .status).extractLsb' 20 12 = 0
      ∧ (registerValue s .config).extractLsb' 0 4 = s.cfg.level ∧ (registerValue s .config).extractLsb' 4 4 = s.cfg.wbits
      ∧ (registerValue s .config).extractLsb' 8 2 = strategyCode s.cfg.strategy
      ∧ (registerValue s .config).extractLsb' 10 2 = flavourCode s.cfg.flavour
      ∧ (registerValue s .config).extractLsb' 12 20 = 0
      ∧ (registerValue s .param0).extractLsb' 0 9 = s.cfg.goodLength
      ∧ (registerValue s .param0).extractLsb' 16 9 = s.cfg.maxLazy
      ∧ (registerValue s .param0).extractLsb' 9 7 = 0 ∧ (registerValue s .param0).extractLsb' 25 7 = 0
      ∧ (registerValue s .param1).extractLsb' 0 9 = s.cfg.niceLength
      ∧ (registerValue s .param1).extractLsb' 16 13 = s.cfg.maxChainLength
      ∧ (registerValue s .param1).extractLsb' 9 7 = 0 ∧ (registerValue s .param1).extractLsb' 29 3 = 0
      ∧ (s.inFifo.length < 2 ^ 24 → (registerValue s .inCount).toNat = s.inFifo.length)
      ∧ (s.tokFifo.length < 2 ^ 24 → (registerValue s .tokCount).toNat = s.tokFifo.length)
      ∧ (∀ k rest, s.tokFifo = k :: rest → registerValue s .tokData = tokenWord k)
      ∧ (s.tokFifo = [] → registerValue s .tokData = 0xC0000000)
      ∧ registerValue s .totalIn = s.totalIn ∧ registerValue s .totalTok = s.totalTok
      ∧ (registerValue s .errCode).extractLsb' 0 4 = errKindCode s.err.code
      ∧ (registerValue s .errCode).getLsbD 8 = s.err.multi
      ∧ (registerValue s .errCode).getLsbD 9 = s.err.write
      ∧ (registerValue s .errCode).extractLsb' 10 2 = s.err.size
      ∧ (registerValue s .errCode).extractLsb' 16 12 = s.err.offset
      ∧ (registerValue s .errCode).extractLsb' 4 4 = 0 ∧ (registerValue s .errCode).extractLsb' 12 4 = 0
      ∧ (registerValue s .errCode).extractLsb' 28 4 = 0
      ∧ registerValue s .errInfo = s.err.info
      ∧ (registerValue s .intEnable).toNat = s.intEnable.toNat
      ∧ (registerValue s .dbgStrstart).toNat = s.regs.strstart.toNat
      ∧ (registerValue s .dbgLookahead).toNat = s.regs.lookahead.toNat
      ∧ (registerValue s .dbgMatch).extractLsb' 0 9 = s.regs.matchLength
      ∧ (registerValue s .dbgMatch).extractLsb' 16 9 = s.regs.prevLength
      ∧ (registerValue s .dbgMatch).getLsbD 31 = s.regs.matchAvailable
      ∧ (registerValue s .dbgMatch).extractLsb' 9 7 = 0 ∧ (registerValue s .dbgMatch).extractLsb' 25 6 = 0
      ∧ (registerValue s .dbgPos).extractLsb' 0 16 = s.regs.matchStart
      ∧ (registerValue s .dbgPos).extractLsb' 16 16 = s.regs.prevMatch
      ∧ (registerValue s .dbgMisc).extractLsb' 0 16 = s.regs.hashHead
      ∧ (registerValue s .dbgMisc).extractLsb' 16 3 = flushCode s.regs.lastFlush
      ∧ (registerValue s .dbgMisc).extractLsb' 19 13 = 0

/-- R34, R255: `INT_STATUS` and the interrupt output. -/
def Obligations.InterruptIsPendingUnderEnable : Prop :=
  ∀ s : State,
    (registerValue s .intStatus).toNat =
      s.done.toNat + 2 * s.errFlag.toNat + 4 * (decide (s.tokFifo ≠ [])).toNat
        + 8 * (decide (s.inFifo.length < s.params.inFifoDepth)).toNat
    ∧ (irq s = true ↔
        (s.done = true ∧ s.intEnable.getLsbD 0 = true) ∨ (s.errFlag = true ∧ s.intEnable.getLsbD 1 = true)
          ∨ (s.tokFifo ≠ [] ∧ s.intEnable.getLsbD 2 = true)
          ∨ (s.inFifo.length < s.params.inFifoDepth ∧ s.intEnable.getLsbD 3 = true))

/-! ## Commands -/

/-- R122: the word 0 is NOP and has no effect on any state, in every session and phase; a word with `OP = 0` and a nonzero bit in
[31:4] is no NOP: it is rejected with BUSY if `BUSY = 1`, otherwise ILLEGAL_CMD. -/
def Obligations.NopHasNoEffect : Prop :=
  decodeCommand 0 = .nop ∧ (∀ s : State, exec .nop s = .next s ∧ exec (.wrCmd 0) s = .next s)
    ∧ ∀ (v : Word) (s : State), v.toNat % 16 = 0 → v ≠ 0 →
      decodeCommand v = .wrCmd v
        ∧ exec (.wrCmd v) s = .next (rejectedWrite (if s.busy then .busy else .illegalCmd) 0x008 v s)

/-- R125, R87: an INIT with legal operands, not BUSY and not FAULTED, is accepted: only `BUSY`, the command registers and
`PHASE` change. -/
def Obligations.InitIsAccepted : Prop :=
  ∀ (level wbits : BitVec 4) (field : BitVec 2) (strategy : Strategy) (s : State),
    s.busy = false → level.toNat ≤ 9 ∨ level.toNat = 15 → wbits.toNat = 0 ∨ 9 ≤ wbits.toNat →
    field = strategyCode strategy →
    s.session = .uninit ∨ s.session = .ready ∨ s.session = .streaming ∨ s.session = .finished →
    exec (.init level wbits field) s = .next
      { s with
        busy := true
        phase := .initOp
        cmd := { s.cmd with
          op := .init
          level := if level.toNat = 15 then 6 else level
          wbits := if wbits.toNat = 0 then 15 else wbits
          strategy := strategy } }

/-- R127: a SET_DICT in READY with no dictionary loaded, not BUSY, is accepted. -/
def Obligations.SetDictIsAccepted : Prop :=
  ∀ (n : BitVec 16) (s : State), s.busy = false → s.session = .ready → s.dictLoaded = false →
    exec (.setDict n) s = .next
      { s with
        busy := true
        phase := if n.toNat > 0 then .dictPop else .dictCommit
        cmd := { s.cmd with op := .setDict, dictTotal := n, dictLeft := n, dictBuf := [] } }

/-- R135: a RUN, not BUSY, in READY or STREAMING with any flush or in FINISHED with Finish, is accepted, by its own row and
by the raw-field row alike. -/
def Obligations.RunIsAccepted : Prop :=
  ∀ (flush : Flush) (s : State), s.busy = false →
    s.session = .ready ∨ s.session = .streaming ∨ (s.session = .finished ∧ flush = .finish) →
    ∃ t, exec (runRow flush) s = .next t ∧ exec (.run (flushCode flush)) s = .next t
      ∧ t = { s with
        busy := true
        phase := .runStart
        bstate := if flush = .finish then .finishStarted else .inProgress
        session := if flush = .finish ∧ s.session ≠ .finished then .finishing else s.session
        cmd := { s.cmd with op := .run, flush := flush } }

/-- R131, R133: RESET and END in an open session, not BUSY, are accepted. -/
def Obligations.ResetAndEndAreAccepted : Prop :=
  ∀ s : State, s.busy = false → s.session = .ready ∨ s.session = .streaming ∨ s.session = .finished →
    exec .reset s = .next { s with busy := true, phase := .resetOp, cmd := { s.cmd with op := .reset } }
      ∧ exec .endSession s = .next
          { s with busy := true, phase := .endOp, cmd := { s.cmd with op := .endSession } }

/-- R120, R121, R241: a `CMD` write is checked in the order NOP, BUSY, ILLEGAL_CMD, BAD_PARAM, BAD_STATE, the first failing
check gives the code, and the rejected write changes nothing but the error record. -/
def Obligations.CommandChecksAreInOrder : Prop :=
  ∀ (v : Word) (s : State), v ≠ 0 → s.session ≠ .finishing ∨ s.busy = true →
    (s.busy = true → exec (.wrCmd v) s = .next (rejectedWrite .busy 0x008 v s))
      ∧ (s.busy = false → reservedWord v.toNat → exec (.wrCmd v) s = .next (rejectedWrite .illegalCmd 0x008 v s))
      ∧ (s.busy = false → ¬reservedWord v.toNat → outOfRange v.toNat →
          exec (.wrCmd v) s = .next (rejectedWrite .badParam 0x008 v s))
      ∧ (s.busy = false → ¬reservedWord v.toNat → ¬outOfRange v.toNat →
          ¬sessionTable (v.toNat % 16) (v.toNat / 2 ^ 4 % 8) s →
          exec (.wrCmd v) s = .next (rejectedWrite .badState 0x008 v s))
      ∧ (s.busy = false → ¬reservedWord v.toNat → ¬outOfRange v.toNat →
          sessionTable (v.toNat % 16) (v.toNat / 2 ^ 4 % 8) s →
          ∃ t, exec (.wrCmd v) s = .next t ∧ t.busy = true ∧ t.err = s.err ∧ t.errFlag = s.errFlag)

/-- R89, R120: a word written to `CMD` does what the row it decodes to does. -/
def Obligations.CommandWordsRunTheirRows : Prop :=
  ∀ (v : Word) (s : State), exec (.wrCmd v) s = exec (decodeCommand v) s

/-! ## Host accesses -/

/-- R141, R241: a push in READY or STREAMING, outside INIT, RESET and END, with room in the FIFO, appends `v[7:0]` and changes
nothing else; outside those sessions and phases it is BAD_STATE, and otherwise IN_OVERFLOW when the FIFO is full: the byte is
dropped. -/
def Obligations.PushAppendsTheByteOrIsRejected : Prop :=
  ∀ (v : Word) (s : State),
    (s.session = .ready ∨ s.session = .streaming → s.phase ≠ .initOp → s.phase ≠ .resetOp → s.phase ≠ .endOp →
        s.inFifo.length ≠ s.params.inFifoDepth →
        ∃ b : Byte, b.toNat = v.toNat % 256 ∧ exec (.push v) s = .next { s with inFifo := s.inFifo ++ [b] })
      ∧ ((s.session ≠ .ready ∧ s.session ≠ .streaming) ∨ s.phase = .initOp ∨ s.phase = .resetOp ∨ s.phase = .endOp →
        exec (.push v) s = .next (rejectedWrite .badState 0x01C v s))
      ∧ (s.session = .ready ∨ s.session = .streaming → s.phase ≠ .initOp → s.phase ≠ .resetOp →
          s.phase ≠ .endOp → s.inFifo.length = s.params.inFifoDepth →
          exec (.push v) s = .next (rejectedWrite .inOverflow 0x01C v s))

/-- R142, R94: a pop returns and removes the oldest token; of an empty FIFO it returns EMPTY and changes nothing. -/
def Obligations.PopReturnsTheOldestToken : Prop :=
  ∀ s : State,
    (∀ t rest, s.tokFifo = t :: rest →
      exec .pop s = .next { s with readData := tokenWord t, tokFifo := rest })
    ∧ (s.tokFifo = [] → exec .pop s = .next { s with readData := 0xC0000000 })

/-- R143, R24, R28, R36: a read returns the register's value and has no side effect; `CMD`, `IN_DATA` and the reserved offsets
read 0. -/
def Obligations.ReadReturnsTheRegister : Prop :=
  ∀ (offset : BitVec 12) (s : State),
    (∀ r, offset.toNat = regOffset r → exec (.rd offset) s = .next { s with readData := registerValue s r })
      ∧ (0x058 ≤ offset.toNat → exec (.rd offset) s = .next { s with readData := 0 })
      ∧ (offset.toNat = 0x008 ∨ offset.toNat = 0x01C → exec (.rd offset) s = .next { s with readData := 0 })

/-- R144: a word write to 0x03C sets `INT_ENABLE[3:0] <- v[3:0]` and nothing else, in every session and phase; it reads back in bits
[3:0], and the interrupt output changes at once: it is the OR of the pending bits under the new enables. -/
def Obligations.IntEnableTakesFourBits : Prop :=
  ∀ (v : Word) (s : State),
    (∀ base, decode base ⟨true, .word, base + 0x03C, v⟩ = .ok (.wrIntEnable v))
      ∧ ∃ e : BitVec 4, e.toNat = v.toNat % 16 ∧ exec (.wrIntEnable v) s = .next { s with intEnable := e }
        ∧ (registerValue { s with intEnable := e } .intEnable).toNat = v.toNat % 16
        ∧ (irq { s with intEnable := e } = true ↔ ∃ i, i < 4 ∧ v.getLsbD i = true ∧ (intStatusBits s).getLsbD i = true)

/-- R145: a word write to 0x040: bit 0 clears DONE; bit 1 clears ERR and the record, but not in FAULTED; bits [31:2] are ignored and
nothing else changes, in every session and phase. -/
def Obligations.IntStatusIsWriteOneToClear : Prop :=
  ∀ (v : Word) (s : State),
    (∀ base, decode base ⟨true, .word, base + 0x040, v⟩ = .ok (.wrIntStatus v))
      ∧ exec (.wrIntStatus v) s = .next
        { s with
          done := s.done && !v.getLsbD 0
          errFlag := if v.getLsbD 1 = true ∧ s.session ≠ .faulted then false else s.errFlag
          err := if v.getLsbD 1 = true ∧ s.session ≠ .faulted then ⟨.none, false, false, 0, 0, 0⟩ else s.err }

/-- R146, R242, R245, R64: a bad access records BAD_ACCESS with its direction, width and offset, a read returns 0, and nothing else
changes; an access is bad exactly when its width is no word, its offset misaligned, or it writes an RO or POP register or a
reserved offset. -/
def Obligations.BadAccessOnlyRecords : Prop :=
  (∀ (write : Bool) (size : Size) (offset : BitVec 12) (v : Word) (s : State),
    exec (.badAccess write size offset v) s = .next
      { s with
        err := if s.err.code = .none then
            ⟨.badAccess, false, write, sizeLog2 size, offset, if write then v else 0⟩
          else { s.err with multi := true }
        errFlag := true
        readData := if write then s.readData else 0 })
  ∧ ∀ (write : Bool) (size : Size) (offset : BitVec 12) (v : Word),
    (∃ w, decodeAt write size offset v = .badAccess write size offset w) ↔
      size ≠ .word ∨ offset.toNat % 4 ≠ 0
        ∨ (write = true ∧ offset.toNat ≠ 0x008 ∧ offset.toNat ≠ 0x01C ∧ offset.toNat ≠ 0x03C
            ∧ offset.toNat ≠ 0x040)

/-- R69, R120, R141 to R146, R245, R247: the frame of every host access. The private memories, the configuration, the position and
match registers, the counters (the history count of log 21 among them), the parameters, the schedule and the draws are unchanged by all; the
FIFOs, `INT_ENABLE`, `DONE`, the command state, the read data and the error record change only by the rows named, and the first error's record is kept. -/
def Obligations.HostAccessesLeaveTheEngineAlone : Prop :=
  ∀ (i : Instr) (s t : State), exec i s = .next t →
    (∀ a, Memory.read t.window a = Memory.read s.window a) ∧ (∀ h, Memory.read t.head h = Memory.read s.head h)
      ∧ (∀ p, Memory.read t.prev p = Memory.read s.prev p)
      ∧ t.cfg = s.cfg ∧ t.regs = s.regs ∧ t.totalIn = s.totalIn ∧ t.totalTok = s.totalTok ∧ t.history = s.history
      ∧ t.dictLoaded = s.dictLoaded
      ∧ t.params = s.params ∧ t.schedule = s.schedule ∧ t.draws = s.draws ∧ t.drawIndex = s.drawIndex
      ∧ ((∀ v, i ≠ .push v) → t.inFifo = s.inFifo) ∧ (i ≠ .pop → t.tokFifo = s.tokFifo)
      ∧ ((∀ v, i ≠ .wrIntEnable v) → t.intEnable = s.intEnable)
      ∧ ((∀ v, i ≠ .wrIntStatus v) → t.done = s.done)
      ∧ (readRow i = false → t.readData = s.readData)
      ∧ (commandRow i = false → t.busy = s.busy ∧ t.phase = s.phase ∧ t.bstate = s.bstate ∧ t.session = s.session
          ∧ t.cmd = s.cmd)
      ∧ (t.session ≠ s.session → t.session = .finishing)
      ∧ ((∀ v, i ≠ .wrIntStatus v) → s.err.code ≠ .none →
          t.err = s.err ∨ t.err = { s.err with multi := true })

/-! ## Session and dictionary steps -/

/-- R125, R200: the INIT_OP step: the configuration with its tuning row and flavour, `SessionClear`, READY; the `2*W` window bytes and
the `W` prev entries take a draw (D39; log 6): the state's own next draw if it carries one, else the free constants of Config. It
raises no internal fault. That the history count is 0 is of the model's own count (DESIGN CHOICE, log 21). -/
def Obligations.InitStepOpensASession : Prop :=
  ∀ s : State, s.busy = true → s.phase = .initOp →
    ∃ t, engineStep s = t ∧ sessionCleared t ∧ completedKeepingErrors s t ∧ t.session = .ready
      ∧ t.cfg.level = s.cmd.level ∧ t.cfg.wbits = s.cmd.wbits ∧ t.cfg.strategy = s.cmd.strategy
      ∧ t.cfg.flavour = (if s.cmd.level.toNat = 0 then .store else if s.cmd.level.toNat ≤ 3 then .fast else .slow)
      ∧ (∀ row, s.params.levelTable[s.cmd.level.toNat]? = some row →
          t.cfg.goodLength = row.goodLength ∧ t.cfg.maxLazy = row.maxLazy ∧ t.cfg.niceLength = row.niceLength
            ∧ t.cfg.maxChainLength = row.maxChainLength)
      ∧ (∀ d rest, s.draws = d :: rest → t.draws = rest ∧ ∀ a,
          Memory.read t.window a = (if a < 2 * 2 ^ s.cmd.wbits.toNat then d.window.getD a 0 else 0)
            ∧ Memory.read t.prev a = (if a < 2 ^ s.cmd.wbits.toNat then d.prev.getD a 0 else 0))
      ∧ (s.draws = [] → ∀ a,
          Memory.read t.window a = (if a < 2 * 2 ^ s.cmd.wbits.toNat then windowInit s.drawIndex a else 0)
            ∧ Memory.read t.prev a = (if a < 2 ^ s.cmd.wbits.toNat then prevInit s.drawIndex a else 0))
      ∧ t.drawIndex = s.drawIndex + 1

/-- R131: the RESET_OP step: `SessionClear`, READY; the configuration, the window and the prev table stay. That the history count is 0
is of the model's own count (DESIGN CHOICE, log 21). -/
def Obligations.ResetStepKeepsConfigurationAndWindow : Prop :=
  ∀ s : State, s.busy = true → s.phase = .resetOp →
    ∃ t, engineStep s = t ∧ sessionCleared t ∧ completedKeepingErrors s t ∧ t.session = .ready ∧ t.cfg = s.cfg
      ∧ (∀ a, Memory.read t.window a = Memory.read s.window a)
      ∧ (∀ a, Memory.read t.prev a = Memory.read s.prev a)

/-- R133: the END_OP step: the session is UNINIT, the configuration and the registers are at their hardware-reset values, the
FIFOs and counters are empty. That the history count is 0 here too is the model's choice (DESIGN CHOICE, log 21); R133 has no such
count. -/
def Obligations.EndStepClosesTheSession : Prop :=
  ∀ s : State, s.busy = true → s.phase = .endOp →
    ∃ t, engineStep s = t ∧ completedKeepingErrors s t ∧ t.session = .uninit ∧ t.cfg = SessionConfig.zero
      ∧ t.regs = EngineRegs.zero ∧ t.inFifo = [] ∧ t.tokFifo = [] ∧ t.totalIn = 0 ∧ t.totalTok = 0
      ∧ t.history = 0 ∧ t.dictLoaded = false ∧ t.bstate = .none
      ∧ registerValue t .config = 0 ∧ registerValue t .param0 = 0 ∧ registerValue t .param1 = 0

/-- R128: a DICT_POP step moves the oldest input byte to `dict_buf`, which keeps the last `MAX_DIST` bytes, and goes to
DICT_COMMIT after the last one; it is not enabled while the input FIFO is empty (R280). -/
def Obligations.DictPopMovesOneByte : Prop :=
  ∀ s : State, s.busy = true → s.phase = .dictPop → SpecInvariants s →
    (s.inFifo = [] → engineStep s = s)
      ∧ ∀ b rest, s.inFifo = b :: rest → engineStep s =
        { s with
          inFifo := rest
          phase := if s.cmd.dictLeft.toNat = 1 then .dictCommit else .dictPop
          cmd := { s.cmd with
            dictLeft := s.cmd.dictLeft - 1
            dictBuf := if (s.cmd.dictBuf ++ [b]).length ≤ maxDist s.cfg then s.cmd.dictBuf ++ [b]
              else (s.cmd.dictBuf ++ [b]).tail } }

/-- R127, R129, R162: DICT_COMMIT. A dictionary of fewer than 3 bytes changes only `DICT_LOADED` (and completes the command). A longer
one is copied to window positions 0 to L-1, `strstart` becomes L, and exactly the positions 0 to L-3 are inserted into the chains, in
order: each head entry is the last position of its hash, each prev entry the one before it; `hash_head` and `TOTAL_IN` are not
written, and the history the check of R226 counts is the dictionary (log 21). -/
def Obligations.DictCommitLoadsTheWindow : Prop :=
  ∀ s : State, s.busy = true → s.phase = .dictCommit → SpecInvariants s →
    (s.cmd.dictTotal.toNat < 3 →
      engineStep s = { s with dictLoaded := true, busy := false, phase := .idle, done := true })
    ∧ (MemoriesWf s → s.session = .ready → 9 ≤ s.cfg.wbits.toNat → (∀ h, Memory.read s.head h = 0) →
        s.regs.lookahead.toNat = 0 → s.regs.matchAvailable = false →
        3 ≤ s.cmd.dictTotal.toNat → 3 ≤ s.cmd.dictBuf.length → s.cmd.dictBuf.length ≤ maxDist s.cfg →
        ∃ t, engineStep s = t ∧ t.busy = false ∧ t.phase = .idle ∧ t.done = true ∧ t.dictLoaded = true
          ∧ t.session = .ready ∧ t.bstate = s.bstate
          ∧ t.regs = { s.regs with strstart := BitVec.ofNat 17 s.cmd.dictBuf.length }
          ∧ t.totalIn = s.totalIn ∧ t.inFifo = s.inFifo ∧ t.tokFifo = s.tokFifo ∧ t.cfg = s.cfg ∧ t.err = s.err
          ∧ t.history = s.cmd.dictBuf.length
          ∧ (∀ a, Memory.read t.window a
              = if a < s.cmd.dictBuf.length then s.cmd.dictBuf.getD a 0 else Memory.read s.window a)
          ∧ Inserted s t 0 (s.cmd.dictBuf.length - 2)
          ∧ (∀ h, (Memory.read t.head h).toNat + 3 ≤ s.cmd.dictBuf.length))

/-! ## Window and hash chains -/

/-- R160, R161: the hash is the 15-bit index `((b0 << 10) ^ (b1 << 5) ^ b2) & 0x7FFF`, the hash of a position is that of its three bytes,
and R160's two examples; and, as R161 derives, three of zlib's rolling updates give it from any earlier value. -/
def Obligations.HashIsTheRollingHash : Prop :=
  hash3 0x61 0x62 0x63 = 0x0823 ∧ hash3 0x61 0x61 0x61 = 0x0841
    ∧ (∀ (m : List Host.Cell) (p : Nat),
        hashAt m p = hash3 (Memory.read m p) (Memory.read m (p + 1)) (Memory.read m (p + 2)))
    ∧ ∀ (x : Nat) (b0 b1 b2 : Byte),
      hash3 b0 b1 b2 < 32768
        ∧ hash3 b0 b1 b2 = ((b0.toNat <<< 10) ^^^ (b1.toNat <<< 5) ^^^ b2.toNat) &&& 0x7FFF
        ∧ (((((((x <<< 5) ^^^ b0.toNat) &&& 0x7FFF) <<< 5) ^^^ b1.toNat) &&& 0x7FFF) <<< 5 ^^^ b2.toNat) &&& 0x7FFF
            = hash3 b0 b1 b2

/-- R162: `InsertString(p)` writes one head entry and one prev entry, and every other entry and byte is unchanged. -/
def Obligations.InsertStringWritesTwoEntries : Prop :=
  ∀ (p : Nat) (s : State), MemoriesWf s → p < 65536 →
    (∀ h, (Memory.read (insertString p s).head h).toNat = if h = hashAt s.window p then p
        else (Memory.read s.head h).toNat)
      ∧ (∀ i, Memory.read (insertString p s).prev i = if i = p % 2 ^ s.cfg.wbits.toNat
          then Memory.read s.head (hashAt s.window p) else Memory.read s.prev i)
      ∧ (∀ a, Memory.read (insertString p s).window a = Memory.read s.window a)
      ∧ (insertHashHead p s).regs = { s.regs with hashHead := Memory.read s.head (hashAt s.window p) }
      ∧ (insertString p s).regs = s.regs

/-- R167: SLIDE copies the upper half of the window to the lower half, rebases `strstart`, `match_start` and every head and prev
entry, and leaves the upper half and the other registers. -/
def Obligations.SlideRebasesEverything : Prop :=
  ∀ s : State, MemoriesWf s → 9 ≤ s.cfg.wbits.toNat → 2 ^ s.cfg.wbits.toNat ≤ s.regs.strstart.toNat →
    (∀ a, a < 2 ^ s.cfg.wbits.toNat →
        Memory.read (slide s).window a = Memory.read s.window (a + 2 ^ s.cfg.wbits.toNat))
      ∧ (∀ a, 2 ^ s.cfg.wbits.toNat ≤ a → Memory.read (slide s).window a = Memory.read s.window a)
      ∧ (∀ h, (Memory.read (slide s).head h).toNat = (Memory.read s.head h).toNat - 2 ^ s.cfg.wbits.toNat)
      ∧ (∀ i, (Memory.read (slide s).prev i).toNat = (Memory.read s.prev i).toNat - 2 ^ s.cfg.wbits.toNat)
      ∧ (slide s).regs.strstart.toNat = s.regs.strstart.toNat - 2 ^ s.cfg.wbits.toNat
      ∧ (slide s).regs.matchStart.toNat = sub16 s.regs.matchStart.toNat (2 ^ s.cfg.wbits.toNat)
      ∧ (slide s).regs = { s.regs with strstart := (slide s).regs.strstart, matchStart := (slide s).regs.matchStart }

/-- R166, R63, R169: in a state that meets R54 item 1 with a short lookahead, FILL slides when `strstart >= W + MAX_DIST`, then reads
once: `n = min(more, in_count)` bytes go to the end of the lookahead in order, and every other window byte is unchanged; the
history count (log 21) stays. -/
def Obligations.FillPlacesTheInputInOrder : Prop :=
  ∀ s : State, MemoriesWf s → 9 ≤ s.cfg.wbits.toNat → windowFits s = true → s.regs.lookahead.toNat < 262 →
    ∃ t n, t = (if 2 * 2 ^ s.cfg.wbits.toNat ≤ s.regs.strstart.toNat + 262 then slide s else s)
      ∧ n = min (refillRoom t) s.inFifo.length
      ∧ (fill s).inFifo = s.inFifo.drop n
      ∧ (fill s).regs.lookahead.toNat = s.regs.lookahead.toNat + n
      ∧ (fill s).regs = { t.regs with lookahead := (fill s).regs.lookahead }
      ∧ (fill s).totalIn = s.totalIn + BitVec.ofNat 32 n
      ∧ (∀ k, k < n → Memory.read (fill s).window (t.regs.strstart.toNat + s.regs.lookahead.toNat + k)
          = s.inFifo.getD k 0)
      ∧ (∀ a, a < t.regs.strstart.toNat + s.regs.lookahead.toNat
            ∨ t.regs.strstart.toNat + s.regs.lookahead.toNat + n ≤ a →
          Memory.read (fill s).window a = Memory.read t.window a)
      ∧ (fill s).head = t.head ∧ (fill s).prev = t.prev ∧ (fill s).tokFifo = s.tokFifo ∧ (fill s).history = s.history
      ∧ (fill s).regs.strstart.toNat + (fill s).regs.lookahead.toNat ≤ 2 * 2 ^ s.cfg.wbits.toNat

/-! ## Match search -/

/-- R184: MatchLen is the length of the longest common prefix, at most 258. -/
def Obligations.MatchLenIsTheCommonPrefix : Prop :=
  ∀ (m : List Host.Cell) (a b : Nat),
    matchLen m a b ≤ 258
      ∧ (∀ i, i < matchLen m a b → Memory.read m (a + i) = Memory.read m (b + i))
      ∧ (matchLen m a b < 258 → Memory.read m (a + matchLen m a b) ≠ Memory.read m (b + matchLen m a b))

/-- R180, R181, R186, R187: the result is at most `lookahead` and at most 258 or `prev_length`; a result above `prev_length` is a
true match at `match_start`, which is the first candidate or one above the distance limit; when no candidate beats `prev_length`,
`match_start` is unchanged. The caller assigns the result to `match_length`, and a search writes no other register than these two and
no other state. -/
def Obligations.LongestMatchFindsATrueMatch : Prop :=
  ∀ (cur : Half) (s : State),
    longestMatch cur s ≤ s.regs.lookahead.toNat
      ∧ (longestMatch cur s ≤ 258 ∨ longestMatch cur s ≤ s.regs.prevLength.toNat)
      ∧ (s.regs.prevLength.toNat < longestMatch cur s →
          (∀ k, k < longestMatch cur s → Memory.read s.window ((searchFrom cur s).regs.matchStart.toNat + k)
              = Memory.read s.window (s.regs.strstart.toNat + k))
            ∧ ((searchFrom cur s).regs.matchStart = cur
              ∨ s.regs.strstart.toNat - maxDist s.cfg < (searchFrom cur s).regs.matchStart.toNat))
      ∧ ((searchBest cur s).len ≤ s.regs.prevLength.toNat →
          (searchFrom cur s).regs.matchStart = s.regs.matchStart)
      ∧ (longestMatch cur s ≤ s.regs.prevLength.toNat → longestMatch cur s < s.regs.lookahead.toNat →
          (searchFrom cur s).regs.matchStart = s.regs.matchStart)
      ∧ (searchFrom cur s).regs.matchLength.toNat = longestMatch cur s
      ∧ searchFrom cur s = { s with
          regs := { s.regs with
            matchLength := (searchFrom cur s).regs.matchLength
            matchStart := (searchFrom cur s).regs.matchStart } }

/-- R180 to R187: the chain walk. It examines the candidates 0 to `n` of the chain, one link of `prev` after another, no more than the
budget: it goes on while the next one is above the distance limit and none so far is nice, and ends for no other reason. The longest
of them, the first one if several are, is the match if it beats `prev_length`. The first candidate is always examined, and one longer
than `prev_length` and at least `nice` long ends the walk; a budget of 1 examines no other; the budget is halved (at the default
shift) exactly when `prev_length >= GoodLength` at entry. -/
def Obligations.SearchLimitsEndTheWalk : Prop :=
  ∀ (cur : Half) (s : State),
    (1 ≤ chainBudget s → ∃ n, n < chainBudget s
      ∧ (∀ i, i < n → s.regs.strstart.toNat - maxDist s.cfg < (candidate cur s (i + 1)).toNat ∧ ¬NiceAt cur s i)
      ∧ (n + 1 = chainBudget s ∨ (candidate cur s (n + 1)).toNat ≤ s.regs.strstart.toNat - maxDist s.cfg
          ∨ NiceAt cur s n)
      ∧ ((∃ j, j ≤ n ∧ Beats cur s j ∧ (∀ i, i ≤ n → candidateLen cur s i ≤ candidateLen cur s j)
            ∧ (searchFrom cur s).regs.matchStart = candidate cur s j
            ∧ longestMatch cur s = min (candidateLen cur s j) s.regs.lookahead.toNat)
          ∨ ((∀ i, i ≤ n → candidateLen cur s i ≤ s.regs.prevLength.toNat)
            ∧ (searchFrom cur s).regs.matchStart = s.regs.matchStart
            ∧ longestMatch cur s = min s.regs.prevLength.toNat s.regs.lookahead.toNat)))
    ∧ (s.regs.prevLength.toNat < matchLen s.window cur.toNat s.regs.strstart.toNat →
      (min s.cfg.niceLength.toNat s.regs.lookahead.toNat ≤ matchLen s.window cur.toNat s.regs.strstart.toNat
        ∨ chainBudget s = 1) →
      (searchFrom cur s).regs.matchStart = cur
        ∧ longestMatch cur s = min (matchLen s.window cur.toNat s.regs.strstart.toNat) s.regs.lookahead.toNat)
    ∧ (matchLen s.window cur.toNat s.regs.strstart.toNat ≤ s.regs.prevLength.toNat → chainBudget s = 1 →
      (searchFrom cur s).regs.matchStart = s.regs.matchStart
        ∧ longestMatch cur s = min s.regs.prevLength.toNat s.regs.lookahead.toNat)
    ∧ (s.params.chainReduceShift = 1 → s.cfg.goodLength.toNat ≤ s.regs.prevLength.toNat →
        chainBudget s = s.cfg.maxChainLength.toNat / 2)
    ∧ (s.regs.prevLength.toNat < s.cfg.goodLength.toNat → chainBudget s = s.cfg.maxChainLength.toNat)

/-! ## Flavours -/

/-- R203 to R206: how an iteration ends before it encodes, in the state its FILL leaves, whether or not that moved bytes or slid. In the
Fast and Slow flavours fewer than 262 bytes then end it with NEED_MORE for flush None, and no byte then ends it with BREAK for another
flush; in the Store flavour no byte then ends it with NEED_MORE or BREAK, and otherwise it emits the next byte as a literal, one byte
more in the history (log 21, a count of the model's own), and touches no chain and no match register. None of the ends emits. With an
empty FIFO and no slide due, FILL leaves the state as it is. -/
def Obligations.IterationEndsWhenInputRunsOut : Prop :=
  ∀ (flush : Flush) (s : State),
    (s.inFifo = [] → slideDue s = false → s.regs.lookahead.toNat = 0 →
        ∀ r, r = storeIter flush s ∨ r = fastIter flush s ∨ r = slowIter flush s →
        r = ⟨s, none, if flush = .noFlush then .needMore else .leave⟩)
      ∧ (s.inFifo = [] → slideDue s = false → s.regs.lookahead.toNat < 262 → flush = .noFlush →
          ∀ r, r = fastIter flush s ∨ r = slowIter flush s → r = ⟨s, none, .needMore⟩)
      ∧ (∀ t, t = (if s.regs.lookahead.toNat < 262 then fill s else s) →
          ∀ r, r = fastIter flush s ∨ r = slowIter flush s →
          (t.regs.lookahead.toNat < 262 → flush = .noFlush → r = ⟨t, none, .needMore⟩)
            ∧ (t.regs.lookahead.toNat = 0 → flush ≠ .noFlush → r = ⟨t, none, .leave⟩))
      ∧ ∀ t, t = (if s.regs.lookahead.toNat = 0 then fill s else s) →
          (t.regs.lookahead.toNat = 0 →
            storeIter flush s = ⟨t, none, if flush = .noFlush then .needMore else .leave⟩)
          ∧ (0 < t.regs.lookahead.toNat →
            storeIter flush s =
              ⟨{ t with
                  regs := { t.regs with strstart := t.regs.strstart + 1, lookahead := t.regs.lookahead - 1 }
                  history := t.history + 1 },
                some (.lit (Memory.read t.window t.regs.strstart.toNat)), .cont⟩)

/-- R205, R210, R211, R215 to R217: the parts of an iteration and their order. After TopFill, when it does not end the iteration, the
current string is inserted exactly when `lookahead >= 3`, then (Slow only) the match registers shift, then comes the search, then the
emission. The search runs only with a candidate that is not `NIL` and within `MAX_DIST`, never with HuffmanOnly, and in the Slow
flavour only when the previous match is shorter than `MaxLazy`; otherwise `match_length` and `match_start` are unchanged, but for the
truncation that the Slow flavour makes with HuffmanOnly too. -/
def Obligations.SearchConditions : Prop :=
  (∀ s : State,
    (s.regs.hashHead ≠ 0#16 → sub16 s.regs.strstart.toNat s.regs.hashHead.toNat ≤ maxDist s.cfg →
        s.cfg.strategy ≠ .huffmanOnly →
        fastSearch s = searchFrom s.regs.hashHead s
          ∧ (s.regs.prevLength.toNat < s.cfg.maxLazy.toNat →
              slowSearch s = truncate (searchFrom s.regs.hashHead s)))
      ∧ (s.regs.hashHead = 0#16 ∨ maxDist s.cfg < sub16 s.regs.strstart.toNat s.regs.hashHead.toNat →
          fastSearch s = s ∧ slowSearch s = s)
      ∧ (s.cfg.strategy = .huffmanOnly → fastSearch s = s ∧ (slowSearch s = s ∨ slowSearch s = truncate s))
      ∧ (s.cfg.maxLazy.toNat ≤ s.regs.prevLength.toNat → slowSearch s = s)
      ∧ (3 ≤ s.regs.lookahead.toNat → insertCurrent s =
          { insertString s.regs.strstart.toNat s with
            regs := { s.regs with hashHead := Memory.read s.head (hashAt s.window s.regs.strstart.toNat) } })
      ∧ (s.regs.lookahead.toNat < 3 → insertCurrent s = s))
  ∧ ∀ (flush : Flush) (s t : State), t = (if s.regs.lookahead.toNat < 262 then fill s else s) →
      262 ≤ t.regs.lookahead.toNat ∨ (flush ≠ .noFlush ∧ t.regs.lookahead.toNat ≠ 0) →
      fastIter flush s = fastEmit (fastSearch (insertCurrent t))
        ∧ slowIter flush s = slowEmit (slowSearch
            { insertCurrent t with
              regs := { (insertCurrent t).regs with
                prevLength := t.regs.matchLength, prevMatch := t.regs.matchStart, matchLength := 2 } })

/-- R210, R212, R213 (the distance modulo 2^16: D26, log 19): what a Fast iteration emits after its search, where `strstart`, `lookahead`
and the history (log 21) go, and that `match_length` ends 0 after a match. A span of at most `MaxLazy` bytes that leaves 3 bytes or more
is inserted, its positions after the first in order, `hash_head` taking the last link; a longer span, or one that leaves fewer than 3
bytes, changes no chain and not `hash_head`. Everything else stays, `prev_length`, `match_start` and `prev_match` among it. -/
def Obligations.FastEmitsGreedily : Prop :=
  ∀ s : State, s.regs.matchLength.toNat ≤ s.regs.lookahead.toNat →
    s.regs.strstart.toNat + s.regs.lookahead.toNat ≤ 65536 →
    (3 ≤ s.regs.matchLength.toNat →
        (fastEmit s).token
            = some (.backref s.regs.matchLength.toNat
                (sub16 s.regs.strstart.toNat s.regs.matchStart.toNat))
          ∧ (fastEmit s).ends = .cont
          ∧ (fastEmit s).state.regs.strstart.toNat = s.regs.strstart.toNat + s.regs.matchLength.toNat
          ∧ (fastEmit s).state.regs.lookahead.toNat = s.regs.lookahead.toNat - s.regs.matchLength.toNat
          ∧ (fastEmit s).state = { s with
              regs := { s.regs with
                strstart := (fastEmit s).state.regs.strstart
                lookahead := (fastEmit s).state.regs.lookahead
                hashHead := (fastEmit s).state.regs.hashHead
                matchLength := 0 }
              head := (fastEmit s).state.head
              prev := (fastEmit s).state.prev
              history := s.history + s.regs.matchLength.toNat }
          ∧ (s.regs.matchLength.toNat ≤ s.cfg.maxLazy.toNat → s.regs.matchLength.toNat + 3 ≤ s.regs.lookahead.toNat →
            MemoriesWf s → 9 ≤ s.cfg.wbits.toNat →
            Inserted s (fastEmit s).state (s.regs.strstart.toNat + 1) (s.regs.strstart.toNat + s.regs.matchLength.toNat)
              ∧ (fastEmit s).state.regs.hashHead = Memory.read (fastEmit s).state.prev
                  ((s.regs.strstart.toNat + s.regs.matchLength.toNat - 1) % 2 ^ s.cfg.wbits.toNat))
          ∧ (s.cfg.maxLazy.toNat < s.regs.matchLength.toNat
              ∨ s.regs.lookahead.toNat < s.regs.matchLength.toNat + 3 →
            (fastEmit s).state.head = s.head ∧ (fastEmit s).state.prev = s.prev
              ∧ (fastEmit s).state.regs.hashHead = s.regs.hashHead))
      ∧ (s.regs.matchLength.toNat < 3 → 0 < s.regs.lookahead.toNat →
        (fastEmit s).token = some (.lit (Memory.read s.window s.regs.strstart.toNat))
          ∧ (fastEmit s).ends = .cont
          ∧ (fastEmit s).state = { s with
              regs := { s.regs with strstart := s.regs.strstart + 1, lookahead := s.regs.lookahead - 1 }
              history := s.history + 1 })

/-- R218: a match of at most 5 bytes is dropped with Filtered, a match of exactly 3 bytes beyond distance 4096 with every strategy; no
other match is. -/
def Obligations.ShortMatchesAreTruncated : Prop :=
  ∀ s : State,
    ((s.regs.matchLength.toNat ≤ 5 ∧ s.cfg.strategy = .filtered)
        ∨ (s.regs.matchLength.toNat = 3 ∧ 4096 < sub16 s.regs.strstart.toNat s.regs.matchStart.toNat) →
      truncate s = { s with regs := { s.regs with matchLength := 2 } })
    ∧ (5 < s.regs.matchLength.toNat
        ∨ (s.cfg.strategy ≠ .filtered
          ∧ (s.regs.matchLength.toNat ≠ 3 ∨ sub16 s.regs.strstart.toNat s.regs.matchStart.toNat ≤ 4096)) →
      truncate s = s)

/-- R215, R219 (the distance modulo 2^16: D26, log 19): the previous position's match is emitted when the current one is not longer: the
token, where `strstart`, `lookahead` and the history (log 21) go, and the registers it leaves: `prev_length` 0, `match_length` 2, no
held byte, `hash_head` the link of the last position inserted, or as it was if fewer than 4 bytes of lookahead let none be. Everything
else stays but the chains, whose insertions SpanInsertionsStayInsideTheInput states. -/
def Obligations.SlowEmitsThePreviousMatch : Prop :=
  ∀ s : State, 3 ≤ s.regs.prevLength.toNat → s.regs.matchLength.toNat ≤ s.regs.prevLength.toNat →
    s.regs.prevLength.toNat ≤ s.regs.lookahead.toNat + 1 →
    s.regs.strstart.toNat + s.regs.lookahead.toNat ≤ 65536 →
    (slowEmit s).token
        = some (.backref s.regs.prevLength.toNat
            (sub16 (s.regs.strstart.toNat - 1) s.regs.prevMatch.toNat))
      ∧ (slowEmit s).ends = .cont
      ∧ (slowEmit s).state.regs.strstart.toNat = s.regs.strstart.toNat + s.regs.prevLength.toNat - 1
      ∧ (slowEmit s).state.regs.lookahead.toNat + s.regs.prevLength.toNat = s.regs.lookahead.toNat + 1
      ∧ (slowEmit s).state = { s with
          regs := { s.regs with
            strstart := (slowEmit s).state.regs.strstart
            lookahead := (slowEmit s).state.regs.lookahead
            hashHead := (slowEmit s).state.regs.hashHead
            prevLength := 0
            matchLength := 2
            matchAvailable := false }
          head := (slowEmit s).state.head
          prev := (slowEmit s).state.prev
          history := s.history + (s.regs.prevLength.toNat - 1) }
      ∧ (4 ≤ s.regs.lookahead.toNat → MemoriesWf s → 9 ≤ s.cfg.wbits.toNat →
        (slowEmit s).state.regs.hashHead = Memory.read (slowEmit s).state.prev
          ((s.regs.strstart.toNat + min (s.regs.prevLength.toNat - 2) (s.regs.lookahead.toNat - 3)) % 2 ^ s.cfg.wbits.toNat))
      ∧ (s.regs.lookahead.toNat < 4 → (slowEmit s).state.regs.hashHead = s.regs.hashHead
        ∧ (slowEmit s).state.head = s.head ∧ (slowEmit s).state.prev = s.prev)

/-- R220, R221: otherwise a held byte is emitted as a literal and the current position becomes the held one; with no byte held, nothing is
emitted. -/
def Obligations.SlowDefersALiteral : Prop :=
  ∀ s : State, s.regs.prevLength.toNat < 3 ∨ s.regs.prevLength.toNat < s.regs.matchLength.toNat →
    slowEmit s =
      ⟨{ s with
          regs := { s.regs with
            strstart := s.regs.strstart + 1, lookahead := s.regs.lookahead - 1, matchAvailable := true }
          history := s.history + 1 },
        if s.regs.matchAvailable then some (.lit (Memory.read s.window (s.regs.strstart.toNat - 1))) else none,
        .cont⟩

/-- R163, R213, R219: the span insertions of both flavours. After the match of a Slow iteration exactly the positions of its span after
`strstart` are inserted, in order, each only if its three bytes are valid (`<= max_insert`). After the match of a Fast iteration that
inserts its span, every position of it has three valid bytes. In both the chains differ from those before only in head entries that
name positions of the span whose three bytes are valid. -/
def Obligations.SpanInsertionsStayInsideTheInput : Prop :=
  ∀ s : State, MemoriesWf s → 9 ≤ s.cfg.wbits.toNat → s.regs.strstart.toNat + s.regs.lookahead.toNat ≤ 65536 →
    (3 ≤ s.regs.prevLength.toNat → s.regs.prevLength.toNat ≤ s.regs.lookahead.toNat + 1 →
      Inserted s (slowAfterMatch s) (s.regs.strstart.toNat + 1)
          (min (s.regs.strstart.toNat + s.regs.prevLength.toNat - 1) (s.regs.strstart.toNat + s.regs.lookahead.toNat - 2))
        ∧ ∀ h, Memory.read (slowAfterMatch s).head h = Memory.read s.head h
          ∨ (s.regs.strstart.toNat < (Memory.read (slowAfterMatch s).head h).toNat
            ∧ (Memory.read (slowAfterMatch s).head h).toNat + 2 ≤ s.regs.strstart.toNat + s.regs.prevLength.toNat
            ∧ (Memory.read (slowAfterMatch s).head h).toNat + 3 ≤ s.regs.strstart.toNat + s.regs.lookahead.toNat))
    ∧ (3 ≤ s.regs.matchLength.toNat → s.regs.matchLength.toNat ≤ s.regs.lookahead.toNat →
      ∀ h, Memory.read (fastAfterMatch s).head h = Memory.read s.head h
          ∨ (s.regs.strstart.toNat < (Memory.read (fastAfterMatch s).head h).toNat
            ∧ (Memory.read (fastAfterMatch s).head h).toNat + 1 ≤ s.regs.strstart.toNat + s.regs.matchLength.toNat
            ∧ (Memory.read (fastAfterMatch s).head h).toNat + 3 ≤ s.regs.strstart.toNat + s.regs.lookahead.toNat))

/-! ## RUN steps -/

/-- R201, R202: RUN_START. -/
def Obligations.RunStartAppliesTheNoProgressRule : Prop :=
  ∀ s : State, s.busy = true → s.phase = .runStart → SpecInvariants s →
    (s.session = .finished → engineStep s =
        { s with busy := false, phase := .idle, done := true, bstate := .finishDone })
      ∧ (s.session ≠ .finished → s.session ≠ .uninit → s.session ≠ .faulted →
          s.inFifo = [] → (flushCode s.cmd.flush).toNat ≤ (flushCode s.regs.lastFlush).toNat →
          s.cmd.flush ≠ .finish → engineStep s =
            { s with
              busy := false, phase := .idle, done := true, bstate := .noProgress, session := .streaming
              regs := { s.regs with lastFlush := s.cmd.flush } })
      ∧ (s.session ≠ .finished → s.session ≠ .uninit → s.session ≠ .faulted →
          s.inFifo ≠ [] ∨ (flushCode s.regs.lastFlush).toNat < (flushCode s.cmd.flush).toNat
            ∨ s.cmd.flush = .finish → engineStep s =
            { s with
              phase := .runIter
              session := if s.cmd.flush = .finish then s.session else .streaming
              regs := { s.regs with lastFlush := s.cmd.flush, hashHead := 0#16 } })

/-- R222, R223, R224: RUN_TAIL emits the byte the Slow flavour holds, if any, and goes to RUN_MARK; RUN_MARK emits the marker and
completes the RUN; Full also sets every head entry to `NIL`, ends the history (R226, log 21) and leaves the rest of the state; Finish
ends the session. -/
def Obligations.RunTailAndMarkEndTheRun : Prop :=
  ∀ s : State, s.busy = true → SpecInvariants s → inSession s = true → s.tokFifo.length < s.params.tokFifoDepth →
    (s.phase = .runTail → s.cfg.flavour = .slow → s.regs.matchAvailable = true → engineStep s =
        { s with
          phase := .runMark
          regs := { s.regs with matchAvailable := false }
          tokFifo := s.tokFifo ++ [.lit (Memory.read s.window (s.regs.strstart.toNat - 1))]
          totalTok := s.totalTok + 1 })
    ∧ (s.phase = .runTail → s.cfg.flavour ≠ .slow ∨ s.regs.matchAvailable = false →
        engineStep s = { s with phase := .runMark })
    ∧ (s.phase = .runMark → engineStep s =
        { s with
          busy := false, phase := .idle, done := true
          bstate := if s.cmd.flush = .finish then .finishDone else .blockDone
          session := if s.cmd.flush = .finish then .finished else s.session
          head := if s.cmd.flush = .fullFlush then [] else s.head
          history := if s.cmd.flush = .fullFlush then 0 else s.history
          tokFifo := s.tokFifo ++ [.mark s.cmd.flush]
          totalTok := s.totalTok + 1 })

/-- R203, R280: a RUN_ITER step performs its iteration. When it is enabled and no check fails (R250; that the checks are on the state it
leaves is DEDUCED, log 14), one that ends with NEED_MORE completes the RUN with NEED_MORE; one that breaks goes to RUN_TAIL; one that
continues stays in RUN_ITER and emits its token, exactly one but for a Slow deferral. Only flush None ends with NEED_MORE and it never
breaks, and neither emits. -/
def Obligations.RunIterFollowsTheIteration : Prop :=
  ∀ (s : State) (r : IterResult), r = flavourIter s.cmd.flush s →
    (r.ends = .needMore → s.cmd.flush = .noFlush ∧ r.token = none)
      ∧ (r.ends = .leave → s.cmd.flush ≠ .noFlush ∧ r.token = none)
      ∧ (r.ends = .cont → r.token = none → s.cfg.flavour = .slow ∧ s.regs.matchAvailable = false)
      ∧ (s.busy = true → s.phase = .runIter → s.tokFifo.length < s.params.tokFifoDepth → NothingBroken s →
        (r.ends = .needMore → engineStep s =
            { r.state with busy := false, phase := .idle, done := true, bstate := .needMore })
          ∧ (r.ends = .leave → engineStep s = { r.state with phase := .runTail })
          ∧ (r.ends = .cont → r.token = none → engineStep s = r.state)
          ∧ (∀ t, r.ends = .cont → r.token = some t → engineStep s =
              { r.state with tokFifo := s.tokFifo ++ [t], totalTok := s.totalTok + 1 })
          ∧ (r.ends = .cont → (engineStep s).phase = .runIter ∧ (engineStep s).busy = true))

/-- R283, R280: a RUN past its start does not move while the token FIFO is full, an idle or FAULTED engine never moves, and a SET_DICT waits
while the input FIFO is empty: nothing is lost and no error is raised. -/
def Obligations.StalledEngineChangesNothing : Prop :=
  ∀ s : State,
    ((s.phase = .runIter ∨ s.phase = .runTail ∨ s.phase = .runMark) →
        s.params.tokFifoDepth ≤ s.tokFifo.length → engineStep s = s)
      ∧ (s.phase = .dictPop → s.inFifo = [] → engineStep s = s)
      ∧ (s.busy = false ∨ s.phase = .idle ∨ s.phase = .faulted → engineStep s = s)

/-- R287, R30, R280, R250: the frame of an engine step. It never changes or withdraws a token: outside INIT, RESET and END it appends
at most one, and `TOTAL_TOK` counts it; it pushes no input; it writes no `INT_ENABLE`, no parameter and no read data; `CONFIG`, `PARAM0`
and `PARAM1` change only by INIT and END, and the error record only by an internal fault. -/
def Obligations.EngineStepsOnlyAppendTokens : Prop :=
  ∀ s : State,
    (s.phase ≠ .initOp → s.phase ≠ .resetOp → s.phase ≠ .endOp →
      (((engineStep s).tokFifo = s.tokFifo ∧ (engineStep s).totalTok = s.totalTok)
        ∨ ∃ t, (engineStep s).tokFifo = s.tokFifo ++ [t] ∧ (engineStep s).totalTok = s.totalTok + 1)
      ∧ ∃ n, (engineStep s).inFifo = s.inFifo.drop n)
    ∧ (engineStep s).intEnable = s.intEnable ∧ (engineStep s).readData = s.readData
    ∧ (engineStep s).params = s.params ∧ (engineStep s).schedule = s.schedule
    ∧ (s.phase ≠ .initOp → s.phase ≠ .endOp → (engineStep s).cfg = s.cfg)
    ∧ ((engineStep s).err = s.err ∧ (engineStep s).errFlag = s.errFlag ∨ (engineStep s).session = .faulted)

/-- R281: every RUN_ITER iteration that continues uses up at least one buffered byte, in every state a session can be in: a held match is at
most one longer than the lookahead. -/
def Obligations.EveryIterationUsesUpInput : Prop :=
  ∀ (flush : Flush) (s : State), 9 ≤ s.cfg.wbits.toNat → windowFits s = true →
    s.regs.matchLength.toNat ≤ 2 ∨ (s.cfg.flavour = .slow ∧ s.regs.matchLength.toNat ≤ s.regs.lookahead.toNat + 1) →
    s.regs.prevLength.toNat ≤ 2 ∨ s.cfg.flavour = .slow →
    (flavourIter flush s).ends = .cont →
    (flavourIter flush s).state.regs.lookahead.toNat + (flavourIter flush s).state.inFifo.length + 1
      ≤ s.regs.lookahead.toNat + s.inFifo.length

/-- R228, R212: a match the Fast flavour emits is true: each of its bytes equals the one at the match start, which lies `dist` positions
back by the 16-bit distance, in the window the iteration leaves; for a start before the position that is what a decoder copies. -/
def Obligations.FastMatchesReproduceTheInput : Prop :=
  ∀ (flush : Flush) (s : State) (len dist : Nat), s.regs.matchLength.toNat ≤ 2 → s.regs.prevLength.toNat = 2 →
    (fastIter flush s).token = some (.backref len dist) →
    ∃ start : Half, 3 ≤ len ∧ len ≤ 258 ∧ dist = sub16 (topFillState s).regs.strstart.toNat start.toNat
      ∧ (1 ≤ start.toNat → start.toNat < (topFillState s).regs.strstart.toNat →
          (topFillState s).regs.strstart.toNat ≤ 65536 → start.toNat + dist = (topFillState s).regs.strstart.toNat)
      ∧ ∀ k, k < len →
        Memory.read (fastIter flush s).state.window ((topFillState s).regs.strstart.toNat + k)
          = Memory.read (fastIter flush s).state.window (start.toNat + k)

/-- R228, R219, R220, R168: a match the Slow flavour holds at the end of an iteration is true, and a match an iteration emits is the
one that was held before it, with its length and its distance, also when the iteration's FILL slid the window. -/
def Obligations.SlowMatchesReproduceTheInput : Prop :=
  ∀ (flush : Flush) (s : State), 9 ≤ s.cfg.wbits.toNat → windowFits s = true →
    (3 ≤ (slowIter flush s).state.regs.matchLength.toNat → (slowIter flush s).ends = .cont →
      HeldMatchTrue (slowIter flush s).state)
    ∧ (∀ len dist, (slowIter flush s).token = some (.backref len dist) →
        len = s.regs.matchLength.toNat ∧ dist = sub16 (s.regs.strstart.toNat - 1) s.regs.matchStart.toNat)

/-- R281, R206, R201, R222, R223 (with R228): a Store RUN that proceeds, with flush other than None and room for its tokens, completes
in at most `in_count + 4` steps and emits one literal for each byte of the input FIFO, in order, then its marker. -/
def Obligations.StoreRunEncodesEveryByte : Prop :=
  ∀ s : State, s.busy = true → s.phase = .runStart → ControlOk s → SpecInvariants s → MemoriesWf s →
    s.cfg.flavour = .store → s.regs.lookahead.toNat = 0 → s.session ≠ .finished → s.cmd.flush ≠ .noFlush →
    s.inFifo ≠ [] ∨ (flushCode s.regs.lastFlush).toNat < (flushCode s.cmd.flush).toNat ∨ s.cmd.flush = .finish →
    s.tokFifo.length + s.inFifo.length + 1 ≤ s.params.tokFifoDepth →
    ∃ t, engineStep^[s.inFifo.length + 4] s = t ∧ t.busy = false ∧ t.phase = .idle ∧ t.done = true
      ∧ t.inFifo = [] ∧ t.regs.lookahead.toNat = 0
      ∧ t.tokFifo = s.tokFifo ++ s.inFifo.map .lit ++ [.mark s.cmd.flush]
      ∧ t.totalIn = s.totalIn + BitVec.ofNat 32 s.inFifo.length
      ∧ t.totalTok = s.totalTok + BitVec.ofNat 32 (s.inFifo.length + 1)
      ∧ t.session = (if s.cmd.flush = .finish then .finished else .streaming)
      ∧ t.bstate = (if s.cmd.flush = .finish then .finishDone else .blockDone)
      ∧ t.err = s.err ∧ t.errFlag = s.errFlag

/-! ## Internal fault -/

/-- R250, R256, R54, R226: a step that would break an invariant or a token bound performs none of its effects; the record takes code 7 and the
smallest failing number, and the engine is FAULTED and idle. The bounds are all three of R226: length, distance, and no byte before the
stream, the dictionary or the last Full flush (the count that this is checked against is log 21). -/
def Obligations.BrokenInvariantRaisesInternalFault : Prop :=
  ∀ (s u : State), enabled s = true → u = emitOpt (attempt s).token (attempt s).state → inSession u = true →
    ∀ n : Nat,
      (n = 1 ∧ windowFits u = false)
        ∨ (n = 2 ∧ windowFits u = true ∧ headsInserted u = false)
        ∨ (n = 3 ∧ windowFits u = true ∧ headsInserted u = true ∧ heldByteOk u = false)
        ∨ (n = 4 ∧ windowFits u = true ∧ headsInserted u = true ∧ heldByteOk u = true ∧ lengthsOk u = false)
        ∨ (n = 5 ∧ windowFits u = true ∧ headsInserted u = true ∧ heldByteOk u = true ∧ lengthsOk u = true
            ∧ fifosFit u = false)
        ∨ (n = 6 ∧ windowFits u = true ∧ headsInserted u = true ∧ heldByteOk u = true ∧ lengthsOk u = true
            ∧ fifosFit u = true
            ∧ ∃ t, (attempt s).token = some t ∧ (tokenInBounds u.cfg t = false ∨ tokenInHistory u.history t = false)) →
      engineStep s =
        { s with
          err := ⟨.internal, decide (s.err.code ≠ .none), false, 0, 0xFFF, BitVec.ofNat 32 n⟩
          errFlag := true
          session := .faulted
          phase := .faulted
          busy := false }

/-- R250: what FAULTED keeps: no step but hardware reset leaves it, and the frozen state stays for inspection. -/
def Obligations.FaultedIsLeftOnlyByHardwareReset : Prop :=
  ∀ s t : State, Frozen s → step s = .next t → (∀ rest, s.schedule ≠ .hardReset :: rest) →
    Frozen t ∧ t.regs = s.regs ∧ t.cfg = s.cfg ∧ t.err.info = s.err.info ∧ t.inFifo = s.inFifo
      ∧ (∀ a, Memory.read t.window a = Memory.read s.window a)
      ∧ (∀ h, Memory.read t.head h = Memory.read s.head h) ∧ (∀ p, Memory.read t.prev p = Memory.read s.prev p)
      ∧ (t.tokFifo = s.tokFifo ∨ t.tokFifo = s.tokFifo.tail)

/-! ## Invariants -/

/-- At hardware reset, for any legal parameters, every invariant below holds (R53, R270; the memories list nothing, log 7). -/
def Obligations.ResetMeetsTheInvariants : Prop :=
  ∀ p : Params, p.ok = true →
    MemoriesWf (State.resetWith p) ∧ ControlOk (State.resetWith p) ∧ SpecInvariants (State.resetWith p)
      ∧ TokenFifoOk (State.resetWith p)

/-- Every step keeps the canonical form of the private memories. -/
def Obligations.StepsKeepMemoriesCanonical : Prop :=
  ∀ s t : State, MemoriesWf s → step s = .next t → MemoriesWf t

/-- R25, R50, R121, R135, R222, R223, R250: every step keeps the control state legal. -/
def Obligations.StepsKeepTheControlStateLegal : Prop :=
  ∀ s t : State, ControlOk s → step s = .next t → ControlOk t

/-- R54: every step keeps the spec's invariants. -/
def Obligations.StepsKeepTheSpecInvariants : Prop :=
  ∀ s t : State, ControlOk s → SpecInvariants s → step s = .next t → SpecInvariants t

/-- R226, R93, R95: every step keeps the tokens in the FIFO in bounds, and no marker with code 0 is ever in it. -/
def Obligations.StepsKeepTokensInBounds : Prop :=
  ∀ s t : State, ControlOk s → TokenFifoOk s → step s = .next t → TokenFifoOk t

/-- R250: no sequence of host accesses, engine steps and hardware resets reaches an internal fault, at any parameters and with any draws.
It rests on the distance modulo 2^16 (DEDUCED, log 19): with the plain minus of R210 and R219 a fault is reachable. -/
def Obligations.NoExecutionReachesAnInternalFault : Prop :=
  ∀ (p : Params) (s : State), p.ok = true → Reachable p s → Safe s
end

