-- ==== Sys2Proof/Laws/Memory.lean ====
section
/-! SUPPORT. What the memory operations do: reads after writes, and the canonical form that every operation keeps. -/

namespace Sys2Proof.Machine.Memory

variable {w : Nat}

/-! ## The canonical form -/

theorem wfFrom_mono {lo lo' : Nat} (h : lo' ≤ lo) : ∀ {m : Cells w}, wfFrom lo m = true → wfFrom lo' m = true
  | [], _ => rfl
  | (k, v) :: rest, hm => by
    simp only [wfFrom, Bool.and_eq_true, decide_eq_true_eq] at hm ⊢
    exact ⟨⟨by omega, hm.1.2⟩, hm.2⟩

@[simp] theorem wf_nil : wf ([] : Cells w) = true := rfl

theorem read_of_wfFrom {a lo : Nat} (h : a < lo) : ∀ {m : Cells w}, wfFrom lo m = true → read m a = 0#w
  | [], _ => rfl
  | (k, v) :: rest, hm => by
    simp only [wfFrom, Bool.and_eq_true, decide_eq_true_eq] at hm
    have hk : a ≠ k := by omega
    simp only [read, if_neg hk]
    exact read_of_wfFrom (by omega) hm.2

theorem wfFrom_write {lo a : Nat} (v : BitVec w) (ha : lo ≤ a) :
    ∀ {m : Cells w}, wfFrom lo m = true → wfFrom lo (write m a v) = true
  | [], _ => by
    by_cases hv : v = 0#w
    · simp [write, hv, wfFrom]
    · simp [write, hv, wfFrom, ha]
  | (k, x) :: rest, hm => by
    have hm' := hm
    simp only [wfFrom, Bool.and_eq_true, decide_eq_true_eq] at hm'
    obtain ⟨⟨hk, hx⟩, hrest⟩ := hm'
    unfold write
    split_ifs with h1 h2 h3 h4
    · exact hm
    · simp only [wfFrom, Bool.and_eq_true, decide_eq_true_eq]
      exact ⟨⟨ha, h2⟩, ⟨⟨by omega, hx⟩, hrest⟩⟩
    · exact wfFrom_mono (by omega) hrest
    · simp only [wfFrom, Bool.and_eq_true, decide_eq_true_eq]
      subst h3
      exact ⟨⟨ha, h4⟩, hrest⟩
    · simp only [wfFrom, Bool.and_eq_true, decide_eq_true_eq]
      exact ⟨⟨hk, hx⟩, wfFrom_write v (by omega) hrest⟩

/-- A write keeps the canonical form. -/
theorem wf_write {m : Cells w} (a : Nat) (v : BitVec w) (h : wf m = true) : wf (write m a v) = true :=
  wfFrom_write v (Nat.zero_le _) h

theorem wf_writeList : ∀ (l : List (BitVec w)) {m : Cells w} (base : Nat), wf m = true →
    wf (writeList m base l) = true
  | [], _, _, h => h
  | v :: rest, _, base, h => wf_writeList rest (base + 1) (wf_write base v h)

theorem wfFrom_ofListFrom : ∀ (l : List (BitVec w)) (base : Nat), wfFrom base (ofListFrom base l) = true
  | [], _ => rfl
  | v :: rest, base => by
    have ih := wfFrom_ofListFrom rest (base + 1)
    by_cases hv : v = 0#w
    · simp only [ofListFrom, if_pos hv]; exact wfFrom_mono (by omega) ih
    · simp only [ofListFrom, if_neg hv, wfFrom, Bool.and_eq_true, decide_eq_true_eq]
      exact ⟨⟨Nat.le_refl _, hv⟩, ih⟩

theorem wf_ofList (l : List (BitVec w)) : wf (ofList l) = true := wfFrom_ofListFrom l 0

theorem wf_ofFn (n : Nat) (f : Nat → BitVec w) : wf (ofFn n f) = true := wf_ofList _

/-! ## Reads -/

/-- A write leaves every other index alone. -/
theorem read_write_other {a b : Nat} (v : BitVec w) (h : b ≠ a) :
    ∀ (m : Cells w), read (write m a v) b = read m b
  | [] => by by_cases hv : v = 0#w <;> simp [write, hv, read, h]
  | (k, x) :: rest => by
    unfold write
    split_ifs with h1 h2 h3 h4
    · rfl
    · simp [read, h]
    · subst h3; simp [read, h]
    · subst h3; simp [read, h]
    · by_cases hb : b = k
      · simp [read, hb]
      · simp only [read, if_neg hb]; exact read_write_other v h rest

theorem read_write_same_from {lo a : Nat} (v : BitVec w) :
    ∀ {m : Cells w}, wfFrom lo m = true → read (write m a v) a = v
  | [], _ => by by_cases hv : v = 0#w <;> simp [write, hv, read]
  | (k, x) :: rest, hm => by
    have hm' := hm
    simp only [wfFrom, Bool.and_eq_true, decide_eq_true_eq] at hm'
    obtain ⟨⟨hk, hx⟩, hrest⟩ := hm'
    unfold write
    split_ifs with h1 h2 h3 h4
    · have hak : a ≠ k := by omega
      simp only [read, if_neg hak, h2]
      exact read_of_wfFrom (by omega) hrest
    · simp [read]
    · subst h3; rw [h4]; exact read_of_wfFrom (by omega) hrest
    · simp [read]
    · simp only [read, if_neg h3]; exact read_write_same_from v hrest

/-- A read after a write to the same index gives the value written. -/
theorem read_write_same {m : Cells w} (a : Nat) (v : BitVec w) (h : wf m = true) : read (write m a v) a = v :=
  read_write_same_from v h

theorem read_write {m : Cells w} (a b : Nat) (v : BitVec w) (h : wf m = true) :
    read (write m a v) b = if b = a then v else read m b := by
  by_cases hb : b = a
  · subst hb; simp [read_write_same, h]
  · simp [hb, read_write_other v hb]

/-- The indexes of a list write read the list, every other index reads as before. -/
theorem read_writeList : ∀ (l : List (BitVec w)) {m : Cells w} (base b : Nat), wf m = true →
    read (writeList m base l) b = if base ≤ b ∧ b < base + l.length then l.getD (b - base) 0#w else read m b
  | [], m, base, b, _ => by
    have : ¬(base ≤ b ∧ b < base + ([] : List (BitVec w)).length) := by simp
    rw [if_neg this]; rfl
  | v :: rest, m, base, b, h => by
    have hl : (v :: rest).length = rest.length + 1 := rfl
    rw [writeList, read_writeList rest (base + 1) b (wf_write base v h), read_write base b v h]
    rcases Nat.lt_trichotomy b base with hlt | heq | hgt
    · have h1 : ¬(base + 1 ≤ b ∧ b < base + 1 + rest.length) := by omega
      have h2 : ¬(base ≤ b ∧ b < base + (v :: rest).length) := by omega
      rw [if_neg h1, if_neg h2, if_neg (by omega)]
    · subst heq
      rw [if_neg (by omega), if_pos rfl, if_pos (by omega)]
      simp
    · by_cases hb : b < base + 1 + rest.length
      · rw [if_pos (by omega), if_pos (by omega)]
        obtain ⟨d, rfl⟩ : ∃ d, b = base + 1 + d := ⟨b - (base + 1), by omega⟩
        have e1 : base + 1 + d - (base + 1) = d := by omega
        have e2 : base + 1 + d - base = d + 1 := by omega
        rw [e1, e2]; simp
      · rw [if_neg (by omega), if_neg (by omega), if_neg (by omega)]

theorem read_ofListFrom : ∀ (l : List (BitVec w)) (base b : Nat), base ≤ b →
    read (ofListFrom base l) b = l.getD (b - base) 0#w
  | [], _, _, _ => by simp [ofListFrom, read]
  | v :: rest, base, b, h => by
    by_cases hb : b = base
    · subst hb
      by_cases hv : v = 0#w
      · simp only [ofListFrom, if_pos hv]
        rw [read_of_wfFrom (Nat.lt_succ_self b) (wfFrom_ofListFrom rest (b + 1))]
        simp [hv]
      · simp [ofListFrom, hv, read]
    · obtain ⟨d, rfl⟩ : ∃ d, b = base + 1 + d := ⟨b - (base + 1), by omega⟩
      have e2 : base + 1 + d - base = d + 1 := by omega
      have ih := read_ofListFrom rest (base + 1) (base + 1 + d) (by omega)
      have e1 : base + 1 + d - (base + 1) = d := by omega
      rw [e1] at ih
      by_cases hv : v = 0#w
      · simp only [ofListFrom, if_pos hv, ih, e2]; simp
      · simp only [ofListFrom, if_neg hv, read, if_neg hb, ih, e2]; simp

theorem read_ofList (l : List (BitVec w)) (b : Nat) : read (ofList l) b = l.getD b 0#w := by
  simpa [ofList] using read_ofListFrom l 0 b (Nat.zero_le b)

theorem read_ofFn (n : Nat) (f : Nat → BitVec w) (b : Nat) : read (ofFn n f) b = if b < n then f b else 0#w := by
  rw [ofFn, read_ofList]
  by_cases h : b < n <;> simp [h, List.getD_eq_getElem?_getD]

/-! ## SLIDE -/

theorem wfFrom_rebase (n : Nat) : ∀ {lo : Nat} {m : Cells 16}, wfFrom lo m = true → wfFrom lo (rebase n m) = true
  | _, [], _ => rfl
  | lo, (k, v) :: rest, hm => by
    simp only [wfFrom, Bool.and_eq_true, decide_eq_true_eq] at hm
    have ih := wfFrom_rebase n hm.2
    by_cases hv : rebasePos n v = 0#16
    · have e : rebase n ((k, v) :: rest) = rebase n rest := by simp [rebase, hv]
      rw [e]; exact wfFrom_mono (by omega) ih
    · have e : rebase n ((k, v) :: rest) = (k, rebasePos n v) :: rebase n rest := by simp [rebase, hv]
      rw [e]
      simp only [wfFrom, Bool.and_eq_true, decide_eq_true_eq]
      exact ⟨⟨hm.1.1, hv⟩, ih⟩

theorem wf_rebase (n : Nat) {m : Cells 16} (h : wf m = true) : wf (rebase n m) = true := wfFrom_rebase n h

theorem rebasePos_zero {n : Nat} : rebasePos n 0#16 = 0#16 := by
  unfold rebasePos; split_ifs <;> simp

/-- Every entry of a rebased table is the rebased entry. -/
theorem read_rebase_from (n : Nat) (a : Nat) : ∀ {lo : Nat} {m : Cells 16}, wfFrom lo m = true →
    read (rebase n m) a = rebasePos n (read m a)
  | _, [], _ => by simp [rebase, read, rebasePos_zero]
  | lo, (k, v) :: rest, hm => by
    simp only [wfFrom, Bool.and_eq_true, decide_eq_true_eq] at hm
    have ih := read_rebase_from n a hm.2
    by_cases hv : rebasePos n v = 0#16
    · have e : rebase n ((k, v) :: rest) = rebase n rest := by simp [rebase, hv]
      rw [e]
      by_cases ha : a = k
      · rw [read_of_wfFrom (by omega) (wfFrom_rebase n hm.2)]; simp [read, ha, hv]
      · simp only [read, if_neg ha, ih]
    · have e : rebase n ((k, v) :: rest) = (k, rebasePos n v) :: rebase n rest := by simp [rebase, hv]
      rw [e]
      by_cases ha : a = k
      · simp [read, ha]
      · simp only [read, if_neg ha, ih]

theorem read_rebase (n a : Nat) {m : Cells 16} (h : wf m = true) :
    read (rebase n m) a = rebasePos n (read m a) := read_rebase_from n a h

theorem lowered_cons (n : Nat) (e : Nat × BitVec w) (rest : Cells w) :
    lowered n (e :: rest) = if n ≤ e.1 ∧ e.1 < 2 * n then (e.1 - n, e.2) :: lowered n rest else lowered n rest := by
  unfold lowered; by_cases h : n ≤ e.1 ∧ e.1 < 2 * n <;> simp [h]

theorem wfFrom_copyDown (n : Nat) : ∀ {lo : Nat} {m : Cells w}, wfFrom lo m = true →
    wfFrom (lo - n) (copyDown n m) = true := by
  have up : ∀ {lo : Nat} {m : Cells w}, wfFrom lo m = true →
      wfFrom (max lo n) (m.filter fun e => decide (n ≤ e.1)) = true := by
    intro lo m
    induction m generalizing lo with
    | nil => intro _; rfl
    | cons e rest ih =>
      intro hm
      simp only [wfFrom, Bool.and_eq_true, decide_eq_true_eq] at hm
      have ih' := ih hm.2
      by_cases h : n ≤ e.1
      · simp only [List.filter_cons, h, decide_true, if_true, wfFrom, Bool.and_eq_true, decide_eq_true_eq]
        refine ⟨⟨by omega, hm.1.2⟩, wfFrom_mono ?_ ih'⟩
        omega
      · simp only [List.filter_cons, h, decide_false, Bool.false_eq_true, if_false]
        exact wfFrom_mono (by omega) ih'
  have down : ∀ {lo : Nat} {m : Cells w} (t : Cells w), wfFrom lo m = true → wfFrom n t = true →
      wfFrom (min (lo - n) n) (lowered n m ++ t) = true := by
    intro lo m t
    induction m generalizing lo with
    | nil => intro _ ht; exact wfFrom_mono (by omega) ht
    | cons e rest ih =>
      intro hm ht
      simp only [wfFrom, Bool.and_eq_true, decide_eq_true_eq] at hm
      have ih' := ih hm.2 ht
      rw [lowered_cons]
      split_ifs with h
      · simp only [List.cons_append, wfFrom, Bool.and_eq_true, decide_eq_true_eq]
        refine ⟨⟨by omega, hm.1.2⟩, wfFrom_mono ?_ ih'⟩
        omega
      · exact wfFrom_mono (by omega) ih'
  intro lo m hm
  by_cases h : lo - n ≤ n
  · have := down (m.filter fun e => decide (n ≤ e.1)) hm (wfFrom_mono (by omega) (up hm))
    rw [Nat.min_eq_left h] at this
    exact this
  · have hnone : ∀ {l : Nat} {m : Cells w}, 2 * n ≤ l → wfFrom l m = true → lowered n m = [] := by
      intro l m hl
      induction m generalizing l with
      | nil => intro _; rfl
      | cons e rest ih =>
        intro hm
        simp only [wfFrom, Bool.and_eq_true, decide_eq_true_eq] at hm
        rw [lowered_cons, if_neg (by omega)]
        exact ih (by omega) hm.2
    unfold copyDown
    rw [hnone (by omega) hm, List.nil_append]
    exact wfFrom_mono (by omega) (up hm)

theorem wf_copyDown (n : Nat) {m : Cells w} (h : wf m = true) : wf (copyDown n m) = true := by
  have := wfFrom_copyDown n h
  simpa [wf] using this

theorem read_append (l t : Cells w) (a : Nat) (h : ∀ e ∈ l, e.1 ≠ a) : read (l ++ t) a = read t a := by
  induction l with
  | nil => rfl
  | cons e rest ih =>
    have hne : a ≠ e.1 := fun he => h e (by simp) he.symm
    rw [List.cons_append, read, if_neg hne]
    exact ih fun x hx => h x (by simp [hx])

theorem read_filter_ge (n a : Nat) (h : n ≤ a) : ∀ (m : Cells w),
    read (m.filter fun e => decide (n ≤ e.1)) a = read m a
  | [] => rfl
  | (k, v) :: rest => by
    have ih := read_filter_ge n a h rest
    by_cases hk : n ≤ k
    · simp only [List.filter_cons, hk, decide_true, if_true, read, ih]
    · have hak : a ≠ k := by omega
      simp only [List.filter_cons, hk, decide_false, Bool.false_eq_true, if_false, read, if_neg hak, ih]

theorem read_filter_lt (n a : Nat) (h : a < n) : ∀ (m : Cells w),
    read (m.filter fun e => decide (n ≤ e.1)) a = 0#w
  | [] => rfl
  | (k, v) :: rest => by
    have ih := read_filter_lt n a h rest
    by_cases hk : n ≤ k
    · have hak : a ≠ k := by omega
      simp only [List.filter_cons, hk, decide_true, if_true, read, if_neg hak, ih]
    · simp only [List.filter_cons, hk, decide_false, Bool.false_eq_true, if_false, ih]

theorem read_lowered_append (n a : Nat) (h : a < n) (t : Cells w) (ht : read t a = 0#w) : ∀ (m : Cells w),
    read (lowered n m ++ t) a = read m (a + n)
  | [] => ht
  | (k, v) :: rest => by
    have ih := read_lowered_append n a h t ht rest
    rw [lowered_cons]
    by_cases hk : n ≤ k ∧ k < 2 * n
    · rw [if_pos hk, List.cons_append, read, read]
      by_cases he : a + n = k
      · rw [if_pos (show a = k - n by omega), if_pos he]
      · rw [if_neg (show ¬ a = k - n by omega), if_neg he]; exact ih
    · rw [if_neg hk, read, if_neg (show ¬ a + n = k by omega)]; exact ih

/-- R167, the window: what the copied memory reads. -/
theorem read_copyDown (n a : Nat) (m : Cells w) :
    read (copyDown n m) a = if a < n then read m (a + n) else read m a := by
  unfold copyDown
  by_cases h : a < n
  · rw [if_pos h]
    exact read_lowered_append n a h _ (read_filter_lt n a h m) m
  · rw [if_neg h, read_append, read_filter_ge n a (by omega)]
    intro e he
    simp only [lowered, List.mem_filterMap] at he
    obtain ⟨x, _, hx⟩ := he
    split_ifs at hx with hc
    cases hx
    simp only
    omega

end Sys2Proof.Machine.Memory
end

