-- ==== Sys2Proof/Laws/State.lean ====
section
/-! SUPPORT. What every update of the state gives in every field: one lemma per field per update, true by rfl. -/

namespace Sys2Proof.Machine

variable (s : State)

/-! ### usageError -/

@[simp] theorem usageError_busy (k : ErrKind) (i : Word) (w : Bool) (z : Size) (o : BitVec 12) :
    (usageError k i w z o s).busy =
      s.busy := rfl
@[simp] theorem usageError_bstate (k : ErrKind) (i : Word) (w : Bool) (z : Size) (o : BitVec 12) :
    (usageError k i w z o s).bstate =
      s.bstate := rfl
@[simp] theorem usageError_session (k : ErrKind) (i : Word) (w : Bool) (z : Size) (o : BitVec 12) :
    (usageError k i w z o s).session =
      s.session := rfl
@[simp] theorem usageError_dictLoaded (k : ErrKind) (i : Word) (w : Bool) (z : Size) (o : BitVec 12) :
    (usageError k i w z o s).dictLoaded =
      s.dictLoaded := rfl
@[simp] theorem usageError_phase (k : ErrKind) (i : Word) (w : Bool) (z : Size) (o : BitVec 12) :
    (usageError k i w z o s).phase =
      s.phase := rfl
@[simp] theorem usageError_cfg (k : ErrKind) (i : Word) (w : Bool) (z : Size) (o : BitVec 12) :
    (usageError k i w z o s).cfg =
      s.cfg := rfl
@[simp] theorem usageError_regs (k : ErrKind) (i : Word) (w : Bool) (z : Size) (o : BitVec 12) :
    (usageError k i w z o s).regs =
      s.regs := rfl
@[simp] theorem usageError_cmd (k : ErrKind) (i : Word) (w : Bool) (z : Size) (o : BitVec 12) :
    (usageError k i w z o s).cmd =
      s.cmd := rfl
@[simp] theorem usageError_err (k : ErrKind) (i : Word) (w : Bool) (z : Size) (o : BitVec 12) :
    (usageError k i w z o s).err =
      recordUsage s.err k i w z o := rfl
@[simp] theorem usageError_done (k : ErrKind) (i : Word) (w : Bool) (z : Size) (o : BitVec 12) :
    (usageError k i w z o s).done =
      s.done := rfl
@[simp] theorem usageError_errFlag (k : ErrKind) (i : Word) (w : Bool) (z : Size) (o : BitVec 12) :
    (usageError k i w z o s).errFlag =
      true := rfl
@[simp] theorem usageError_intEnable (k : ErrKind) (i : Word) (w : Bool) (z : Size) (o : BitVec 12) :
    (usageError k i w z o s).intEnable =
      s.intEnable := rfl
@[simp] theorem usageError_totalIn (k : ErrKind) (i : Word) (w : Bool) (z : Size) (o : BitVec 12) :
    (usageError k i w z o s).totalIn =
      s.totalIn := rfl
@[simp] theorem usageError_totalTok (k : ErrKind) (i : Word) (w : Bool) (z : Size) (o : BitVec 12) :
    (usageError k i w z o s).totalTok =
      s.totalTok := rfl
@[simp] theorem usageError_history (k : ErrKind) (i : Word) (w : Bool) (z : Size) (o : BitVec 12) :
    (usageError k i w z o s).history =
      s.history := rfl
@[simp] theorem usageError_inFifo (k : ErrKind) (i : Word) (w : Bool) (z : Size) (o : BitVec 12) :
    (usageError k i w z o s).inFifo =
      s.inFifo := rfl
@[simp] theorem usageError_tokFifo (k : ErrKind) (i : Word) (w : Bool) (z : Size) (o : BitVec 12) :
    (usageError k i w z o s).tokFifo =
      s.tokFifo := rfl
@[simp] theorem usageError_window (k : ErrKind) (i : Word) (w : Bool) (z : Size) (o : BitVec 12) :
    (usageError k i w z o s).window =
      s.window := rfl
@[simp] theorem usageError_head (k : ErrKind) (i : Word) (w : Bool) (z : Size) (o : BitVec 12) :
    (usageError k i w z o s).head =
      s.head := rfl
@[simp] theorem usageError_prev (k : ErrKind) (i : Word) (w : Bool) (z : Size) (o : BitVec 12) :
    (usageError k i w z o s).prev =
      s.prev := rfl
@[simp] theorem usageError_params (k : ErrKind) (i : Word) (w : Bool) (z : Size) (o : BitVec 12) :
    (usageError k i w z o s).params =
      s.params := rfl
@[simp] theorem usageError_schedule (k : ErrKind) (i : Word) (w : Bool) (z : Size) (o : BitVec 12) :
    (usageError k i w z o s).schedule =
      s.schedule := rfl
@[simp] theorem usageError_readData (k : ErrKind) (i : Word) (w : Bool) (z : Size) (o : BitVec 12) :
    (usageError k i w z o s).readData =
      if w then s.readData else 0 := rfl
@[simp] theorem usageError_draws (k : ErrKind) (i : Word) (w : Bool) (z : Size) (o : BitVec 12) :
    (usageError k i w z o s).draws =
      s.draws := rfl
@[simp] theorem usageError_drawIndex (k : ErrKind) (i : Word) (w : Bool) (z : Size) (o : BitVec 12) :
    (usageError k i w z o s).drawIndex =
      s.drawIndex := rfl

/-! ### commandError -/

@[simp] theorem commandError_busy (k : ErrKind) (v : Word) : (commandError k v s).busy = s.busy := rfl
@[simp] theorem commandError_bstate (k : ErrKind) (v : Word) : (commandError k v s).bstate = s.bstate := rfl
@[simp] theorem commandError_session (k : ErrKind) (v : Word) :
    (commandError k v s).session =
      s.session := rfl
@[simp] theorem commandError_dictLoaded (k : ErrKind) (v : Word) :
    (commandError k v s).dictLoaded =
      s.dictLoaded := rfl
@[simp] theorem commandError_phase (k : ErrKind) (v : Word) : (commandError k v s).phase = s.phase := rfl
@[simp] theorem commandError_cfg (k : ErrKind) (v : Word) : (commandError k v s).cfg = s.cfg := rfl
@[simp] theorem commandError_regs (k : ErrKind) (v : Word) : (commandError k v s).regs = s.regs := rfl
@[simp] theorem commandError_cmd (k : ErrKind) (v : Word) : (commandError k v s).cmd = s.cmd := rfl
@[simp] theorem commandError_err (k : ErrKind) (v : Word) :
    (commandError k v s).err =
      recordUsage s.err k v true .word 0x008 := rfl
@[simp] theorem commandError_done (k : ErrKind) (v : Word) : (commandError k v s).done = s.done := rfl
@[simp] theorem commandError_errFlag (k : ErrKind) (v : Word) : (commandError k v s).errFlag = true := rfl
@[simp] theorem commandError_intEnable (k : ErrKind) (v : Word) :
    (commandError k v s).intEnable =
      s.intEnable := rfl
@[simp] theorem commandError_totalIn (k : ErrKind) (v : Word) :
    (commandError k v s).totalIn =
      s.totalIn := rfl
@[simp] theorem commandError_totalTok (k : ErrKind) (v : Word) :
    (commandError k v s).totalTok =
      s.totalTok := rfl
@[simp] theorem commandError_history (k : ErrKind) (v : Word) :
    (commandError k v s).history =
      s.history := rfl
@[simp] theorem commandError_inFifo (k : ErrKind) (v : Word) : (commandError k v s).inFifo = s.inFifo := rfl
@[simp] theorem commandError_tokFifo (k : ErrKind) (v : Word) :
    (commandError k v s).tokFifo =
      s.tokFifo := rfl
@[simp] theorem commandError_window (k : ErrKind) (v : Word) : (commandError k v s).window = s.window := rfl
@[simp] theorem commandError_head (k : ErrKind) (v : Word) : (commandError k v s).head = s.head := rfl
@[simp] theorem commandError_prev (k : ErrKind) (v : Word) : (commandError k v s).prev = s.prev := rfl
@[simp] theorem commandError_params (k : ErrKind) (v : Word) : (commandError k v s).params = s.params := rfl
@[simp] theorem commandError_schedule (k : ErrKind) (v : Word) :
    (commandError k v s).schedule =
      s.schedule := rfl
@[simp] theorem commandError_readData (k : ErrKind) (v : Word) :
    (commandError k v s).readData =
      s.readData := rfl
@[simp] theorem commandError_draws (k : ErrKind) (v : Word) : (commandError k v s).draws = s.draws := rfl
@[simp] theorem commandError_drawIndex (k : ErrKind) (v : Word) :
    (commandError k v s).drawIndex =
      s.drawIndex := rfl

/-! ### pushError -/

@[simp] theorem pushError_busy (k : ErrKind) (v : Word) : (pushError k v s).busy = s.busy := rfl
@[simp] theorem pushError_bstate (k : ErrKind) (v : Word) : (pushError k v s).bstate = s.bstate := rfl
@[simp] theorem pushError_session (k : ErrKind) (v : Word) : (pushError k v s).session = s.session := rfl
@[simp] theorem pushError_dictLoaded (k : ErrKind) (v : Word) :
    (pushError k v s).dictLoaded =
      s.dictLoaded := rfl
@[simp] theorem pushError_phase (k : ErrKind) (v : Word) : (pushError k v s).phase = s.phase := rfl
@[simp] theorem pushError_cfg (k : ErrKind) (v : Word) : (pushError k v s).cfg = s.cfg := rfl
@[simp] theorem pushError_regs (k : ErrKind) (v : Word) : (pushError k v s).regs = s.regs := rfl
@[simp] theorem pushError_cmd (k : ErrKind) (v : Word) : (pushError k v s).cmd = s.cmd := rfl
@[simp] theorem pushError_err (k : ErrKind) (v : Word) :
    (pushError k v s).err =
      recordUsage s.err k v true .word 0x01C := rfl
@[simp] theorem pushError_done (k : ErrKind) (v : Word) : (pushError k v s).done = s.done := rfl
@[simp] theorem pushError_errFlag (k : ErrKind) (v : Word) : (pushError k v s).errFlag = true := rfl
@[simp] theorem pushError_intEnable (k : ErrKind) (v : Word) :
    (pushError k v s).intEnable =
      s.intEnable := rfl
@[simp] theorem pushError_totalIn (k : ErrKind) (v : Word) : (pushError k v s).totalIn = s.totalIn := rfl
@[simp] theorem pushError_totalTok (k : ErrKind) (v : Word) : (pushError k v s).totalTok = s.totalTok := rfl
@[simp] theorem pushError_history (k : ErrKind) (v : Word) : (pushError k v s).history = s.history := rfl
@[simp] theorem pushError_inFifo (k : ErrKind) (v : Word) : (pushError k v s).inFifo = s.inFifo := rfl
@[simp] theorem pushError_tokFifo (k : ErrKind) (v : Word) : (pushError k v s).tokFifo = s.tokFifo := rfl
@[simp] theorem pushError_window (k : ErrKind) (v : Word) : (pushError k v s).window = s.window := rfl
@[simp] theorem pushError_head (k : ErrKind) (v : Word) : (pushError k v s).head = s.head := rfl
@[simp] theorem pushError_prev (k : ErrKind) (v : Word) : (pushError k v s).prev = s.prev := rfl
@[simp] theorem pushError_params (k : ErrKind) (v : Word) : (pushError k v s).params = s.params := rfl
@[simp] theorem pushError_schedule (k : ErrKind) (v : Word) : (pushError k v s).schedule = s.schedule := rfl
@[simp] theorem pushError_readData (k : ErrKind) (v : Word) : (pushError k v s).readData = s.readData := rfl
@[simp] theorem pushError_draws (k : ErrKind) (v : Word) : (pushError k v s).draws = s.draws := rfl
@[simp] theorem pushError_drawIndex (k : ErrKind) (v : Word) :
    (pushError k v s).drawIndex =
      s.drawIndex := rfl

/-! ### internalFault -/

@[simp] theorem internalFault_busy (n : Nat) : (internalFault n s).busy = false := rfl
@[simp] theorem internalFault_bstate (n : Nat) : (internalFault n s).bstate = s.bstate := rfl
@[simp] theorem internalFault_session (n : Nat) : (internalFault n s).session = .faulted := rfl
@[simp] theorem internalFault_dictLoaded (n : Nat) : (internalFault n s).dictLoaded = s.dictLoaded := rfl
@[simp] theorem internalFault_phase (n : Nat) : (internalFault n s).phase = .faulted := rfl
@[simp] theorem internalFault_cfg (n : Nat) : (internalFault n s).cfg = s.cfg := rfl
@[simp] theorem internalFault_regs (n : Nat) : (internalFault n s).regs = s.regs := rfl
@[simp] theorem internalFault_cmd (n : Nat) : (internalFault n s).cmd = s.cmd := rfl
@[simp] theorem internalFault_err (n : Nat) :
    (internalFault n s).err =
      ⟨.internal, decide (s.err.code ≠ .none), false, 0, 0xFFF, BitVec.ofNat 32 n⟩ := rfl
@[simp] theorem internalFault_done (n : Nat) : (internalFault n s).done = s.done := rfl
@[simp] theorem internalFault_errFlag (n : Nat) : (internalFault n s).errFlag = true := rfl
@[simp] theorem internalFault_intEnable (n : Nat) : (internalFault n s).intEnable = s.intEnable := rfl
@[simp] theorem internalFault_totalIn (n : Nat) : (internalFault n s).totalIn = s.totalIn := rfl
@[simp] theorem internalFault_totalTok (n : Nat) : (internalFault n s).totalTok = s.totalTok := rfl
@[simp] theorem internalFault_history (n : Nat) : (internalFault n s).history = s.history := rfl
@[simp] theorem internalFault_inFifo (n : Nat) : (internalFault n s).inFifo = s.inFifo := rfl
@[simp] theorem internalFault_tokFifo (n : Nat) : (internalFault n s).tokFifo = s.tokFifo := rfl
@[simp] theorem internalFault_window (n : Nat) : (internalFault n s).window = s.window := rfl
@[simp] theorem internalFault_head (n : Nat) : (internalFault n s).head = s.head := rfl
@[simp] theorem internalFault_prev (n : Nat) : (internalFault n s).prev = s.prev := rfl
@[simp] theorem internalFault_params (n : Nat) : (internalFault n s).params = s.params := rfl
@[simp] theorem internalFault_schedule (n : Nat) : (internalFault n s).schedule = s.schedule := rfl
@[simp] theorem internalFault_readData (n : Nat) : (internalFault n s).readData = s.readData := rfl
@[simp] theorem internalFault_draws (n : Nat) : (internalFault n s).draws = s.draws := rfl
@[simp] theorem internalFault_drawIndex (n : Nat) : (internalFault n s).drawIndex = s.drawIndex := rfl

/-! ### acknowledge -/

@[simp] theorem acknowledge_busy (v : Word) : (acknowledge v s).busy = s.busy := rfl
@[simp] theorem acknowledge_bstate (v : Word) : (acknowledge v s).bstate = s.bstate := rfl
@[simp] theorem acknowledge_session (v : Word) : (acknowledge v s).session = s.session := rfl
@[simp] theorem acknowledge_dictLoaded (v : Word) : (acknowledge v s).dictLoaded = s.dictLoaded := rfl
@[simp] theorem acknowledge_phase (v : Word) : (acknowledge v s).phase = s.phase := rfl
@[simp] theorem acknowledge_cfg (v : Word) : (acknowledge v s).cfg = s.cfg := rfl
@[simp] theorem acknowledge_regs (v : Word) : (acknowledge v s).regs = s.regs := rfl
@[simp] theorem acknowledge_cmd (v : Word) : (acknowledge v s).cmd = s.cmd := rfl
@[simp] theorem acknowledge_err (v : Word) :
    (acknowledge v s).err =
      if v.getLsbD 1 && decide (s.session ≠ .faulted) then ErrRecord.none else s.err := rfl
@[simp] theorem acknowledge_done (v : Word) :
    (acknowledge v s).done =
      if v.getLsbD 0 then false else s.done := rfl
@[simp] theorem acknowledge_errFlag (v : Word) :
    (acknowledge v s).errFlag =
      if v.getLsbD 1 && decide (s.session ≠ .faulted) then false else s.errFlag := rfl
@[simp] theorem acknowledge_intEnable (v : Word) : (acknowledge v s).intEnable = s.intEnable := rfl
@[simp] theorem acknowledge_totalIn (v : Word) : (acknowledge v s).totalIn = s.totalIn := rfl
@[simp] theorem acknowledge_totalTok (v : Word) : (acknowledge v s).totalTok = s.totalTok := rfl
@[simp] theorem acknowledge_history (v : Word) : (acknowledge v s).history = s.history := rfl
@[simp] theorem acknowledge_inFifo (v : Word) : (acknowledge v s).inFifo = s.inFifo := rfl
@[simp] theorem acknowledge_tokFifo (v : Word) : (acknowledge v s).tokFifo = s.tokFifo := rfl
@[simp] theorem acknowledge_window (v : Word) : (acknowledge v s).window = s.window := rfl
@[simp] theorem acknowledge_head (v : Word) : (acknowledge v s).head = s.head := rfl
@[simp] theorem acknowledge_prev (v : Word) : (acknowledge v s).prev = s.prev := rfl
@[simp] theorem acknowledge_params (v : Word) : (acknowledge v s).params = s.params := rfl
@[simp] theorem acknowledge_schedule (v : Word) : (acknowledge v s).schedule = s.schedule := rfl
@[simp] theorem acknowledge_readData (v : Word) : (acknowledge v s).readData = s.readData := rfl
@[simp] theorem acknowledge_draws (v : Word) : (acknowledge v s).draws = s.draws := rfl
@[simp] theorem acknowledge_drawIndex (v : Word) : (acknowledge v s).drawIndex = s.drawIndex := rfl

/-! ### complete -/

@[simp] theorem complete_busy : (complete s).busy = false := rfl
@[simp] theorem complete_bstate : (complete s).bstate = s.bstate := rfl
@[simp] theorem complete_session : (complete s).session = s.session := rfl
@[simp] theorem complete_dictLoaded : (complete s).dictLoaded = s.dictLoaded := rfl
@[simp] theorem complete_phase : (complete s).phase = .idle := rfl
@[simp] theorem complete_cfg : (complete s).cfg = s.cfg := rfl
@[simp] theorem complete_regs : (complete s).regs = s.regs := rfl
@[simp] theorem complete_cmd : (complete s).cmd = s.cmd := rfl
@[simp] theorem complete_err : (complete s).err = s.err := rfl
@[simp] theorem complete_done : (complete s).done = true := rfl
@[simp] theorem complete_errFlag : (complete s).errFlag = s.errFlag := rfl
@[simp] theorem complete_intEnable : (complete s).intEnable = s.intEnable := rfl
@[simp] theorem complete_totalIn : (complete s).totalIn = s.totalIn := rfl
@[simp] theorem complete_totalTok : (complete s).totalTok = s.totalTok := rfl
@[simp] theorem complete_history : (complete s).history = s.history := rfl
@[simp] theorem complete_inFifo : (complete s).inFifo = s.inFifo := rfl
@[simp] theorem complete_tokFifo : (complete s).tokFifo = s.tokFifo := rfl
@[simp] theorem complete_window : (complete s).window = s.window := rfl
@[simp] theorem complete_head : (complete s).head = s.head := rfl
@[simp] theorem complete_prev : (complete s).prev = s.prev := rfl
@[simp] theorem complete_params : (complete s).params = s.params := rfl
@[simp] theorem complete_schedule : (complete s).schedule = s.schedule := rfl
@[simp] theorem complete_readData : (complete s).readData = s.readData := rfl
@[simp] theorem complete_draws : (complete s).draws = s.draws := rfl
@[simp] theorem complete_drawIndex : (complete s).drawIndex = s.drawIndex := rfl

/-! ### completeRun -/

@[simp] theorem completeRun_busy (b : BState) : (completeRun b s).busy = false := rfl
@[simp] theorem completeRun_bstate (b : BState) : (completeRun b s).bstate = b := rfl
@[simp] theorem completeRun_session (b : BState) : (completeRun b s).session = s.session := rfl
@[simp] theorem completeRun_dictLoaded (b : BState) : (completeRun b s).dictLoaded = s.dictLoaded := rfl
@[simp] theorem completeRun_phase (b : BState) : (completeRun b s).phase = .idle := rfl
@[simp] theorem completeRun_cfg (b : BState) : (completeRun b s).cfg = s.cfg := rfl
@[simp] theorem completeRun_regs (b : BState) : (completeRun b s).regs = s.regs := rfl
@[simp] theorem completeRun_cmd (b : BState) : (completeRun b s).cmd = s.cmd := rfl
@[simp] theorem completeRun_err (b : BState) : (completeRun b s).err = s.err := rfl
@[simp] theorem completeRun_done (b : BState) : (completeRun b s).done = true := rfl
@[simp] theorem completeRun_errFlag (b : BState) : (completeRun b s).errFlag = s.errFlag := rfl
@[simp] theorem completeRun_intEnable (b : BState) : (completeRun b s).intEnable = s.intEnable := rfl
@[simp] theorem completeRun_totalIn (b : BState) : (completeRun b s).totalIn = s.totalIn := rfl
@[simp] theorem completeRun_totalTok (b : BState) : (completeRun b s).totalTok = s.totalTok := rfl
@[simp] theorem completeRun_history (b : BState) : (completeRun b s).history = s.history := rfl
@[simp] theorem completeRun_inFifo (b : BState) : (completeRun b s).inFifo = s.inFifo := rfl
@[simp] theorem completeRun_tokFifo (b : BState) : (completeRun b s).tokFifo = s.tokFifo := rfl
@[simp] theorem completeRun_window (b : BState) : (completeRun b s).window = s.window := rfl
@[simp] theorem completeRun_head (b : BState) : (completeRun b s).head = s.head := rfl
@[simp] theorem completeRun_prev (b : BState) : (completeRun b s).prev = s.prev := rfl
@[simp] theorem completeRun_params (b : BState) : (completeRun b s).params = s.params := rfl
@[simp] theorem completeRun_schedule (b : BState) : (completeRun b s).schedule = s.schedule := rfl
@[simp] theorem completeRun_readData (b : BState) : (completeRun b s).readData = s.readData := rfl
@[simp] theorem completeRun_draws (b : BState) : (completeRun b s).draws = s.draws := rfl
@[simp] theorem completeRun_drawIndex (b : BState) : (completeRun b s).drawIndex = s.drawIndex := rfl

/-! ### emit -/

@[simp] theorem emit_busy (t : Token) : (emit t s).busy = s.busy := rfl
@[simp] theorem emit_bstate (t : Token) : (emit t s).bstate = s.bstate := rfl
@[simp] theorem emit_session (t : Token) : (emit t s).session = s.session := rfl
@[simp] theorem emit_dictLoaded (t : Token) : (emit t s).dictLoaded = s.dictLoaded := rfl
@[simp] theorem emit_phase (t : Token) : (emit t s).phase = s.phase := rfl
@[simp] theorem emit_cfg (t : Token) : (emit t s).cfg = s.cfg := rfl
@[simp] theorem emit_regs (t : Token) : (emit t s).regs = s.regs := rfl
@[simp] theorem emit_cmd (t : Token) : (emit t s).cmd = s.cmd := rfl
@[simp] theorem emit_err (t : Token) : (emit t s).err = s.err := rfl
@[simp] theorem emit_done (t : Token) : (emit t s).done = s.done := rfl
@[simp] theorem emit_errFlag (t : Token) : (emit t s).errFlag = s.errFlag := rfl
@[simp] theorem emit_intEnable (t : Token) : (emit t s).intEnable = s.intEnable := rfl
@[simp] theorem emit_totalIn (t : Token) : (emit t s).totalIn = s.totalIn := rfl
@[simp] theorem emit_totalTok (t : Token) : (emit t s).totalTok = s.totalTok + 1 := rfl
@[simp] theorem emit_history (t : Token) : (emit t s).history = s.history := rfl
@[simp] theorem emit_inFifo (t : Token) : (emit t s).inFifo = s.inFifo := rfl
@[simp] theorem emit_tokFifo (t : Token) : (emit t s).tokFifo = s.tokFifo ++ [t] := rfl
@[simp] theorem emit_window (t : Token) : (emit t s).window = s.window := rfl
@[simp] theorem emit_head (t : Token) : (emit t s).head = s.head := rfl
@[simp] theorem emit_prev (t : Token) : (emit t s).prev = s.prev := rfl
@[simp] theorem emit_params (t : Token) : (emit t s).params = s.params := rfl
@[simp] theorem emit_schedule (t : Token) : (emit t s).schedule = s.schedule := rfl
@[simp] theorem emit_readData (t : Token) : (emit t s).readData = s.readData := rfl
@[simp] theorem emit_draws (t : Token) : (emit t s).draws = s.draws := rfl
@[simp] theorem emit_drawIndex (t : Token) : (emit t s).drawIndex = s.drawIndex := rfl

/-! ### dropInput -/

@[simp] theorem dropInput_busy : (dropInput s).busy = s.busy := rfl
@[simp] theorem dropInput_bstate : (dropInput s).bstate = s.bstate := rfl
@[simp] theorem dropInput_session : (dropInput s).session = s.session := rfl
@[simp] theorem dropInput_dictLoaded : (dropInput s).dictLoaded = s.dictLoaded := rfl
@[simp] theorem dropInput_phase : (dropInput s).phase = s.phase := rfl
@[simp] theorem dropInput_cfg : (dropInput s).cfg = s.cfg := rfl
@[simp] theorem dropInput_regs : (dropInput s).regs = s.regs := rfl
@[simp] theorem dropInput_cmd : (dropInput s).cmd = s.cmd := rfl
@[simp] theorem dropInput_err : (dropInput s).err = s.err := rfl
@[simp] theorem dropInput_done : (dropInput s).done = s.done := rfl
@[simp] theorem dropInput_errFlag : (dropInput s).errFlag = s.errFlag := rfl
@[simp] theorem dropInput_intEnable : (dropInput s).intEnable = s.intEnable := rfl
@[simp] theorem dropInput_totalIn : (dropInput s).totalIn = s.totalIn := rfl
@[simp] theorem dropInput_totalTok : (dropInput s).totalTok = s.totalTok := rfl
@[simp] theorem dropInput_history : (dropInput s).history = s.history := rfl
@[simp] theorem dropInput_inFifo : (dropInput s).inFifo = s.inFifo.tail := rfl
@[simp] theorem dropInput_tokFifo : (dropInput s).tokFifo = s.tokFifo := rfl
@[simp] theorem dropInput_window : (dropInput s).window = s.window := rfl
@[simp] theorem dropInput_head : (dropInput s).head = s.head := rfl
@[simp] theorem dropInput_prev : (dropInput s).prev = s.prev := rfl
@[simp] theorem dropInput_params : (dropInput s).params = s.params := rfl
@[simp] theorem dropInput_schedule : (dropInput s).schedule = s.schedule := rfl
@[simp] theorem dropInput_readData : (dropInput s).readData = s.readData := rfl
@[simp] theorem dropInput_draws : (dropInput s).draws = s.draws := rfl
@[simp] theorem dropInput_drawIndex : (dropInput s).drawIndex = s.drawIndex := rfl

/-! ### nextDraw -/

@[simp] theorem nextDraw_busy : (nextDraw s).busy = s.busy := rfl
@[simp] theorem nextDraw_bstate : (nextDraw s).bstate = s.bstate := rfl
@[simp] theorem nextDraw_session : (nextDraw s).session = s.session := rfl
@[simp] theorem nextDraw_dictLoaded : (nextDraw s).dictLoaded = s.dictLoaded := rfl
@[simp] theorem nextDraw_phase : (nextDraw s).phase = s.phase := rfl
@[simp] theorem nextDraw_cfg : (nextDraw s).cfg = s.cfg := rfl
@[simp] theorem nextDraw_regs : (nextDraw s).regs = s.regs := rfl
@[simp] theorem nextDraw_cmd : (nextDraw s).cmd = s.cmd := rfl
@[simp] theorem nextDraw_err : (nextDraw s).err = s.err := rfl
@[simp] theorem nextDraw_done : (nextDraw s).done = s.done := rfl
@[simp] theorem nextDraw_errFlag : (nextDraw s).errFlag = s.errFlag := rfl
@[simp] theorem nextDraw_intEnable : (nextDraw s).intEnable = s.intEnable := rfl
@[simp] theorem nextDraw_totalIn : (nextDraw s).totalIn = s.totalIn := rfl
@[simp] theorem nextDraw_totalTok : (nextDraw s).totalTok = s.totalTok := rfl
@[simp] theorem nextDraw_history : (nextDraw s).history = s.history := rfl
@[simp] theorem nextDraw_inFifo : (nextDraw s).inFifo = s.inFifo := rfl
@[simp] theorem nextDraw_tokFifo : (nextDraw s).tokFifo = s.tokFifo := rfl
@[simp] theorem nextDraw_window : (nextDraw s).window = s.window := rfl
@[simp] theorem nextDraw_head : (nextDraw s).head = s.head := rfl
@[simp] theorem nextDraw_prev : (nextDraw s).prev = s.prev := rfl
@[simp] theorem nextDraw_params : (nextDraw s).params = s.params := rfl
@[simp] theorem nextDraw_schedule : (nextDraw s).schedule = s.schedule := rfl
@[simp] theorem nextDraw_readData : (nextDraw s).readData = s.readData := rfl
@[simp] theorem nextDraw_draws : (nextDraw s).draws = s.draws.tail := rfl
@[simp] theorem nextDraw_drawIndex : (nextDraw s).drawIndex = s.drawIndex + 1 := rfl

/-! ### scrambleMemories -/

@[simp] theorem scrambleMemories_busy : (scrambleMemories s).busy = s.busy := rfl
@[simp] theorem scrambleMemories_bstate : (scrambleMemories s).bstate = s.bstate := rfl
@[simp] theorem scrambleMemories_session : (scrambleMemories s).session = s.session := rfl
@[simp] theorem scrambleMemories_dictLoaded : (scrambleMemories s).dictLoaded = s.dictLoaded := rfl
@[simp] theorem scrambleMemories_phase : (scrambleMemories s).phase = s.phase := rfl
@[simp] theorem scrambleMemories_cfg : (scrambleMemories s).cfg = s.cfg := rfl
@[simp] theorem scrambleMemories_regs : (scrambleMemories s).regs = s.regs := rfl
@[simp] theorem scrambleMemories_cmd : (scrambleMemories s).cmd = s.cmd := rfl
@[simp] theorem scrambleMemories_err : (scrambleMemories s).err = s.err := rfl
@[simp] theorem scrambleMemories_done : (scrambleMemories s).done = s.done := rfl
@[simp] theorem scrambleMemories_errFlag : (scrambleMemories s).errFlag = s.errFlag := rfl
@[simp] theorem scrambleMemories_intEnable : (scrambleMemories s).intEnable = s.intEnable := rfl
@[simp] theorem scrambleMemories_totalIn : (scrambleMemories s).totalIn = s.totalIn := rfl
@[simp] theorem scrambleMemories_totalTok : (scrambleMemories s).totalTok = s.totalTok := rfl
@[simp] theorem scrambleMemories_history : (scrambleMemories s).history = s.history := rfl
@[simp] theorem scrambleMemories_inFifo : (scrambleMemories s).inFifo = s.inFifo := rfl
@[simp] theorem scrambleMemories_tokFifo : (scrambleMemories s).tokFifo = s.tokFifo := rfl
@[simp] theorem scrambleMemories_window :
    (scrambleMemories s).window =
      drawnWindow Config.windowCapacity s := rfl
@[simp] theorem scrambleMemories_head : (scrambleMemories s).head = drawnHead Config.hashSize s := rfl
@[simp] theorem scrambleMemories_prev : (scrambleMemories s).prev = drawnPrev Config.prevCapacity s := rfl
@[simp] theorem scrambleMemories_params : (scrambleMemories s).params = s.params := rfl
@[simp] theorem scrambleMemories_schedule : (scrambleMemories s).schedule = s.schedule := rfl
@[simp] theorem scrambleMemories_readData : (scrambleMemories s).readData = s.readData := rfl
@[simp] theorem scrambleMemories_draws : (scrambleMemories s).draws = s.draws.tail := rfl
@[simp] theorem scrambleMemories_drawIndex : (scrambleMemories s).drawIndex = s.drawIndex + 1 := rfl

/-! ### sessionClear -/

@[simp] theorem sessionClear_busy : (sessionClear s).busy = s.busy := rfl
@[simp] theorem sessionClear_bstate : (sessionClear s).bstate = .none := rfl
@[simp] theorem sessionClear_session : (sessionClear s).session = s.session := rfl
@[simp] theorem sessionClear_dictLoaded : (sessionClear s).dictLoaded = false := rfl
@[simp] theorem sessionClear_phase : (sessionClear s).phase = s.phase := rfl
@[simp] theorem sessionClear_cfg : (sessionClear s).cfg = s.cfg := rfl
@[simp] theorem sessionClear_regs : (sessionClear s).regs = EngineRegs.cleared := rfl
@[simp] theorem sessionClear_cmd : (sessionClear s).cmd = s.cmd := rfl
@[simp] theorem sessionClear_err : (sessionClear s).err = s.err := rfl
@[simp] theorem sessionClear_done : (sessionClear s).done = s.done := rfl
@[simp] theorem sessionClear_errFlag : (sessionClear s).errFlag = s.errFlag := rfl
@[simp] theorem sessionClear_intEnable : (sessionClear s).intEnable = s.intEnable := rfl
@[simp] theorem sessionClear_totalIn : (sessionClear s).totalIn = 0 := rfl
@[simp] theorem sessionClear_totalTok : (sessionClear s).totalTok = 0 := rfl
@[simp] theorem sessionClear_history : (sessionClear s).history = 0 := rfl
@[simp] theorem sessionClear_inFifo : (sessionClear s).inFifo = [] := rfl
@[simp] theorem sessionClear_tokFifo : (sessionClear s).tokFifo = [] := rfl
@[simp] theorem sessionClear_window : (sessionClear s).window = s.window := rfl
@[simp] theorem sessionClear_head : (sessionClear s).head = [] := rfl
@[simp] theorem sessionClear_prev : (sessionClear s).prev = s.prev := rfl
@[simp] theorem sessionClear_params : (sessionClear s).params = s.params := rfl
@[simp] theorem sessionClear_schedule : (sessionClear s).schedule = s.schedule := rfl
@[simp] theorem sessionClear_readData : (sessionClear s).readData = s.readData := rfl
@[simp] theorem sessionClear_draws : (sessionClear s).draws = s.draws := rfl
@[simp] theorem sessionClear_drawIndex : (sessionClear s).drawIndex = s.drawIndex := rfl

/-! ### insertString -/

@[simp] theorem insertString_busy (p : Nat) : (insertString p s).busy = s.busy := rfl
@[simp] theorem insertString_bstate (p : Nat) : (insertString p s).bstate = s.bstate := rfl
@[simp] theorem insertString_session (p : Nat) : (insertString p s).session = s.session := rfl
@[simp] theorem insertString_dictLoaded (p : Nat) : (insertString p s).dictLoaded = s.dictLoaded := rfl
@[simp] theorem insertString_phase (p : Nat) : (insertString p s).phase = s.phase := rfl
@[simp] theorem insertString_cfg (p : Nat) : (insertString p s).cfg = s.cfg := rfl
@[simp] theorem insertString_regs (p : Nat) : (insertString p s).regs = s.regs := rfl
@[simp] theorem insertString_cmd (p : Nat) : (insertString p s).cmd = s.cmd := rfl
@[simp] theorem insertString_err (p : Nat) : (insertString p s).err = s.err := rfl
@[simp] theorem insertString_done (p : Nat) : (insertString p s).done = s.done := rfl
@[simp] theorem insertString_errFlag (p : Nat) : (insertString p s).errFlag = s.errFlag := rfl
@[simp] theorem insertString_intEnable (p : Nat) : (insertString p s).intEnable = s.intEnable := rfl
@[simp] theorem insertString_totalIn (p : Nat) : (insertString p s).totalIn = s.totalIn := rfl
@[simp] theorem insertString_totalTok (p : Nat) : (insertString p s).totalTok = s.totalTok := rfl
@[simp] theorem insertString_history (p : Nat) : (insertString p s).history = s.history := rfl
@[simp] theorem insertString_inFifo (p : Nat) : (insertString p s).inFifo = s.inFifo := rfl
@[simp] theorem insertString_tokFifo (p : Nat) : (insertString p s).tokFifo = s.tokFifo := rfl
@[simp] theorem insertString_window (p : Nat) : (insertString p s).window = s.window := rfl
@[simp] theorem insertString_head (p : Nat) :
    (insertString p s).head =
      Memory.write s.head (hashAt s.window p) (BitVec.ofNat 16 p) := rfl
@[simp] theorem insertString_prev (p : Nat) :
    (insertString p s).prev =
      Memory.write s.prev (prevIndex s.cfg p) (chainHead p s) := rfl
@[simp] theorem insertString_params (p : Nat) : (insertString p s).params = s.params := rfl
@[simp] theorem insertString_schedule (p : Nat) : (insertString p s).schedule = s.schedule := rfl
@[simp] theorem insertString_readData (p : Nat) : (insertString p s).readData = s.readData := rfl
@[simp] theorem insertString_draws (p : Nat) : (insertString p s).draws = s.draws := rfl
@[simp] theorem insertString_drawIndex (p : Nat) : (insertString p s).drawIndex = s.drawIndex := rfl

/-! ### insertHashHead -/

@[simp] theorem insertHashHead_busy (p : Nat) : (insertHashHead p s).busy = s.busy := rfl
@[simp] theorem insertHashHead_bstate (p : Nat) : (insertHashHead p s).bstate = s.bstate := rfl
@[simp] theorem insertHashHead_session (p : Nat) : (insertHashHead p s).session = s.session := rfl
@[simp] theorem insertHashHead_dictLoaded (p : Nat) : (insertHashHead p s).dictLoaded = s.dictLoaded := rfl
@[simp] theorem insertHashHead_phase (p : Nat) : (insertHashHead p s).phase = s.phase := rfl
@[simp] theorem insertHashHead_cfg (p : Nat) : (insertHashHead p s).cfg = s.cfg := rfl
@[simp] theorem insertHashHead_regs (p : Nat) :
    (insertHashHead p s).regs =
      { s.regs with hashHead := chainHead p s } := rfl
@[simp] theorem insertHashHead_cmd (p : Nat) : (insertHashHead p s).cmd = s.cmd := rfl
@[simp] theorem insertHashHead_err (p : Nat) : (insertHashHead p s).err = s.err := rfl
@[simp] theorem insertHashHead_done (p : Nat) : (insertHashHead p s).done = s.done := rfl
@[simp] theorem insertHashHead_errFlag (p : Nat) : (insertHashHead p s).errFlag = s.errFlag := rfl
@[simp] theorem insertHashHead_intEnable (p : Nat) : (insertHashHead p s).intEnable = s.intEnable := rfl
@[simp] theorem insertHashHead_totalIn (p : Nat) : (insertHashHead p s).totalIn = s.totalIn := rfl
@[simp] theorem insertHashHead_totalTok (p : Nat) : (insertHashHead p s).totalTok = s.totalTok := rfl
@[simp] theorem insertHashHead_history (p : Nat) : (insertHashHead p s).history = s.history := rfl
@[simp] theorem insertHashHead_inFifo (p : Nat) : (insertHashHead p s).inFifo = s.inFifo := rfl
@[simp] theorem insertHashHead_tokFifo (p : Nat) : (insertHashHead p s).tokFifo = s.tokFifo := rfl
@[simp] theorem insertHashHead_window (p : Nat) : (insertHashHead p s).window = s.window := rfl
@[simp] theorem insertHashHead_head (p : Nat) :
    (insertHashHead p s).head =
      Memory.write s.head (hashAt s.window p) (BitVec.ofNat 16 p) := rfl
@[simp] theorem insertHashHead_prev (p : Nat) :
    (insertHashHead p s).prev =
      Memory.write s.prev (prevIndex s.cfg p) (chainHead p s) := rfl
@[simp] theorem insertHashHead_params (p : Nat) : (insertHashHead p s).params = s.params := rfl
@[simp] theorem insertHashHead_schedule (p : Nat) : (insertHashHead p s).schedule = s.schedule := rfl
@[simp] theorem insertHashHead_readData (p : Nat) : (insertHashHead p s).readData = s.readData := rfl
@[simp] theorem insertHashHead_draws (p : Nat) : (insertHashHead p s).draws = s.draws := rfl
@[simp] theorem insertHashHead_drawIndex (p : Nat) : (insertHashHead p s).drawIndex = s.drawIndex := rfl

/-! ### slide -/

@[simp] theorem slide_busy : (slide s).busy = s.busy := rfl
@[simp] theorem slide_bstate : (slide s).bstate = s.bstate := rfl
@[simp] theorem slide_session : (slide s).session = s.session := rfl
@[simp] theorem slide_dictLoaded : (slide s).dictLoaded = s.dictLoaded := rfl
@[simp] theorem slide_phase : (slide s).phase = s.phase := rfl
@[simp] theorem slide_cfg : (slide s).cfg = s.cfg := rfl
@[simp] theorem slide_regs :
    (slide s).regs =
      { s.regs with
      matchStart := s.regs.matchStart - BitVec.ofNat 16 (windowSize s.cfg)
      strstart := s.regs.strstart - BitVec.ofNat 17 (windowSize s.cfg) } := rfl
@[simp] theorem slide_cmd : (slide s).cmd = s.cmd := rfl
@[simp] theorem slide_err : (slide s).err = s.err := rfl
@[simp] theorem slide_done : (slide s).done = s.done := rfl
@[simp] theorem slide_errFlag : (slide s).errFlag = s.errFlag := rfl
@[simp] theorem slide_intEnable : (slide s).intEnable = s.intEnable := rfl
@[simp] theorem slide_totalIn : (slide s).totalIn = s.totalIn := rfl
@[simp] theorem slide_totalTok : (slide s).totalTok = s.totalTok := rfl
@[simp] theorem slide_history : (slide s).history = s.history := rfl
@[simp] theorem slide_inFifo : (slide s).inFifo = s.inFifo := rfl
@[simp] theorem slide_tokFifo : (slide s).tokFifo = s.tokFifo := rfl
@[simp] theorem slide_window : (slide s).window = Memory.copyDown (windowSize s.cfg) s.window := rfl
@[simp] theorem slide_head : (slide s).head = Memory.rebase (windowSize s.cfg) s.head := rfl
@[simp] theorem slide_prev : (slide s).prev = Memory.rebase (windowSize s.cfg) s.prev := rfl
@[simp] theorem slide_params : (slide s).params = s.params := rfl
@[simp] theorem slide_schedule : (slide s).schedule = s.schedule := rfl
@[simp] theorem slide_readData : (slide s).readData = s.readData := rfl
@[simp] theorem slide_draws : (slide s).draws = s.draws := rfl
@[simp] theorem slide_drawIndex : (slide s).drawIndex = s.drawIndex := rfl

/-! ### takeInput -/

@[simp] theorem takeInput_busy (n : Nat) : (takeInput n s).busy = s.busy := rfl
@[simp] theorem takeInput_bstate (n : Nat) : (takeInput n s).bstate = s.bstate := rfl
@[simp] theorem takeInput_session (n : Nat) : (takeInput n s).session = s.session := rfl
@[simp] theorem takeInput_dictLoaded (n : Nat) : (takeInput n s).dictLoaded = s.dictLoaded := rfl
@[simp] theorem takeInput_phase (n : Nat) : (takeInput n s).phase = s.phase := rfl
@[simp] theorem takeInput_cfg (n : Nat) : (takeInput n s).cfg = s.cfg := rfl
@[simp] theorem takeInput_regs (n : Nat) :
    (takeInput n s).regs =
      { s.regs with lookahead := s.regs.lookahead + BitVec.ofNat 17 n } := rfl
@[simp] theorem takeInput_cmd (n : Nat) : (takeInput n s).cmd = s.cmd := rfl
@[simp] theorem takeInput_err (n : Nat) : (takeInput n s).err = s.err := rfl
@[simp] theorem takeInput_done (n : Nat) : (takeInput n s).done = s.done := rfl
@[simp] theorem takeInput_errFlag (n : Nat) : (takeInput n s).errFlag = s.errFlag := rfl
@[simp] theorem takeInput_intEnable (n : Nat) : (takeInput n s).intEnable = s.intEnable := rfl
@[simp] theorem takeInput_totalIn (n : Nat) : (takeInput n s).totalIn = s.totalIn + BitVec.ofNat 32 n := rfl
@[simp] theorem takeInput_totalTok (n : Nat) : (takeInput n s).totalTok = s.totalTok := rfl
@[simp] theorem takeInput_history (n : Nat) : (takeInput n s).history = s.history := rfl
@[simp] theorem takeInput_inFifo (n : Nat) : (takeInput n s).inFifo = s.inFifo.drop n := rfl
@[simp] theorem takeInput_tokFifo (n : Nat) : (takeInput n s).tokFifo = s.tokFifo := rfl
@[simp] theorem takeInput_window (n : Nat) :
    (takeInput n s).window =
      Memory.writeList s.window (s.regs.strstart.toNat + s.regs.lookahead.toNat) (s.inFifo.take n) := rfl
@[simp] theorem takeInput_head (n : Nat) : (takeInput n s).head = s.head := rfl
@[simp] theorem takeInput_prev (n : Nat) : (takeInput n s).prev = s.prev := rfl
@[simp] theorem takeInput_params (n : Nat) : (takeInput n s).params = s.params := rfl
@[simp] theorem takeInput_schedule (n : Nat) : (takeInput n s).schedule = s.schedule := rfl
@[simp] theorem takeInput_readData (n : Nat) : (takeInput n s).readData = s.readData := rfl
@[simp] theorem takeInput_draws (n : Nat) : (takeInput n s).draws = s.draws := rfl
@[simp] theorem takeInput_drawIndex (n : Nat) : (takeInput n s).drawIndex = s.drawIndex := rfl

/-! ### searchFrom -/

@[simp] theorem searchFrom_busy (c : Half) : (searchFrom c s).busy = s.busy := rfl
@[simp] theorem searchFrom_bstate (c : Half) : (searchFrom c s).bstate = s.bstate := rfl
@[simp] theorem searchFrom_session (c : Half) : (searchFrom c s).session = s.session := rfl
@[simp] theorem searchFrom_dictLoaded (c : Half) : (searchFrom c s).dictLoaded = s.dictLoaded := rfl
@[simp] theorem searchFrom_phase (c : Half) : (searchFrom c s).phase = s.phase := rfl
@[simp] theorem searchFrom_cfg (c : Half) : (searchFrom c s).cfg = s.cfg := rfl
@[simp] theorem searchFrom_regs (c : Half) :
    (searchFrom c s).regs =
      { s.regs with
      matchStart := (searchBest c s).start
      matchLength := BitVec.ofNat 9 (longestMatch c s) } := rfl
@[simp] theorem searchFrom_cmd (c : Half) : (searchFrom c s).cmd = s.cmd := rfl
@[simp] theorem searchFrom_err (c : Half) : (searchFrom c s).err = s.err := rfl
@[simp] theorem searchFrom_done (c : Half) : (searchFrom c s).done = s.done := rfl
@[simp] theorem searchFrom_errFlag (c : Half) : (searchFrom c s).errFlag = s.errFlag := rfl
@[simp] theorem searchFrom_intEnable (c : Half) : (searchFrom c s).intEnable = s.intEnable := rfl
@[simp] theorem searchFrom_totalIn (c : Half) : (searchFrom c s).totalIn = s.totalIn := rfl
@[simp] theorem searchFrom_totalTok (c : Half) : (searchFrom c s).totalTok = s.totalTok := rfl
@[simp] theorem searchFrom_history (c : Half) : (searchFrom c s).history = s.history := rfl
@[simp] theorem searchFrom_inFifo (c : Half) : (searchFrom c s).inFifo = s.inFifo := rfl
@[simp] theorem searchFrom_tokFifo (c : Half) : (searchFrom c s).tokFifo = s.tokFifo := rfl
@[simp] theorem searchFrom_window (c : Half) : (searchFrom c s).window = s.window := rfl
@[simp] theorem searchFrom_head (c : Half) : (searchFrom c s).head = s.head := rfl
@[simp] theorem searchFrom_prev (c : Half) : (searchFrom c s).prev = s.prev := rfl
@[simp] theorem searchFrom_params (c : Half) : (searchFrom c s).params = s.params := rfl
@[simp] theorem searchFrom_schedule (c : Half) : (searchFrom c s).schedule = s.schedule := rfl
@[simp] theorem searchFrom_readData (c : Half) : (searchFrom c s).readData = s.readData := rfl
@[simp] theorem searchFrom_draws (c : Half) : (searchFrom c s).draws = s.draws := rfl
@[simp] theorem searchFrom_drawIndex (c : Half) : (searchFrom c s).drawIndex = s.drawIndex := rfl

/-! ### advance -/

@[simp] theorem advance_busy (n k : Nat) : (advance n k s).busy = s.busy := rfl
@[simp] theorem advance_bstate (n k : Nat) : (advance n k s).bstate = s.bstate := rfl
@[simp] theorem advance_session (n k : Nat) : (advance n k s).session = s.session := rfl
@[simp] theorem advance_dictLoaded (n k : Nat) : (advance n k s).dictLoaded = s.dictLoaded := rfl
@[simp] theorem advance_phase (n k : Nat) : (advance n k s).phase = s.phase := rfl
@[simp] theorem advance_cfg (n k : Nat) : (advance n k s).cfg = s.cfg := rfl
@[simp] theorem advance_regs (n k : Nat) :
    (advance n k s).regs =
      { s.regs with
      strstart := s.regs.strstart + BitVec.ofNat 17 n
      lookahead := s.regs.lookahead - BitVec.ofNat 17 k } := rfl
@[simp] theorem advance_cmd (n k : Nat) : (advance n k s).cmd = s.cmd := rfl
@[simp] theorem advance_err (n k : Nat) : (advance n k s).err = s.err := rfl
@[simp] theorem advance_done (n k : Nat) : (advance n k s).done = s.done := rfl
@[simp] theorem advance_errFlag (n k : Nat) : (advance n k s).errFlag = s.errFlag := rfl
@[simp] theorem advance_intEnable (n k : Nat) : (advance n k s).intEnable = s.intEnable := rfl
@[simp] theorem advance_totalIn (n k : Nat) : (advance n k s).totalIn = s.totalIn := rfl
@[simp] theorem advance_totalTok (n k : Nat) : (advance n k s).totalTok = s.totalTok := rfl
@[simp] theorem advance_history (n k : Nat) : (advance n k s).history = s.history + k := rfl
@[simp] theorem advance_inFifo (n k : Nat) : (advance n k s).inFifo = s.inFifo := rfl
@[simp] theorem advance_tokFifo (n k : Nat) : (advance n k s).tokFifo = s.tokFifo := rfl
@[simp] theorem advance_window (n k : Nat) : (advance n k s).window = s.window := rfl
@[simp] theorem advance_head (n k : Nat) : (advance n k s).head = s.head := rfl
@[simp] theorem advance_prev (n k : Nat) : (advance n k s).prev = s.prev := rfl
@[simp] theorem advance_params (n k : Nat) : (advance n k s).params = s.params := rfl
@[simp] theorem advance_schedule (n k : Nat) : (advance n k s).schedule = s.schedule := rfl
@[simp] theorem advance_readData (n k : Nat) : (advance n k s).readData = s.readData := rfl
@[simp] theorem advance_draws (n k : Nat) : (advance n k s).draws = s.draws := rfl
@[simp] theorem advance_drawIndex (n k : Nat) : (advance n k s).drawIndex = s.drawIndex := rfl

/-! ### setMatchLength -/

@[simp] theorem setMatchLength_busy (n : BitVec 9) : (setMatchLength n s).busy = s.busy := rfl
@[simp] theorem setMatchLength_bstate (n : BitVec 9) : (setMatchLength n s).bstate = s.bstate := rfl
@[simp] theorem setMatchLength_session (n : BitVec 9) : (setMatchLength n s).session = s.session := rfl
@[simp] theorem setMatchLength_dictLoaded (n : BitVec 9) :
    (setMatchLength n s).dictLoaded =
      s.dictLoaded := rfl
@[simp] theorem setMatchLength_phase (n : BitVec 9) : (setMatchLength n s).phase = s.phase := rfl
@[simp] theorem setMatchLength_cfg (n : BitVec 9) : (setMatchLength n s).cfg = s.cfg := rfl
@[simp] theorem setMatchLength_regs (n : BitVec 9) :
    (setMatchLength n s).regs =
      { s.regs with matchLength := n } := rfl
@[simp] theorem setMatchLength_cmd (n : BitVec 9) : (setMatchLength n s).cmd = s.cmd := rfl
@[simp] theorem setMatchLength_err (n : BitVec 9) : (setMatchLength n s).err = s.err := rfl
@[simp] theorem setMatchLength_done (n : BitVec 9) : (setMatchLength n s).done = s.done := rfl
@[simp] theorem setMatchLength_errFlag (n : BitVec 9) : (setMatchLength n s).errFlag = s.errFlag := rfl
@[simp] theorem setMatchLength_intEnable (n : BitVec 9) : (setMatchLength n s).intEnable = s.intEnable := rfl
@[simp] theorem setMatchLength_totalIn (n : BitVec 9) : (setMatchLength n s).totalIn = s.totalIn := rfl
@[simp] theorem setMatchLength_totalTok (n : BitVec 9) : (setMatchLength n s).totalTok = s.totalTok := rfl
@[simp] theorem setMatchLength_history (n : BitVec 9) : (setMatchLength n s).history = s.history := rfl
@[simp] theorem setMatchLength_inFifo (n : BitVec 9) : (setMatchLength n s).inFifo = s.inFifo := rfl
@[simp] theorem setMatchLength_tokFifo (n : BitVec 9) : (setMatchLength n s).tokFifo = s.tokFifo := rfl
@[simp] theorem setMatchLength_window (n : BitVec 9) : (setMatchLength n s).window = s.window := rfl
@[simp] theorem setMatchLength_head (n : BitVec 9) : (setMatchLength n s).head = s.head := rfl
@[simp] theorem setMatchLength_prev (n : BitVec 9) : (setMatchLength n s).prev = s.prev := rfl
@[simp] theorem setMatchLength_params (n : BitVec 9) : (setMatchLength n s).params = s.params := rfl
@[simp] theorem setMatchLength_schedule (n : BitVec 9) : (setMatchLength n s).schedule = s.schedule := rfl
@[simp] theorem setMatchLength_readData (n : BitVec 9) : (setMatchLength n s).readData = s.readData := rfl
@[simp] theorem setMatchLength_draws (n : BitVec 9) : (setMatchLength n s).draws = s.draws := rfl
@[simp] theorem setMatchLength_drawIndex (n : BitVec 9) : (setMatchLength n s).drawIndex = s.drawIndex := rfl

/-! ### shiftMatch -/

@[simp] theorem shiftMatch_busy : (shiftMatch s).busy = s.busy := rfl
@[simp] theorem shiftMatch_bstate : (shiftMatch s).bstate = s.bstate := rfl
@[simp] theorem shiftMatch_session : (shiftMatch s).session = s.session := rfl
@[simp] theorem shiftMatch_dictLoaded : (shiftMatch s).dictLoaded = s.dictLoaded := rfl
@[simp] theorem shiftMatch_phase : (shiftMatch s).phase = s.phase := rfl
@[simp] theorem shiftMatch_cfg : (shiftMatch s).cfg = s.cfg := rfl
@[simp] theorem shiftMatch_regs :
    (shiftMatch s).regs =
      { s.regs with
      prevLength := s.regs.matchLength
      prevMatch := s.regs.matchStart
      matchLength := 2 } := rfl
@[simp] theorem shiftMatch_cmd : (shiftMatch s).cmd = s.cmd := rfl
@[simp] theorem shiftMatch_err : (shiftMatch s).err = s.err := rfl
@[simp] theorem shiftMatch_done : (shiftMatch s).done = s.done := rfl
@[simp] theorem shiftMatch_errFlag : (shiftMatch s).errFlag = s.errFlag := rfl
@[simp] theorem shiftMatch_intEnable : (shiftMatch s).intEnable = s.intEnable := rfl
@[simp] theorem shiftMatch_totalIn : (shiftMatch s).totalIn = s.totalIn := rfl
@[simp] theorem shiftMatch_totalTok : (shiftMatch s).totalTok = s.totalTok := rfl
@[simp] theorem shiftMatch_history : (shiftMatch s).history = s.history := rfl
@[simp] theorem shiftMatch_inFifo : (shiftMatch s).inFifo = s.inFifo := rfl
@[simp] theorem shiftMatch_tokFifo : (shiftMatch s).tokFifo = s.tokFifo := rfl
@[simp] theorem shiftMatch_window : (shiftMatch s).window = s.window := rfl
@[simp] theorem shiftMatch_head : (shiftMatch s).head = s.head := rfl
@[simp] theorem shiftMatch_prev : (shiftMatch s).prev = s.prev := rfl
@[simp] theorem shiftMatch_params : (shiftMatch s).params = s.params := rfl
@[simp] theorem shiftMatch_schedule : (shiftMatch s).schedule = s.schedule := rfl
@[simp] theorem shiftMatch_readData : (shiftMatch s).readData = s.readData := rfl
@[simp] theorem shiftMatch_draws : (shiftMatch s).draws = s.draws := rfl
@[simp] theorem shiftMatch_drawIndex : (shiftMatch s).drawIndex = s.drawIndex := rfl

/-! ### endSlowMatch -/

@[simp] theorem endSlowMatch_busy : (endSlowMatch s).busy = s.busy := rfl
@[simp] theorem endSlowMatch_bstate : (endSlowMatch s).bstate = s.bstate := rfl
@[simp] theorem endSlowMatch_session : (endSlowMatch s).session = s.session := rfl
@[simp] theorem endSlowMatch_dictLoaded : (endSlowMatch s).dictLoaded = s.dictLoaded := rfl
@[simp] theorem endSlowMatch_phase : (endSlowMatch s).phase = s.phase := rfl
@[simp] theorem endSlowMatch_cfg : (endSlowMatch s).cfg = s.cfg := rfl
@[simp] theorem endSlowMatch_regs :
    (endSlowMatch s).regs =
      { s.regs with prevLength := 0, matchAvailable := false, matchLength := 2 } := rfl
@[simp] theorem endSlowMatch_cmd : (endSlowMatch s).cmd = s.cmd := rfl
@[simp] theorem endSlowMatch_err : (endSlowMatch s).err = s.err := rfl
@[simp] theorem endSlowMatch_done : (endSlowMatch s).done = s.done := rfl
@[simp] theorem endSlowMatch_errFlag : (endSlowMatch s).errFlag = s.errFlag := rfl
@[simp] theorem endSlowMatch_intEnable : (endSlowMatch s).intEnable = s.intEnable := rfl
@[simp] theorem endSlowMatch_totalIn : (endSlowMatch s).totalIn = s.totalIn := rfl
@[simp] theorem endSlowMatch_totalTok : (endSlowMatch s).totalTok = s.totalTok := rfl
@[simp] theorem endSlowMatch_history : (endSlowMatch s).history = s.history := rfl
@[simp] theorem endSlowMatch_inFifo : (endSlowMatch s).inFifo = s.inFifo := rfl
@[simp] theorem endSlowMatch_tokFifo : (endSlowMatch s).tokFifo = s.tokFifo := rfl
@[simp] theorem endSlowMatch_window : (endSlowMatch s).window = s.window := rfl
@[simp] theorem endSlowMatch_head : (endSlowMatch s).head = s.head := rfl
@[simp] theorem endSlowMatch_prev : (endSlowMatch s).prev = s.prev := rfl
@[simp] theorem endSlowMatch_params : (endSlowMatch s).params = s.params := rfl
@[simp] theorem endSlowMatch_schedule : (endSlowMatch s).schedule = s.schedule := rfl
@[simp] theorem endSlowMatch_readData : (endSlowMatch s).readData = s.readData := rfl
@[simp] theorem endSlowMatch_draws : (endSlowMatch s).draws = s.draws := rfl
@[simp] theorem endSlowMatch_drawIndex : (endSlowMatch s).drawIndex = s.drawIndex := rfl

/-! ### hold -/

@[simp] theorem hold_busy : (hold s).busy = s.busy := rfl
@[simp] theorem hold_bstate : (hold s).bstate = s.bstate := rfl
@[simp] theorem hold_session : (hold s).session = s.session := rfl
@[simp] theorem hold_dictLoaded : (hold s).dictLoaded = s.dictLoaded := rfl
@[simp] theorem hold_phase : (hold s).phase = s.phase := rfl
@[simp] theorem hold_cfg : (hold s).cfg = s.cfg := rfl
@[simp] theorem hold_regs : (hold s).regs = { s.regs with matchAvailable := true } := rfl
@[simp] theorem hold_cmd : (hold s).cmd = s.cmd := rfl
@[simp] theorem hold_err : (hold s).err = s.err := rfl
@[simp] theorem hold_done : (hold s).done = s.done := rfl
@[simp] theorem hold_errFlag : (hold s).errFlag = s.errFlag := rfl
@[simp] theorem hold_intEnable : (hold s).intEnable = s.intEnable := rfl
@[simp] theorem hold_totalIn : (hold s).totalIn = s.totalIn := rfl
@[simp] theorem hold_totalTok : (hold s).totalTok = s.totalTok := rfl
@[simp] theorem hold_history : (hold s).history = s.history := rfl
@[simp] theorem hold_inFifo : (hold s).inFifo = s.inFifo := rfl
@[simp] theorem hold_tokFifo : (hold s).tokFifo = s.tokFifo := rfl
@[simp] theorem hold_window : (hold s).window = s.window := rfl
@[simp] theorem hold_head : (hold s).head = s.head := rfl
@[simp] theorem hold_prev : (hold s).prev = s.prev := rfl
@[simp] theorem hold_params : (hold s).params = s.params := rfl
@[simp] theorem hold_schedule : (hold s).schedule = s.schedule := rfl
@[simp] theorem hold_readData : (hold s).readData = s.readData := rfl
@[simp] theorem hold_draws : (hold s).draws = s.draws := rfl
@[simp] theorem hold_drawIndex : (hold s).drawIndex = s.drawIndex := rfl

/-! ### releaseSession -/

@[simp] theorem releaseSession_busy : (releaseSession s).busy = s.busy := rfl
@[simp] theorem releaseSession_bstate : (releaseSession s).bstate = s.bstate := rfl
@[simp] theorem releaseSession_session : (releaseSession s).session = .uninit := rfl
@[simp] theorem releaseSession_dictLoaded : (releaseSession s).dictLoaded = s.dictLoaded := rfl
@[simp] theorem releaseSession_phase : (releaseSession s).phase = s.phase := rfl
@[simp] theorem releaseSession_cfg : (releaseSession s).cfg = SessionConfig.zero := rfl
@[simp] theorem releaseSession_regs :
    (releaseSession s).regs =
      { s.regs with matchLength := 0, prevLength := 0 } := rfl
@[simp] theorem releaseSession_cmd : (releaseSession s).cmd = s.cmd := rfl
@[simp] theorem releaseSession_err : (releaseSession s).err = s.err := rfl
@[simp] theorem releaseSession_done : (releaseSession s).done = s.done := rfl
@[simp] theorem releaseSession_errFlag : (releaseSession s).errFlag = s.errFlag := rfl
@[simp] theorem releaseSession_intEnable : (releaseSession s).intEnable = s.intEnable := rfl
@[simp] theorem releaseSession_totalIn : (releaseSession s).totalIn = s.totalIn := rfl
@[simp] theorem releaseSession_totalTok : (releaseSession s).totalTok = s.totalTok := rfl
@[simp] theorem releaseSession_history : (releaseSession s).history = s.history := rfl
@[simp] theorem releaseSession_inFifo : (releaseSession s).inFifo = s.inFifo := rfl
@[simp] theorem releaseSession_tokFifo : (releaseSession s).tokFifo = s.tokFifo := rfl
@[simp] theorem releaseSession_window : (releaseSession s).window = s.window := rfl
@[simp] theorem releaseSession_head : (releaseSession s).head = s.head := rfl
@[simp] theorem releaseSession_prev : (releaseSession s).prev = s.prev := rfl
@[simp] theorem releaseSession_params : (releaseSession s).params = s.params := rfl
@[simp] theorem releaseSession_schedule : (releaseSession s).schedule = s.schedule := rfl
@[simp] theorem releaseSession_readData : (releaseSession s).readData = s.readData := rfl
@[simp] theorem releaseSession_draws : (releaseSession s).draws = s.draws := rfl
@[simp] theorem releaseSession_drawIndex : (releaseSession s).drawIndex = s.drawIndex := rfl

/-! ### installConfig -/

@[simp] theorem installConfig_busy : (installConfig s).busy = s.busy := rfl
@[simp] theorem installConfig_bstate : (installConfig s).bstate = s.bstate := rfl
@[simp] theorem installConfig_session : (installConfig s).session = s.session := rfl
@[simp] theorem installConfig_dictLoaded : (installConfig s).dictLoaded = s.dictLoaded := rfl
@[simp] theorem installConfig_phase : (installConfig s).phase = s.phase := rfl
@[simp] theorem installConfig_cfg : (installConfig s).cfg = initConfig s := rfl
@[simp] theorem installConfig_regs : (installConfig s).regs = s.regs := rfl
@[simp] theorem installConfig_cmd : (installConfig s).cmd = s.cmd := rfl
@[simp] theorem installConfig_err : (installConfig s).err = s.err := rfl
@[simp] theorem installConfig_done : (installConfig s).done = s.done := rfl
@[simp] theorem installConfig_errFlag : (installConfig s).errFlag = s.errFlag := rfl
@[simp] theorem installConfig_intEnable : (installConfig s).intEnable = s.intEnable := rfl
@[simp] theorem installConfig_totalIn : (installConfig s).totalIn = s.totalIn := rfl
@[simp] theorem installConfig_totalTok : (installConfig s).totalTok = s.totalTok := rfl
@[simp] theorem installConfig_history : (installConfig s).history = s.history := rfl
@[simp] theorem installConfig_inFifo : (installConfig s).inFifo = s.inFifo := rfl
@[simp] theorem installConfig_tokFifo : (installConfig s).tokFifo = s.tokFifo := rfl
@[simp] theorem installConfig_window :
    (installConfig s).window =
      drawnWindow (2 * windowSize (initConfig s)) s := rfl
@[simp] theorem installConfig_head : (installConfig s).head = s.head := rfl
@[simp] theorem installConfig_prev : (installConfig s).prev = drawnPrev (windowSize (initConfig s)) s := rfl
@[simp] theorem installConfig_params : (installConfig s).params = s.params := rfl
@[simp] theorem installConfig_schedule : (installConfig s).schedule = s.schedule := rfl
@[simp] theorem installConfig_readData : (installConfig s).readData = s.readData := rfl
@[simp] theorem installConfig_draws : (installConfig s).draws = s.draws.tail := rfl
@[simp] theorem installConfig_drawIndex : (installConfig s).drawIndex = s.drawIndex + 1 := rfl

/-! ### enterStream -/

@[simp] theorem enterStream_busy : (enterStream s).busy = s.busy := rfl
@[simp] theorem enterStream_bstate : (enterStream s).bstate = s.bstate := rfl
@[simp] theorem enterStream_session :
    (enterStream s).session =
      if s.cmd.flush = .finish then s.session else .streaming := rfl
@[simp] theorem enterStream_dictLoaded : (enterStream s).dictLoaded = s.dictLoaded := rfl
@[simp] theorem enterStream_phase : (enterStream s).phase = s.phase := rfl
@[simp] theorem enterStream_cfg : (enterStream s).cfg = s.cfg := rfl
@[simp] theorem enterStream_regs : (enterStream s).regs = { s.regs with lastFlush := s.cmd.flush } := rfl
@[simp] theorem enterStream_cmd : (enterStream s).cmd = s.cmd := rfl
@[simp] theorem enterStream_err : (enterStream s).err = s.err := rfl
@[simp] theorem enterStream_done : (enterStream s).done = s.done := rfl
@[simp] theorem enterStream_errFlag : (enterStream s).errFlag = s.errFlag := rfl
@[simp] theorem enterStream_intEnable : (enterStream s).intEnable = s.intEnable := rfl
@[simp] theorem enterStream_totalIn : (enterStream s).totalIn = s.totalIn := rfl
@[simp] theorem enterStream_totalTok : (enterStream s).totalTok = s.totalTok := rfl
@[simp] theorem enterStream_history : (enterStream s).history = s.history := rfl
@[simp] theorem enterStream_inFifo : (enterStream s).inFifo = s.inFifo := rfl
@[simp] theorem enterStream_tokFifo : (enterStream s).tokFifo = s.tokFifo := rfl
@[simp] theorem enterStream_window : (enterStream s).window = s.window := rfl
@[simp] theorem enterStream_head : (enterStream s).head = s.head := rfl
@[simp] theorem enterStream_prev : (enterStream s).prev = s.prev := rfl
@[simp] theorem enterStream_params : (enterStream s).params = s.params := rfl
@[simp] theorem enterStream_schedule : (enterStream s).schedule = s.schedule := rfl
@[simp] theorem enterStream_readData : (enterStream s).readData = s.readData := rfl
@[simp] theorem enterStream_draws : (enterStream s).draws = s.draws := rfl
@[simp] theorem enterStream_drawIndex : (enterStream s).drawIndex = s.drawIndex := rfl

/-! ### beginLoop -/

@[simp] theorem beginLoop_busy : (beginLoop s).busy = s.busy := rfl
@[simp] theorem beginLoop_bstate : (beginLoop s).bstate = s.bstate := rfl
@[simp] theorem beginLoop_session : (beginLoop s).session = s.session := rfl
@[simp] theorem beginLoop_dictLoaded : (beginLoop s).dictLoaded = s.dictLoaded := rfl
@[simp] theorem beginLoop_phase : (beginLoop s).phase = .runIter := rfl
@[simp] theorem beginLoop_cfg : (beginLoop s).cfg = s.cfg := rfl
@[simp] theorem beginLoop_regs : (beginLoop s).regs = { s.regs with hashHead := 0 } := rfl
@[simp] theorem beginLoop_cmd : (beginLoop s).cmd = s.cmd := rfl
@[simp] theorem beginLoop_err : (beginLoop s).err = s.err := rfl
@[simp] theorem beginLoop_done : (beginLoop s).done = s.done := rfl
@[simp] theorem beginLoop_errFlag : (beginLoop s).errFlag = s.errFlag := rfl
@[simp] theorem beginLoop_intEnable : (beginLoop s).intEnable = s.intEnable := rfl
@[simp] theorem beginLoop_totalIn : (beginLoop s).totalIn = s.totalIn := rfl
@[simp] theorem beginLoop_totalTok : (beginLoop s).totalTok = s.totalTok := rfl
@[simp] theorem beginLoop_history : (beginLoop s).history = s.history := rfl
@[simp] theorem beginLoop_inFifo : (beginLoop s).inFifo = s.inFifo := rfl
@[simp] theorem beginLoop_tokFifo : (beginLoop s).tokFifo = s.tokFifo := rfl
@[simp] theorem beginLoop_window : (beginLoop s).window = s.window := rfl
@[simp] theorem beginLoop_head : (beginLoop s).head = s.head := rfl
@[simp] theorem beginLoop_prev : (beginLoop s).prev = s.prev := rfl
@[simp] theorem beginLoop_params : (beginLoop s).params = s.params := rfl
@[simp] theorem beginLoop_schedule : (beginLoop s).schedule = s.schedule := rfl
@[simp] theorem beginLoop_readData : (beginLoop s).readData = s.readData := rfl
@[simp] theorem beginLoop_draws : (beginLoop s).draws = s.draws := rfl
@[simp] theorem beginLoop_drawIndex : (beginLoop s).drawIndex = s.drawIndex := rfl

/-! ### clearChains -/

@[simp] theorem clearChains_busy : (clearChains s).busy = s.busy := rfl
@[simp] theorem clearChains_bstate : (clearChains s).bstate = s.bstate := rfl
@[simp] theorem clearChains_session : (clearChains s).session = s.session := rfl
@[simp] theorem clearChains_dictLoaded : (clearChains s).dictLoaded = s.dictLoaded := rfl
@[simp] theorem clearChains_phase : (clearChains s).phase = s.phase := rfl
@[simp] theorem clearChains_cfg : (clearChains s).cfg = s.cfg := rfl
@[simp] theorem clearChains_regs : (clearChains s).regs = s.regs := rfl
@[simp] theorem clearChains_cmd : (clearChains s).cmd = s.cmd := rfl
@[simp] theorem clearChains_err : (clearChains s).err = s.err := rfl
@[simp] theorem clearChains_done : (clearChains s).done = s.done := rfl
@[simp] theorem clearChains_errFlag : (clearChains s).errFlag = s.errFlag := rfl
@[simp] theorem clearChains_intEnable : (clearChains s).intEnable = s.intEnable := rfl
@[simp] theorem clearChains_totalIn : (clearChains s).totalIn = s.totalIn := rfl
@[simp] theorem clearChains_totalTok : (clearChains s).totalTok = s.totalTok := rfl
@[simp] theorem clearChains_history : (clearChains s).history = 0 := rfl
@[simp] theorem clearChains_inFifo : (clearChains s).inFifo = s.inFifo := rfl
@[simp] theorem clearChains_tokFifo : (clearChains s).tokFifo = s.tokFifo := rfl
@[simp] theorem clearChains_window : (clearChains s).window = s.window := rfl
@[simp] theorem clearChains_head : (clearChains s).head = [] := rfl
@[simp] theorem clearChains_prev : (clearChains s).prev = s.prev := rfl
@[simp] theorem clearChains_params : (clearChains s).params = s.params := rfl
@[simp] theorem clearChains_schedule : (clearChains s).schedule = s.schedule := rfl
@[simp] theorem clearChains_readData : (clearChains s).readData = s.readData := rfl
@[simp] theorem clearChains_draws : (clearChains s).draws = s.draws := rfl
@[simp] theorem clearChains_drawIndex : (clearChains s).drawIndex = s.drawIndex := rfl

/-! ### acceptInit -/

@[simp] theorem acceptInit_busy (l w : BitVec 4) (t : Strategy) : (acceptInit l w t s).busy = s.busy := rfl
@[simp] theorem acceptInit_bstate (l w : BitVec 4) (t : Strategy) :
    (acceptInit l w t s).bstate =
      s.bstate := rfl
@[simp] theorem acceptInit_session (l w : BitVec 4) (t : Strategy) :
    (acceptInit l w t s).session =
      s.session := rfl
@[simp] theorem acceptInit_dictLoaded (l w : BitVec 4) (t : Strategy) :
    (acceptInit l w t s).dictLoaded =
      s.dictLoaded := rfl
@[simp] theorem acceptInit_phase (l w : BitVec 4) (t : Strategy) : (acceptInit l w t s).phase = .initOp := rfl
@[simp] theorem acceptInit_cfg (l w : BitVec 4) (t : Strategy) : (acceptInit l w t s).cfg = s.cfg := rfl
@[simp] theorem acceptInit_regs (l w : BitVec 4) (t : Strategy) : (acceptInit l w t s).regs = s.regs := rfl
@[simp] theorem acceptInit_cmd (l w : BitVec 4) (t : Strategy) :
    (acceptInit l w t s).cmd =
      { s.cmd with level := resolveLevel l, wbits := resolveWbits w, strategy := t } := rfl
@[simp] theorem acceptInit_err (l w : BitVec 4) (t : Strategy) : (acceptInit l w t s).err = s.err := rfl
@[simp] theorem acceptInit_done (l w : BitVec 4) (t : Strategy) : (acceptInit l w t s).done = s.done := rfl
@[simp] theorem acceptInit_errFlag (l w : BitVec 4) (t : Strategy) :
    (acceptInit l w t s).errFlag =
      s.errFlag := rfl
@[simp] theorem acceptInit_intEnable (l w : BitVec 4) (t : Strategy) :
    (acceptInit l w t s).intEnable =
      s.intEnable := rfl
@[simp] theorem acceptInit_totalIn (l w : BitVec 4) (t : Strategy) :
    (acceptInit l w t s).totalIn =
      s.totalIn := rfl
@[simp] theorem acceptInit_totalTok (l w : BitVec 4) (t : Strategy) :
    (acceptInit l w t s).totalTok =
      s.totalTok := rfl
@[simp] theorem acceptInit_history (l w : BitVec 4) (t : Strategy) :
    (acceptInit l w t s).history =
      s.history := rfl
@[simp] theorem acceptInit_inFifo (l w : BitVec 4) (t : Strategy) :
    (acceptInit l w t s).inFifo =
      s.inFifo := rfl
@[simp] theorem acceptInit_tokFifo (l w : BitVec 4) (t : Strategy) :
    (acceptInit l w t s).tokFifo =
      s.tokFifo := rfl
@[simp] theorem acceptInit_window (l w : BitVec 4) (t : Strategy) :
    (acceptInit l w t s).window =
      s.window := rfl
@[simp] theorem acceptInit_head (l w : BitVec 4) (t : Strategy) : (acceptInit l w t s).head = s.head := rfl
@[simp] theorem acceptInit_prev (l w : BitVec 4) (t : Strategy) : (acceptInit l w t s).prev = s.prev := rfl
@[simp] theorem acceptInit_params (l w : BitVec 4) (t : Strategy) :
    (acceptInit l w t s).params =
      s.params := rfl
@[simp] theorem acceptInit_schedule (l w : BitVec 4) (t : Strategy) :
    (acceptInit l w t s).schedule =
      s.schedule := rfl
@[simp] theorem acceptInit_readData (l w : BitVec 4) (t : Strategy) :
    (acceptInit l w t s).readData =
      s.readData := rfl
@[simp] theorem acceptInit_draws (l w : BitVec 4) (t : Strategy) : (acceptInit l w t s).draws = s.draws := rfl
@[simp] theorem acceptInit_drawIndex (l w : BitVec 4) (t : Strategy) :
    (acceptInit l w t s).drawIndex =
      s.drawIndex := rfl

/-! ### acceptSetDict -/

@[simp] theorem acceptSetDict_busy (n : BitVec 16) : (acceptSetDict n s).busy = s.busy := rfl
@[simp] theorem acceptSetDict_bstate (n : BitVec 16) : (acceptSetDict n s).bstate = s.bstate := rfl
@[simp] theorem acceptSetDict_session (n : BitVec 16) : (acceptSetDict n s).session = s.session := rfl
@[simp] theorem acceptSetDict_dictLoaded (n : BitVec 16) :
    (acceptSetDict n s).dictLoaded =
      s.dictLoaded := rfl
@[simp] theorem acceptSetDict_phase (n : BitVec 16) :
    (acceptSetDict n s).phase =
      if n.toNat > 0 then .dictPop else .dictCommit := rfl
@[simp] theorem acceptSetDict_cfg (n : BitVec 16) : (acceptSetDict n s).cfg = s.cfg := rfl
@[simp] theorem acceptSetDict_regs (n : BitVec 16) : (acceptSetDict n s).regs = s.regs := rfl
@[simp] theorem acceptSetDict_cmd (n : BitVec 16) :
    (acceptSetDict n s).cmd =
      { s.cmd with dictTotal := n, dictLeft := n, dictBuf := [] } := rfl
@[simp] theorem acceptSetDict_err (n : BitVec 16) : (acceptSetDict n s).err = s.err := rfl
@[simp] theorem acceptSetDict_done (n : BitVec 16) : (acceptSetDict n s).done = s.done := rfl
@[simp] theorem acceptSetDict_errFlag (n : BitVec 16) : (acceptSetDict n s).errFlag = s.errFlag := rfl
@[simp] theorem acceptSetDict_intEnable (n : BitVec 16) : (acceptSetDict n s).intEnable = s.intEnable := rfl
@[simp] theorem acceptSetDict_totalIn (n : BitVec 16) : (acceptSetDict n s).totalIn = s.totalIn := rfl
@[simp] theorem acceptSetDict_totalTok (n : BitVec 16) : (acceptSetDict n s).totalTok = s.totalTok := rfl
@[simp] theorem acceptSetDict_history (n : BitVec 16) : (acceptSetDict n s).history = s.history := rfl
@[simp] theorem acceptSetDict_inFifo (n : BitVec 16) : (acceptSetDict n s).inFifo = s.inFifo := rfl
@[simp] theorem acceptSetDict_tokFifo (n : BitVec 16) : (acceptSetDict n s).tokFifo = s.tokFifo := rfl
@[simp] theorem acceptSetDict_window (n : BitVec 16) : (acceptSetDict n s).window = s.window := rfl
@[simp] theorem acceptSetDict_head (n : BitVec 16) : (acceptSetDict n s).head = s.head := rfl
@[simp] theorem acceptSetDict_prev (n : BitVec 16) : (acceptSetDict n s).prev = s.prev := rfl
@[simp] theorem acceptSetDict_params (n : BitVec 16) : (acceptSetDict n s).params = s.params := rfl
@[simp] theorem acceptSetDict_schedule (n : BitVec 16) : (acceptSetDict n s).schedule = s.schedule := rfl
@[simp] theorem acceptSetDict_readData (n : BitVec 16) : (acceptSetDict n s).readData = s.readData := rfl
@[simp] theorem acceptSetDict_draws (n : BitVec 16) : (acceptSetDict n s).draws = s.draws := rfl
@[simp] theorem acceptSetDict_drawIndex (n : BitVec 16) : (acceptSetDict n s).drawIndex = s.drawIndex := rfl

/-! ### acceptRun -/

@[simp] theorem acceptRun_busy (f : Flush) : (acceptRun f s).busy = s.busy := rfl
@[simp] theorem acceptRun_bstate (f : Flush) :
    (acceptRun f s).bstate =
      if f = .finish then .finishStarted else .inProgress := rfl
@[simp] theorem acceptRun_session (f : Flush) :
    (acceptRun f s).session =
      if f = .finish ∧ s.session ≠ .finished then .finishing else s.session := rfl
@[simp] theorem acceptRun_dictLoaded (f : Flush) : (acceptRun f s).dictLoaded = s.dictLoaded := rfl
@[simp] theorem acceptRun_phase (f : Flush) : (acceptRun f s).phase = .runStart := rfl
@[simp] theorem acceptRun_cfg (f : Flush) : (acceptRun f s).cfg = s.cfg := rfl
@[simp] theorem acceptRun_regs (f : Flush) : (acceptRun f s).regs = s.regs := rfl
@[simp] theorem acceptRun_cmd (f : Flush) : (acceptRun f s).cmd = { s.cmd with flush := f } := rfl
@[simp] theorem acceptRun_err (f : Flush) : (acceptRun f s).err = s.err := rfl
@[simp] theorem acceptRun_done (f : Flush) : (acceptRun f s).done = s.done := rfl
@[simp] theorem acceptRun_errFlag (f : Flush) : (acceptRun f s).errFlag = s.errFlag := rfl
@[simp] theorem acceptRun_intEnable (f : Flush) : (acceptRun f s).intEnable = s.intEnable := rfl
@[simp] theorem acceptRun_totalIn (f : Flush) : (acceptRun f s).totalIn = s.totalIn := rfl
@[simp] theorem acceptRun_totalTok (f : Flush) : (acceptRun f s).totalTok = s.totalTok := rfl
@[simp] theorem acceptRun_history (f : Flush) : (acceptRun f s).history = s.history := rfl
@[simp] theorem acceptRun_inFifo (f : Flush) : (acceptRun f s).inFifo = s.inFifo := rfl
@[simp] theorem acceptRun_tokFifo (f : Flush) : (acceptRun f s).tokFifo = s.tokFifo := rfl
@[simp] theorem acceptRun_window (f : Flush) : (acceptRun f s).window = s.window := rfl
@[simp] theorem acceptRun_head (f : Flush) : (acceptRun f s).head = s.head := rfl
@[simp] theorem acceptRun_prev (f : Flush) : (acceptRun f s).prev = s.prev := rfl
@[simp] theorem acceptRun_params (f : Flush) : (acceptRun f s).params = s.params := rfl
@[simp] theorem acceptRun_schedule (f : Flush) : (acceptRun f s).schedule = s.schedule := rfl
@[simp] theorem acceptRun_readData (f : Flush) : (acceptRun f s).readData = s.readData := rfl
@[simp] theorem acceptRun_draws (f : Flush) : (acceptRun f s).draws = s.draws := rfl
@[simp] theorem acceptRun_drawIndex (f : Flush) : (acceptRun f s).drawIndex = s.drawIndex := rfl

/-! ### acceptReset -/

@[simp] theorem acceptReset_busy : (acceptReset s).busy = s.busy := rfl
@[simp] theorem acceptReset_bstate : (acceptReset s).bstate = s.bstate := rfl
@[simp] theorem acceptReset_session : (acceptReset s).session = s.session := rfl
@[simp] theorem acceptReset_dictLoaded : (acceptReset s).dictLoaded = s.dictLoaded := rfl
@[simp] theorem acceptReset_phase : (acceptReset s).phase = .resetOp := rfl
@[simp] theorem acceptReset_cfg : (acceptReset s).cfg = s.cfg := rfl
@[simp] theorem acceptReset_regs : (acceptReset s).regs = s.regs := rfl
@[simp] theorem acceptReset_cmd : (acceptReset s).cmd = s.cmd := rfl
@[simp] theorem acceptReset_err : (acceptReset s).err = s.err := rfl
@[simp] theorem acceptReset_done : (acceptReset s).done = s.done := rfl
@[simp] theorem acceptReset_errFlag : (acceptReset s).errFlag = s.errFlag := rfl
@[simp] theorem acceptReset_intEnable : (acceptReset s).intEnable = s.intEnable := rfl
@[simp] theorem acceptReset_totalIn : (acceptReset s).totalIn = s.totalIn := rfl
@[simp] theorem acceptReset_totalTok : (acceptReset s).totalTok = s.totalTok := rfl
@[simp] theorem acceptReset_history : (acceptReset s).history = s.history := rfl
@[simp] theorem acceptReset_inFifo : (acceptReset s).inFifo = s.inFifo := rfl
@[simp] theorem acceptReset_tokFifo : (acceptReset s).tokFifo = s.tokFifo := rfl
@[simp] theorem acceptReset_window : (acceptReset s).window = s.window := rfl
@[simp] theorem acceptReset_head : (acceptReset s).head = s.head := rfl
@[simp] theorem acceptReset_prev : (acceptReset s).prev = s.prev := rfl
@[simp] theorem acceptReset_params : (acceptReset s).params = s.params := rfl
@[simp] theorem acceptReset_schedule : (acceptReset s).schedule = s.schedule := rfl
@[simp] theorem acceptReset_readData : (acceptReset s).readData = s.readData := rfl
@[simp] theorem acceptReset_draws : (acceptReset s).draws = s.draws := rfl
@[simp] theorem acceptReset_drawIndex : (acceptReset s).drawIndex = s.drawIndex := rfl

/-! ### acceptEnd -/

@[simp] theorem acceptEnd_busy : (acceptEnd s).busy = s.busy := rfl
@[simp] theorem acceptEnd_bstate : (acceptEnd s).bstate = s.bstate := rfl
@[simp] theorem acceptEnd_session : (acceptEnd s).session = s.session := rfl
@[simp] theorem acceptEnd_dictLoaded : (acceptEnd s).dictLoaded = s.dictLoaded := rfl
@[simp] theorem acceptEnd_phase : (acceptEnd s).phase = .endOp := rfl
@[simp] theorem acceptEnd_cfg : (acceptEnd s).cfg = s.cfg := rfl
@[simp] theorem acceptEnd_regs : (acceptEnd s).regs = s.regs := rfl
@[simp] theorem acceptEnd_cmd : (acceptEnd s).cmd = s.cmd := rfl
@[simp] theorem acceptEnd_err : (acceptEnd s).err = s.err := rfl
@[simp] theorem acceptEnd_done : (acceptEnd s).done = s.done := rfl
@[simp] theorem acceptEnd_errFlag : (acceptEnd s).errFlag = s.errFlag := rfl
@[simp] theorem acceptEnd_intEnable : (acceptEnd s).intEnable = s.intEnable := rfl
@[simp] theorem acceptEnd_totalIn : (acceptEnd s).totalIn = s.totalIn := rfl
@[simp] theorem acceptEnd_totalTok : (acceptEnd s).totalTok = s.totalTok := rfl
@[simp] theorem acceptEnd_history : (acceptEnd s).history = s.history := rfl
@[simp] theorem acceptEnd_inFifo : (acceptEnd s).inFifo = s.inFifo := rfl
@[simp] theorem acceptEnd_tokFifo : (acceptEnd s).tokFifo = s.tokFifo := rfl
@[simp] theorem acceptEnd_window : (acceptEnd s).window = s.window := rfl
@[simp] theorem acceptEnd_head : (acceptEnd s).head = s.head := rfl
@[simp] theorem acceptEnd_prev : (acceptEnd s).prev = s.prev := rfl
@[simp] theorem acceptEnd_params : (acceptEnd s).params = s.params := rfl
@[simp] theorem acceptEnd_schedule : (acceptEnd s).schedule = s.schedule := rfl
@[simp] theorem acceptEnd_readData : (acceptEnd s).readData = s.readData := rfl
@[simp] theorem acceptEnd_draws : (acceptEnd s).draws = s.draws := rfl
@[simp] theorem acceptEnd_drawIndex : (acceptEnd s).drawIndex = s.drawIndex := rfl

/-! ### appendInput -/

@[simp] theorem appendInput_busy (v : Word) : (appendInput v s).busy = s.busy := rfl
@[simp] theorem appendInput_bstate (v : Word) : (appendInput v s).bstate = s.bstate := rfl
@[simp] theorem appendInput_session (v : Word) : (appendInput v s).session = s.session := rfl
@[simp] theorem appendInput_dictLoaded (v : Word) : (appendInput v s).dictLoaded = s.dictLoaded := rfl
@[simp] theorem appendInput_phase (v : Word) : (appendInput v s).phase = s.phase := rfl
@[simp] theorem appendInput_cfg (v : Word) : (appendInput v s).cfg = s.cfg := rfl
@[simp] theorem appendInput_regs (v : Word) : (appendInput v s).regs = s.regs := rfl
@[simp] theorem appendInput_cmd (v : Word) : (appendInput v s).cmd = s.cmd := rfl
@[simp] theorem appendInput_err (v : Word) : (appendInput v s).err = s.err := rfl
@[simp] theorem appendInput_done (v : Word) : (appendInput v s).done = s.done := rfl
@[simp] theorem appendInput_errFlag (v : Word) : (appendInput v s).errFlag = s.errFlag := rfl
@[simp] theorem appendInput_intEnable (v : Word) : (appendInput v s).intEnable = s.intEnable := rfl
@[simp] theorem appendInput_totalIn (v : Word) : (appendInput v s).totalIn = s.totalIn := rfl
@[simp] theorem appendInput_totalTok (v : Word) : (appendInput v s).totalTok = s.totalTok := rfl
@[simp] theorem appendInput_history (v : Word) : (appendInput v s).history = s.history := rfl
@[simp] theorem appendInput_inFifo (v : Word) : (appendInput v s).inFifo = s.inFifo ++ [v.setWidth 8] := rfl
@[simp] theorem appendInput_tokFifo (v : Word) : (appendInput v s).tokFifo = s.tokFifo := rfl
@[simp] theorem appendInput_window (v : Word) : (appendInput v s).window = s.window := rfl
@[simp] theorem appendInput_head (v : Word) : (appendInput v s).head = s.head := rfl
@[simp] theorem appendInput_prev (v : Word) : (appendInput v s).prev = s.prev := rfl
@[simp] theorem appendInput_params (v : Word) : (appendInput v s).params = s.params := rfl
@[simp] theorem appendInput_schedule (v : Word) : (appendInput v s).schedule = s.schedule := rfl
@[simp] theorem appendInput_readData (v : Word) : (appendInput v s).readData = s.readData := rfl
@[simp] theorem appendInput_draws (v : Word) : (appendInput v s).draws = s.draws := rfl
@[simp] theorem appendInput_drawIndex (v : Word) : (appendInput v s).drawIndex = s.drawIndex := rfl

end Sys2Proof.Machine
end

