-- ==== Sys2Proof/Laws/Ops.lean ====
section
/-! SUPPORT. What each shared operation can do, said once: the outcomes of an access, of a commit, of an engine step and of a
step, and that every operation keeps the canonical form of the memories. -/

namespace Sys2Proof.Machine

open Sys2Proof.Config

/-! ## Accesses -/

/-- Every instruction gives a next state. -/
theorem exec_next (i : Instr) (s : State) : ∃ t, exec i s = .next t := by
  cases i <;> try exact ⟨_, rfl⟩
  case run f => rw [exec, execRun]; split <;> exact ⟨_, rfl⟩
  case wrCmd v =>
    rw [exec, execWrCmd]
    split
    · exact ⟨_, rfl⟩
    · split <;> try exact ⟨_, rfl⟩
      rw [execRun]; split <;> exact ⟨_, rfl⟩

/-- R120: what presenting a command can do. -/
theorem issue_cases (op : Op) (v : Word) (bad allowed : Bool) (accept : State → State) (s : State) :
    (∃ k, issue op v bad allowed accept s = commandError k v s)
      ∨ (s.busy = false ∧ bad = false ∧ allowed = true
        ∧ issue op v bad allowed accept s = accept { s with busy := true, cmd := { s.cmd with op := op } }) := by
  unfold issue
  split
  · exact .inl ⟨_, rfl⟩
  · split
    · exact .inl ⟨_, rfl⟩
    · split
      · exact .inl ⟨_, rfl⟩
      · right; simp_all

/-- R120: the state an accepted command's own effects apply to. -/
def begun (op : Op) (s : State) : State := { s with busy := true, cmd := { s.cmd with op := op } }

/-- R120, R121: an accepted command: the session check that passed and the state it leaves. -/
def Accepted (s t : State) : Prop :=
  (∃ level wbits field, initAllowed s = true ∧ badInitParam level wbits field = false
      ∧ t = acceptInit level wbits ((strategyOf field).getD .default) (begun .init s))
    ∨ (∃ n, setDictAllowed s = true ∧ t = acceptSetDict n (begun .setDict s))
    ∨ (∃ f, runAllowed f s = true ∧ t = acceptRun f (begun .run s))
    ∨ (openSession s = true ∧ t = acceptReset (begun .reset s))
    ∨ (openSession s = true ∧ t = acceptEnd (begun .endSession s))

/-- What a command row can do: nothing (NOP), a usage error, or an acceptance with `BUSY = 0`. -/
def CommandOutcome (s t : State) : Prop :=
  t = s ∨ (∃ k v, t = commandError k v s) ∨ (s.busy = false ∧ Accepted s t)

theorem execInit_outcome {level wbits : BitVec 4} {field : BitVec 2} {s t : State}
    (h : execInit level wbits field s = .next t) : CommandOutcome s t := by
  obtain rfl := Host.Outcome.next.inj h
  obtain ⟨k, e⟩ | ⟨hb, hp, ha, e⟩ := issue_cases .init (initWord level wbits field) (badInitParam level wbits field)
    (initAllowed s) (acceptInit level wbits ((strategyOf field).getD .default)) s
  · exact .inr (.inl ⟨k, _, e⟩)
  · exact .inr (.inr ⟨hb, .inl ⟨_, _, _, ha, hp, e⟩⟩)

theorem execSetDict_outcome {n : BitVec 16} {s t : State} (h : execSetDict n s = .next t) : CommandOutcome s t := by
  obtain rfl := Host.Outcome.next.inj h
  obtain ⟨k, e⟩ | ⟨hb, -, ha, e⟩ := issue_cases .setDict (setDictWord n) false (setDictAllowed s) (acceptSetDict n) s
  · exact .inr (.inl ⟨k, _, e⟩)
  · exact .inr (.inr ⟨hb, .inr (.inl ⟨n, ha, e⟩)⟩)

theorem issueRun_outcome (f : Flush) (s : State) : CommandOutcome s (issueRun f s) := by
  obtain ⟨k, e⟩ | ⟨hb, -, ha, e⟩ := issue_cases .run (runWord (flushCode f)) false (runAllowed f s) (acceptRun f) s
  · exact .inr (.inl ⟨k, _, e⟩)
  · exact .inr (.inr ⟨hb, .inr (.inr (.inl ⟨f, ha, e⟩))⟩)

theorem execRun_outcome {flush : BitVec 3} {s t : State} (h : execRun flush s = .next t) : CommandOutcome s t := by
  unfold execRun at h
  split at h
  · obtain rfl := Host.Outcome.next.inj h
    exact issueRun_outcome _ s
  · obtain rfl := Host.Outcome.next.inj h
    obtain ⟨k, e⟩ | ⟨-, hp, -, -⟩ := issue_cases .run (runWord flush) true false id s
    · exact .inr (.inl ⟨k, _, e⟩)
    · simp at hp

theorem execReset_outcome {s t : State} (h : execReset s = .next t) : CommandOutcome s t := by
  obtain rfl := Host.Outcome.next.inj h
  obtain ⟨k, e⟩ | ⟨hb, -, ha, e⟩ := issue_cases .reset resetWord false (openSession s) acceptReset s
  · exact .inr (.inl ⟨k, _, e⟩)
  · exact .inr (.inr ⟨hb, .inr (.inr (.inr (.inl ⟨ha, e⟩)))⟩)

theorem execEndSession_outcome {s t : State} (h : execEndSession s = .next t) : CommandOutcome s t := by
  obtain rfl := Host.Outcome.next.inj h
  obtain ⟨k, e⟩ | ⟨hb, -, ha, e⟩ := issue_cases .endSession endWord false (openSession s) acceptEnd s
  · exact .inr (.inl ⟨k, _, e⟩)
  · exact .inr (.inr ⟨hb, .inr (.inr (.inr (.inr ⟨ha, e⟩)))⟩)

theorem rejectIllegal_outcome (v : Word) (s : State) : CommandOutcome s (rejectIllegal v s) := by
  unfold rejectIllegal; split <;> exact .inr (.inl ⟨_, _, rfl⟩)

theorem execWrCmd_outcome {v : Word} {s t : State} (h : execWrCmd v s = .next t) : CommandOutcome s t := by
  unfold execWrCmd at h
  split at h
  · obtain rfl := Host.Outcome.next.inj h
    exact rejectIllegal_outcome v s
  · split at h
    · exact .inl (Host.Outcome.next.inj h).symm
    · exact execInit_outcome h
    · exact execSetDict_outcome h
    · exact execRun_outcome h
    · exact execReset_outcome h
    · exact execEndSession_outcome h
    · obtain rfl := Host.Outcome.next.inj h
      exact rejectIllegal_outcome v s

/-- R120: everything a command row can do. -/
theorem command_cases {i : Instr} {s t : State} (hc : commandRow i = true) (h : exec i s = .next t) :
    CommandOutcome s t := by
  cases i with
  | nop => exact .inl (Host.Outcome.next.inj h).symm
  | init _ _ _ => exact execInit_outcome h
  | setDict _ => exact execSetDict_outcome h
  | run _ => exact execRun_outcome h
  | runNone => obtain rfl := Host.Outcome.next.inj h; exact issueRun_outcome _ s
  | runPartial => obtain rfl := Host.Outcome.next.inj h; exact issueRun_outcome _ s
  | runSync => obtain rfl := Host.Outcome.next.inj h; exact issueRun_outcome _ s
  | runFull => obtain rfl := Host.Outcome.next.inj h; exact issueRun_outcome _ s
  | runFinish => obtain rfl := Host.Outcome.next.inj h; exact issueRun_outcome _ s
  | reset => exact execReset_outcome h
  | endSession => exact execEndSession_outcome h
  | wrCmd _ => exact execWrCmd_outcome h
  | push _ => cases hc
  | pop => cases hc
  | rd _ => cases hc
  | wrIntEnable _ => cases hc
  | wrIntStatus _ => cases hc
  | badAccess _ _ _ _ => cases hc

/-- R141: everything a push can do. -/
theorem push_cases {v : Word} {s t : State} (h : exec (.push v) s = .next t) :
    (∃ k, t = pushError k v s)
      ∨ (pushAllowed s = true ∧ s.inFifo.length ≠ s.params.inFifoDepth ∧ t = appendInput v s) := by
  obtain rfl := Host.Outcome.next.inj h
  split
  · exact .inl ⟨_, rfl⟩
  · split
    · exact .inl ⟨_, rfl⟩
    · right; simp_all [inFull]

/-- R245: the two forms of the record after a usage error. -/
theorem recordUsage_cases (e : ErrRecord) (k : ErrKind) (info : Word) (w : Bool) (z : Size) (o : BitVec 12) :
    (e.code = .none ∧ recordUsage e k info w z o = ⟨k, false, w, sizeLog2 z, o, info⟩)
      ∨ (e.code ≠ .none ∧ recordUsage e k info w z o = { e with multi := true }) := by
  unfold recordUsage; split
  · exact .inl ⟨‹_›, rfl⟩
  · exact .inr ⟨‹_›, rfl⟩

/-! ## Engine steps -/

/-- R256: no check fails exactly when the session's invariants and the token's bounds hold. -/
theorem firstBroken_eq_none (s : State) (t : Option Token) :
    firstBroken s t = none ↔
      (inSession s = true → windowFits s = true ∧ headsInserted s = true ∧ heldByteOk s = true ∧ lengthsOk s = true
        ∧ fifosFit s = true)
      ∧ (∀ k, t = some k → tokenInBounds s.cfg k = true ∧ tokenInHistory s.history k = true) := by
  unfold firstBroken
  cases inSession s <;> cases windowFits s <;> cases headsInserted s <;> cases heldByteOk s <;> cases lengthsOk s <;>
    cases fifosFit s <;> cases t <;> simp

/-- R256: the numbers of the checks. -/
theorem firstBroken_range {s : State} {t : Option Token} {n : Nat} (h : firstBroken s t = some n) : 1 ≤ n ∧ n ≤ 6 := by
  unfold firstBroken at h
  split_ifs at h
  iterate 5
    obtain rfl := Option.some.inj h
    omega
  split at h
  · split_ifs at h
    obtain rfl := Option.some.inj h
    omega
  · cases h

/-- R250: a commit performs all of the attempt's effects, or an internal fault in place of them. -/
theorem commit_cases (s : State) (a : Attempt) :
    (firstBroken (emitOpt a.token a.state) a.token = none ∧ commit s a = emitOpt a.token a.state)
      ∨ ∃ n, firstBroken (emitOpt a.token a.state) a.token = some n ∧ commit s a = internalFault n s := by
  unfold commit
  split
  · exact .inl ⟨‹_›, rfl⟩
  · exact .inr ⟨_, ‹_›, rfl⟩

/-- R280: what one turn of the engine can do. -/
theorem engineStep_cases (s : State) :
    (enabled s = false ∧ engineStep s = s)
      ∨ (enabled s = true ∧ firstBroken (emitOpt (attempt s).token (attempt s).state) (attempt s).token = none
        ∧ engineStep s = emitOpt (attempt s).token (attempt s).state)
      ∨ (enabled s = true ∧ ∃ n, firstBroken (emitOpt (attempt s).token (attempt s).state) (attempt s).token = some n
        ∧ engineStep s = internalFault n s) := by
  unfold engineStep
  cases h : enabled s
  · exact .inl ⟨rfl, rfl⟩
  · obtain ⟨h1, h2⟩ | ⟨n, h1, h2⟩ := commit_cases s (attempt s)
    · exact .inr (.inl ⟨rfl, h1, by simpa using h2⟩)
    · exact .inr (.inr ⟨rfl, n, h1, by simpa using h2⟩)

/-- The enabling conditions of R280, phase by phase. -/
theorem enabled_iff (s : State) : enabled s = true ↔ s.busy = true ∧ s.phase ≠ .idle ∧ s.phase ≠ .faulted
    ∧ (s.phase = .dictPop → s.inFifo ≠ [])
    ∧ (s.phase = .runIter ∨ s.phase = .runTail ∨ s.phase = .runMark → s.tokFifo.length < s.params.tokFifoDepth) := by
  unfold enabled
  cases s.phase <;> simp [List.length_pos_iff]

/-! ## Steps -/

/-- R69: every next state is that of an access, an engine turn or a hardware reset. -/
theorem step_cases {s t : State} (h : step s = .next t) :
    s.params.ok = true ∧
      ((s.schedule = [] ∧ t = engineStep s)
        ∨ (∃ rest, s.schedule = .engine :: rest ∧ t = engineStep { s with schedule := rest })
        ∨ (∃ rest, s.schedule = .hardReset :: rest ∧ t = hardReset { s with schedule := rest })
        ∨ ∃ a rest i, s.schedule = .host a :: rest ∧ decode s.params.baseAddr a = .ok i
            ∧ exec i { s with schedule := rest } = .next t) := by
  unfold step at h
  split at h
  · refine ⟨‹_›, ?_⟩
    split at h
    · exact .inl ⟨‹_›, by simpa using h.symm⟩
    · exact .inr (.inl ⟨_, ‹_›, by simpa using h.symm⟩)
    · exact .inr (.inr (.inl ⟨_, ‹_›, by simpa using h.symm⟩))
    · split at h
      · exact .inr (.inr (.inr ⟨_, _, _, ‹_›, ‹_›, h⟩))
      · simp at h
  · simp at h

/-! ## The canonical form -/

theorem memoriesWf_resetWith (p : Params) : MemoriesWf (State.resetWith p) := ⟨rfl, rfl, rfl⟩

theorem memoriesWf_congr {s t : State} (h : MemoriesWf s) (hw : t.window = s.window) (hh : t.head = s.head)
    (hp : t.prev = s.prev) : MemoriesWf t := by
  unfold MemoriesWf; rw [hw, hh, hp]; exact h

theorem wf_drawnWindow (n : Nat) (s : State) : Memory.wf (drawnWindow n s) = true := by
  unfold drawnWindow; split
  · exact Memory.wf_ofList _
  · exact Memory.wf_ofFn _ _

theorem wf_drawnHead (n : Nat) (s : State) : Memory.wf (drawnHead n s) = true := by
  unfold drawnHead; split
  · exact Memory.wf_ofList _
  · exact Memory.wf_ofFn _ _

theorem wf_drawnPrev (n : Nat) (s : State) : Memory.wf (drawnPrev n s) = true := by
  unfold drawnPrev; split
  · exact Memory.wf_ofList _
  · exact Memory.wf_ofFn _ _

theorem memoriesWf_scrambleMemories (s : State) : MemoriesWf (scrambleMemories s) :=
  ⟨wf_drawnWindow _ _, wf_drawnHead _ _, wf_drawnPrev _ _⟩

theorem memoriesWf_sessionClear {s : State} (h : MemoriesWf s) : MemoriesWf (sessionClear s) := ⟨h.1, rfl, h.2.2⟩

theorem memoriesWf_insertString (p : Nat) {s : State} (h : MemoriesWf s) : MemoriesWf (insertString p s) :=
  ⟨h.1, Memory.wf_write _ _ h.2.1, Memory.wf_write _ _ h.2.2⟩

theorem memoriesWf_insertHashHead (p : Nat) {s : State} (h : MemoriesWf s) : MemoriesWf (insertHashHead p s) :=
  memoriesWf_insertString p h

theorem memoriesWf_insertRange (p n : Nat) {s : State} (h : MemoriesWf s) : MemoriesWf (insertRange p n s) := by
  induction n generalizing p s with
  | zero => exact h
  | succ n ih => exact ih _ (memoriesWf_insertString p h)

theorem memoriesWf_slide {s : State} (h : MemoriesWf s) : MemoriesWf (slide s) :=
  ⟨Memory.wf_copyDown _ h.1, Memory.wf_rebase _ h.2.1, Memory.wf_rebase _ h.2.2⟩

theorem memoriesWf_slideIfDue {s : State} (h : MemoriesWf s) : MemoriesWf (slideIfDue s) := by
  unfold slideIfDue; split
  · exact memoriesWf_slide h
  · exact h

theorem memoriesWf_takeInput (n : Nat) {s : State} (h : MemoriesWf s) : MemoriesWf (takeInput n s) :=
  ⟨Memory.wf_writeList _ _ h.1, h.2.1, h.2.2⟩

theorem memoriesWf_fillLoop (k : Nat) {s : State} (h : MemoriesWf s) : MemoriesWf (fillLoop k s) := by
  induction k generalizing s with
  | zero => exact h
  | succ k ih =>
    rw [fillLoop]
    split
    · exact memoriesWf_slideIfDue h
    · dsimp only
      split
      · exact ih (memoriesWf_takeInput _ (memoriesWf_slideIfDue h))
      · exact memoriesWf_takeInput _ (memoriesWf_slideIfDue h)

theorem memoriesWf_fill {s : State} (h : MemoriesWf s) : MemoriesWf (fill s) := memoriesWf_fillLoop _ h

theorem memoriesWf_insertSpan (n : Nat) {s : State} (h : MemoriesWf s) : MemoriesWf (insertSpan n s) := by
  induction n generalizing s with
  | zero => exact h
  | succ n ih => exact ih (memoriesWf_insertHashHead _ h)

theorem memoriesWf_insertSpanUpTo (b n : Nat) {s : State} (h : MemoriesWf s) : MemoriesWf (insertSpanUpTo b n s) := by
  induction n generalizing s with
  | zero => exact h
  | succ n ih =>
    rw [insertSpanUpTo]
    apply ih
    split
    · exact memoriesWf_insertHashHead _ h
    · exact h

/-! ## Reset -/

theorem scrambleMemories_eq (s : State) : ∃ w h p, scrambleMemories s =
    { s with window := w, head := h, prev := p, draws := s.draws.tail, drawIndex := s.drawIndex + 1 } :=
  ⟨_, _, _, rfl⟩

end Sys2Proof.Machine
end

