-- ==== Sys2Proof/Laws/Iter.lean ====
section
/-! SUPPORT. What a flavour iteration leaves alone: every operation inside it keeps the control state, the FIFO order and the canonical
form of the memories. -/

namespace Sys2Proof.Machine

open Sys2Proof.Config

/-- What every operation inside an iteration keeps: all but the memories, the position and match registers, the history count, the input
FIFO (which only loses its oldest bytes) and `TOTAL_IN`. -/
structure KeepsControl (s t : State) : Prop where
  busy : t.busy = s.busy
  bstate : t.bstate = s.bstate
  session : t.session = s.session
  dictLoaded : t.dictLoaded = s.dictLoaded
  phase : t.phase = s.phase
  cfg : t.cfg = s.cfg
  lastFlush : t.regs.lastFlush = s.regs.lastFlush
  cmd : t.cmd = s.cmd
  err : t.err = s.err
  done : t.done = s.done
  errFlag : t.errFlag = s.errFlag
  intEnable : t.intEnable = s.intEnable
  totalTok : t.totalTok = s.totalTok
  inFifo : ∃ n, t.inFifo = s.inFifo.drop n
  tokFifo : t.tokFifo = s.tokFifo
  params : t.params = s.params
  schedule : t.schedule = s.schedule
  readData : t.readData = s.readData
  draws : t.draws = s.draws
  drawIndex : t.drawIndex = s.drawIndex

theorem KeepsControl.refl (s : State) : KeepsControl s s :=
  ⟨rfl, rfl, rfl, rfl, rfl, rfl, rfl, rfl, rfl, rfl, rfl, rfl, rfl, ⟨0, rfl⟩, rfl, rfl, rfl, rfl, rfl, rfl⟩

theorem KeepsControl.trans {s t u : State} (h : KeepsControl s t) (k : KeepsControl t u) : KeepsControl s u where
  busy := k.busy.trans h.busy
  bstate := k.bstate.trans h.bstate
  session := k.session.trans h.session
  dictLoaded := k.dictLoaded.trans h.dictLoaded
  phase := k.phase.trans h.phase
  cfg := k.cfg.trans h.cfg
  lastFlush := k.lastFlush.trans h.lastFlush
  cmd := k.cmd.trans h.cmd
  err := k.err.trans h.err
  done := k.done.trans h.done
  errFlag := k.errFlag.trans h.errFlag
  intEnable := k.intEnable.trans h.intEnable
  totalTok := k.totalTok.trans h.totalTok
  inFifo := by
    obtain ⟨n, hn⟩ := h.inFifo
    obtain ⟨m, hm⟩ := k.inFifo
    exact ⟨n + m, by rw [hm, hn, List.drop_drop]⟩
  tokFifo := k.tokFifo.trans h.tokFifo
  params := k.params.trans h.params
  schedule := k.schedule.trans h.schedule
  readData := k.readData.trans h.readData
  draws := k.draws.trans h.draws
  drawIndex := k.drawIndex.trans h.drawIndex

/-- An update of the memories and of position and match registers other than `last_flush` keeps the control state. -/
theorem keepsControl_regs (s : State) (w : List Host.Cell) (h p : Cells 16) (r : EngineRegs)
    (hr : r.lastFlush = s.regs.lastFlush) : KeepsControl s { s with window := w, head := h, prev := p, regs := r } :=
  ⟨rfl, rfl, rfl, rfl, rfl, rfl, hr, rfl, rfl, rfl, rfl, rfl, rfl, ⟨0, rfl⟩, rfl, rfl, rfl, rfl, rfl, rfl⟩

theorem keepsControl_insertString (p : Nat) (s : State) : KeepsControl s (insertString p s) :=
  keepsControl_regs s _ _ _ s.regs rfl

theorem keepsControl_insertHashHead (p : Nat) (s : State) : KeepsControl s (insertHashHead p s) :=
  keepsControl_regs s _ _ _ _ rfl

theorem keepsControl_slide (s : State) : KeepsControl s (slide s) := keepsControl_regs s _ _ _ _ rfl

theorem keepsControl_slideIfDue (s : State) : KeepsControl s (slideIfDue s) := by
  unfold slideIfDue; split
  · exact keepsControl_slide s
  · exact .refl s

theorem keepsControl_takeInput (n : Nat) (s : State) : KeepsControl s (takeInput n s) :=
  ⟨rfl, rfl, rfl, rfl, rfl, rfl, rfl, rfl, rfl, rfl, rfl, rfl, rfl, ⟨n, rfl⟩, rfl, rfl, rfl, rfl, rfl, rfl⟩

theorem keepsControl_fillLoop (k : Nat) (s : State) : KeepsControl s (fillLoop k s) := by
  induction k generalizing s with
  | zero => exact .refl s
  | succ k ih =>
    rw [fillLoop]
    split
    · exact keepsControl_slideIfDue s
    · dsimp only
      split
      · exact ((keepsControl_slideIfDue s).trans (keepsControl_takeInput _ _)).trans (ih _)
      · exact (keepsControl_slideIfDue s).trans (keepsControl_takeInput _ _)

theorem keepsControl_fill (s : State) : KeepsControl s (fill s) := keepsControl_fillLoop _ s

theorem keepsControl_advance (n k : Nat) (s : State) : KeepsControl s (advance n k s) :=
  ⟨rfl, rfl, rfl, rfl, rfl, rfl, rfl, rfl, rfl, rfl, rfl, rfl, rfl, ⟨0, rfl⟩, rfl, rfl, rfl, rfl, rfl, rfl⟩

theorem keepsControl_searchFrom (c : Half) (s : State) : KeepsControl s (searchFrom c s) :=
  keepsControl_regs s s.window s.head s.prev _ rfl

theorem keepsControl_setMatchLength (n : BitVec 9) (s : State) : KeepsControl s (setMatchLength n s) :=
  keepsControl_regs s s.window s.head s.prev _ rfl

theorem keepsControl_shiftMatch (s : State) : KeepsControl s (shiftMatch s) :=
  keepsControl_regs s s.window s.head s.prev _ rfl

theorem keepsControl_endSlowMatch (s : State) : KeepsControl s (endSlowMatch s) :=
  keepsControl_regs s s.window s.head s.prev _ rfl

theorem keepsControl_hold (s : State) : KeepsControl s (hold s) :=
  keepsControl_regs s s.window s.head s.prev _ rfl

theorem keepsControl_truncate (s : State) : KeepsControl s (truncate s) := by
  unfold truncate; split
  · exact keepsControl_setMatchLength 2 s
  · exact .refl s

theorem keepsControl_insertCurrent (s : State) : KeepsControl s (insertCurrent s) := by
  unfold insertCurrent; split
  · exact keepsControl_insertHashHead _ s
  · exact .refl s

theorem keepsControl_insertSpan (n : Nat) (s : State) : KeepsControl s (insertSpan n s) := by
  induction n generalizing s with
  | zero => exact .refl s
  | succ n ih => exact ((keepsControl_advance 1 0 s).trans (keepsControl_insertHashHead _ _)).trans (ih _)

theorem keepsControl_insertSpanUpTo (b n : Nat) (s : State) : KeepsControl s (insertSpanUpTo b n s) := by
  induction n generalizing s with
  | zero => exact .refl s
  | succ n ih =>
    rw [insertSpanUpTo]
    refine .trans ?_ (ih _)
    split
    · exact (keepsControl_advance 1 0 s).trans (keepsControl_insertHashHead _ _)
    · exact keepsControl_advance 1 0 s

theorem keepsControl_storeTopState (s : State) : KeepsControl s (storeTopState s) := by
  unfold storeTopState; split
  · exact keepsControl_fill s
  · exact .refl s

theorem keepsControl_topFillState (s : State) : KeepsControl s (topFillState s) := by
  unfold topFillState; split
  · exact keepsControl_fill s
  · exact .refl s

theorem keepsControl_fastSearch (s : State) : KeepsControl s (fastSearch s) := by
  unfold fastSearch; split
  · exact keepsControl_searchFrom _ s
  · exact .refl s

theorem keepsControl_slowSearch (s : State) : KeepsControl s (slowSearch s) := by
  unfold slowSearch; split
  · refine .trans ?_ (keepsControl_truncate _)
    split
    · exact keepsControl_searchFrom _ s
    · exact .refl s
  · exact .refl s

theorem keepsControl_fastAfterMatch (s : State) : KeepsControl s (fastAfterMatch s) := by
  unfold fastAfterMatch
  dsimp only
  split
  · exact (((keepsControl_advance _ _ s).trans (keepsControl_insertSpan _ _)).trans (keepsControl_advance _ _ _)).trans
      (keepsControl_setMatchLength _ _)
  · exact ((keepsControl_advance _ _ s).trans (keepsControl_advance _ _ _)).trans (keepsControl_setMatchLength _ _)

theorem keepsControl_slowAfterMatch (s : State) : KeepsControl s (slowAfterMatch s) :=
  (((keepsControl_advance _ _ s).trans (keepsControl_insertSpanUpTo _ _ _)).trans (keepsControl_endSlowMatch _)).trans
    (keepsControl_advance _ _ _)

theorem keepsControl_fastEmit (s : State) : KeepsControl s (fastEmit s).state := by
  unfold fastEmit; split
  · exact keepsControl_fastAfterMatch s
  · exact keepsControl_advance 1 1 s

theorem keepsControl_slowEmit (s : State) : KeepsControl s (slowEmit s).state := by
  unfold slowEmit; split
  · exact keepsControl_slowAfterMatch s
  · split
    · exact keepsControl_advance 1 1 s
    · exact (keepsControl_advance 1 1 s).trans (keepsControl_hold _)

theorem keepsControl_storeIter (f : Flush) (s : State) : KeepsControl s (storeIter f s).state := by
  unfold storeIter
  dsimp only
  split
  · exact (keepsControl_storeTopState s).trans (keepsControl_advance 1 1 _)
  · exact keepsControl_storeTopState s
  · exact keepsControl_storeTopState s

theorem keepsControl_fastIter (f : Flush) (s : State) : KeepsControl s (fastIter f s).state := by
  unfold fastIter
  dsimp only
  split
  · exact (((keepsControl_topFillState s).trans (keepsControl_insertCurrent _)).trans (keepsControl_fastSearch _)).trans
      (keepsControl_fastEmit _)
  · exact keepsControl_topFillState s
  · exact keepsControl_topFillState s

theorem keepsControl_slowIter (f : Flush) (s : State) : KeepsControl s (slowIter f s).state := by
  unfold slowIter
  dsimp only
  split
  · exact ((((keepsControl_topFillState s).trans (keepsControl_insertCurrent _)).trans (keepsControl_shiftMatch _)).trans
      (keepsControl_slowSearch _)).trans (keepsControl_slowEmit _)
  · exact keepsControl_topFillState s
  · exact keepsControl_topFillState s

/-- R203: what an iteration of any flavour keeps. -/
theorem keepsControl_flavourIter (f : Flush) (s : State) : KeepsControl s (flavourIter f s).state := by
  unfold flavourIter; split
  · exact keepsControl_storeIter f s
  · exact keepsControl_fastIter f s
  · exact keepsControl_slowIter f s

/-! ## The canonical form -/

theorem memoriesWf_insertCurrent {s : State} (h : MemoriesWf s) : MemoriesWf (insertCurrent s) := by
  unfold insertCurrent; split
  · exact memoriesWf_insertHashHead _ h
  · exact h

theorem memoriesWf_storeTopState {s : State} (h : MemoriesWf s) : MemoriesWf (storeTopState s) := by
  unfold storeTopState; split
  · exact memoriesWf_fill h
  · exact h

theorem memoriesWf_topFillState {s : State} (h : MemoriesWf s) : MemoriesWf (topFillState s) := by
  unfold topFillState; split
  · exact memoriesWf_fill h
  · exact h

theorem memoriesWf_truncate {s : State} (h : MemoriesWf s) : MemoriesWf (truncate s) := by
  unfold truncate; split <;> exact h

theorem memoriesWf_fastSearch {s : State} (h : MemoriesWf s) : MemoriesWf (fastSearch s) := by
  unfold fastSearch; split <;> exact h

theorem memoriesWf_slowSearch {s : State} (h : MemoriesWf s) : MemoriesWf (slowSearch s) := by
  unfold slowSearch; split
  · apply memoriesWf_truncate; split <;> exact h
  · exact h

theorem memoriesWf_fastEmit {s : State} (h : MemoriesWf s) : MemoriesWf (fastEmit s).state := by
  unfold fastEmit; split
  · unfold fastAfterMatch
    dsimp only
    split
    · have h' : MemoriesWf (advance 0 s.regs.matchLength.toNat s) := h
      exact memoriesWf_insertSpan (s.regs.matchLength.toNat - 1) h'
    · exact h
  · exact h

theorem memoriesWf_slowEmit {s : State} (h : MemoriesWf s) : MemoriesWf (slowEmit s).state := by
  unfold slowEmit; split
  · have h' : MemoriesWf (advance 0 (s.regs.prevLength.toNat - 1) s) := h
    exact memoriesWf_insertSpanUpTo (s.regs.strstart.toNat + s.regs.lookahead.toNat) (s.regs.prevLength.toNat - 2) h'
  · split <;> exact h

/-- Every iteration keeps the canonical form. -/
theorem memoriesWf_flavourIter (f : Flush) {s : State} (h : MemoriesWf s) : MemoriesWf (flavourIter f s).state := by
  unfold flavourIter; split
  · unfold storeIter
    dsimp only
    split <;> exact memoriesWf_storeTopState h
  · unfold fastIter
    dsimp only
    split
    · exact memoriesWf_fastEmit (memoriesWf_fastSearch (memoriesWf_insertCurrent (memoriesWf_topFillState h)))
    · exact memoriesWf_topFillState h
    · exact memoriesWf_topFillState h
  · unfold slowIter
    dsimp only
    split
    · have h' : MemoriesWf (shiftMatch (insertCurrent (topFillState s))) :=
        memoriesWf_insertCurrent (memoriesWf_topFillState h)
      exact memoriesWf_slowEmit (memoriesWf_slowSearch h')
    · exact memoriesWf_topFillState h
    · exact memoriesWf_topFillState h

/-! ## How an iteration ends -/

/-- R203 to R205: NEED_MORE comes only with flush None, BREAK only with another flush and with nothing left to encode; neither has
a token. -/
theorem flavourIter_ends (f : Flush) (s : State) :
    ((flavourIter f s).ends = .needMore → f = .noFlush ∧ (flavourIter f s).token = none)
      ∧ ((flavourIter f s).ends = .leave → f ≠ .noFlush ∧ (flavourIter f s).token = none
        ∧ (flavourIter f s).state.regs.lookahead.toNat = 0) := by
  have fastEnds : ∀ u : State, (fastEmit u).ends = .cont := by intro u; unfold fastEmit; split <;> rfl
  have slowEnds : ∀ u : State, (slowEmit u).ends = .cont := by
    intro u; unfold slowEmit; split
    · rfl
    · split <;> rfl
  have store : ∀ u : State, (storeTopEnd f u = .needMore → f = .noFlush)
      ∧ (storeTopEnd f u = .leave → f ≠ .noFlush ∧ u.regs.lookahead.toNat = 0) := by
    intro u; unfold storeTopEnd; split_ifs <;> simp_all
  have top : ∀ u : State, (topFillEnd f u = .needMore → f = .noFlush)
      ∧ (topFillEnd f u = .leave → f ≠ .noFlush ∧ u.regs.lookahead.toNat = 0) := by
    intro u; unfold topFillEnd; split_ifs with h1 h2 <;> simp_all
  unfold flavourIter
  split
  · unfold storeIter
    dsimp only
    split
    · exact ⟨nofun, nofun⟩
    · rename_i h; exact ⟨fun _ => ⟨(store _).1 h, rfl⟩, nofun⟩
    · rename_i h; exact ⟨nofun, fun _ => ⟨((store _).2 h).1, rfl, ((store _).2 h).2⟩⟩
  · unfold fastIter
    dsimp only
    split
    · rw [fastEnds]; exact ⟨nofun, nofun⟩
    · rename_i h; exact ⟨fun _ => ⟨(top _).1 h, rfl⟩, nofun⟩
    · rename_i h; exact ⟨nofun, fun _ => ⟨((top _).2 h).1, rfl, ((top _).2 h).2⟩⟩
  · unfold slowIter
    dsimp only
    split
    · rw [slowEnds]; exact ⟨nofun, nofun⟩
    · rename_i h; exact ⟨fun _ => ⟨(top _).1 h, rfl⟩, nofun⟩
    · rename_i h; exact ⟨nofun, fun _ => ⟨((top _).2 h).1, rfl, ((top _).2 h).2⟩⟩

end Sys2Proof.Machine
end

