-- ==== Sys2Proof/Laws/Chains.lean ====
section
/-! SUPPORT. What a run of insertions leaves in the chains (`Inserted`): no insertion, one more, and the three loops of the spec. -/

namespace Sys2Proof.Machine

/-- No position inserted. -/
theorem inserted_none {s t : State} (lo : Nat) (hh : t.head = s.head) (hp : t.prev = s.prev) : Inserted s t lo lo where
  headOther _ _ := by rw [hh]
  headLast _ _ _ := by omega
  prevFirst _ _ _ := by omega
  prevLast _ _ _ _ _ := by omega
  prevOther _ _ := by rw [hp]

/-- `Inserted` speaks of the chains, the hashes and the window size only. -/
theorem Inserted.congr {s t u : State} {lo hi : Nat} (h : Inserted s t lo hi) (hw : u.window = t.window) (hh : u.head = t.head)
    (hp : u.prev = t.prev) (hc : u.cfg = t.cfg) : Inserted s u lo hi := by
  obtain ⟨a, b, c, d, e⟩ := h
  constructor <;> simpa only [hw, hh, hp, hc]

/-- R162: one more position, while the positions are no more than the prev table holds. -/
theorem Inserted.insertString {s t : State} {lo hi : Nat} (h : Inserted s t lo hi) (hm : MemoriesWf t) (hle : lo ≤ hi)
    (hs : hi + 1 ≤ lo + 2 ^ t.cfg.wbits.toNat) (hp : hi < 65536) : Inserted s (insertString hi t) lo (hi + 1) := by
  have hd : ∀ k, Memory.read (Memory.write t.head (hashAt t.window hi) (BitVec.ofNat 16 hi)) k
      = if k = hashAt t.window hi then BitVec.ofNat 16 hi else Memory.read t.head k := fun k =>
    Memory.read_write _ _ _ hm.2.1
  have pv : ∀ i, Memory.read (Memory.write t.prev (prevIndex t.cfg hi) (chainHead hi t)) i
      = if i = prevIndex t.cfg hi then chainHead hi t else Memory.read t.prev i := fun i =>
    Memory.read_write _ _ _ hm.2.2
  have top : (BitVec.ofNat 16 hi).toNat = hi := by simp; omega
  have other : ∀ p, lo ≤ p → p < hi → p % 2 ^ t.cfg.wbits.toNat ≠ prevIndex t.cfg hi := by
    intro p h1 h2 e
    obtain ⟨k, hk⟩ := (Nat.modEq_iff_dvd' h2.le).1 (show p ≡ hi [MOD 2 ^ t.cfg.wbits.toNat] from e)
    rcases k with _ | k
    · omega
    · rw [Nat.mul_succ] at hk
      omega
  constructor <;> simp only [insertString_head, insertString_prev, insertString_window, insertString_cfg, hd, pv]
  · intro k hk
    rw [if_neg (fun e => hk hi hle (Nat.lt_succ_self _) e.symm)]
    exact h.headOther k fun p h1 h2 => hk p h1 (by omega)
  · intro p h1 h2
    by_cases e : hashAt t.window p = hashAt t.window hi
    · rw [if_pos e, top]
      exact ⟨by omega, by omega, e.symm⟩
    · rw [if_neg e]
      have hne : p ≠ hi := fun hh => e (hh ▸ rfl)
      obtain ⟨a, b, c⟩ := h.headLast p h1 (by omega)
      exact ⟨a, by omega, c⟩
  · intro p h1 h2 hq
    by_cases e : p = hi
    · subst e
      rw [if_pos (show p % 2 ^ t.cfg.wbits.toNat = prevIndex t.cfg p from rfl)]
      exact h.headOther _ hq
    · rw [if_neg (other p h1 (by omega))]
      exact h.prevFirst p h1 (by omega) hq
  · intro p q h1 h2 h3 hq
    by_cases e : p = hi
    · subst e
      rw [if_pos (show p % 2 ^ t.cfg.wbits.toNat = prevIndex t.cfg p from rfl)]
      obtain ⟨a, b, c⟩ := h.headLast q h1 h2
      rw [hq] at a b c
      exact ⟨a, b, c⟩
    · rw [if_neg (other p (by omega) (by omega))]
      exact h.prevLast p q h1 h2 (by omega) hq
  · intro i hi'
    rw [if_neg (fun e => hi' hi hle (Nat.lt_succ_self _) e.symm)]
    exact h.prevOther i fun p h1 h2 => hi' p h1 (by omega)

/-- R162: the link of the newest position is what `InsertString` returned. -/
theorem read_prev_insertString (p : Nat) {t : State} (hm : MemoriesWf t) :
    Memory.read (insertString p t).prev (p % 2 ^ t.cfg.wbits.toNat) = chainHead p t := by
  rw [insertString_prev, Memory.read_write _ _ _ hm.2.2]
  exact if_pos rfl

/-- R129: the loop of DICT_COMMIT. -/
theorem inserted_insertRange (n p : Nat) {s t : State} {lo : Nat} (h : Inserted s t lo p) (hm : MemoriesWf t) (hle : lo ≤ p)
    (hs : p + n ≤ lo + 2 ^ t.cfg.wbits.toNat) (hp : p + n ≤ 65536) : Inserted s (insertRange p n t) lo (p + n) := by
  induction n generalizing p t with
  | zero => exact h
  | succ n ih =>
    rw [insertRange, show p + (n + 1) = p + 1 + n by omega]
    exact ih (p + 1) (h.insertString hm hle (by omega) (by omega)) (memoriesWf_insertString p hm) (by omega)
      (by rw [insertString_cfg]; omega) (by omega)

/-- One turn of a span loop moves `strstart` on by one. -/
theorem advance_one_strstart {t : State} {n : Nat} (h : t.regs.strstart.toNat + (n + 1) < 2 ^ 17) :
    (advance 1 0 t).regs.strstart.toNat = t.regs.strstart.toNat + 1 := by
  simp only [advance_regs, BitVec.toNat_add, BitVec.toNat_ofNat]
  omega

/-- R213: the span loop of the Fast flavour writes `strstart`, `hash_head` and the chains only. -/
theorem insertSpan_frame (n : Nat) (t : State) :
    insertSpan n t = { t with
      regs := { t.regs with
        strstart := (insertSpan n t).regs.strstart, hashHead := (insertSpan n t).regs.hashHead }
      head := (insertSpan n t).head
      prev := (insertSpan n t).prev } := by
  induction n generalizing t with
  | zero => rfl
  | succ n ih => exact (ih _).trans (by simp [insertSpan, BitVec.sub_zero])

/-- R219: and so does the span loop of the Slow flavour. -/
theorem insertSpanUpTo_frame (bound n : Nat) (t : State) :
    insertSpanUpTo bound n t = { t with
      regs := { t.regs with
        strstart := (insertSpanUpTo bound n t).regs.strstart, hashHead := (insertSpanUpTo bound n t).regs.hashHead }
      head := (insertSpanUpTo bound n t).head
      prev := (insertSpanUpTo bound n t).prev } := by
  induction n generalizing t with
  | zero => rfl
  | succ n ih =>
    rw [insertSpanUpTo]
    split <;> exact (ih _).trans (by simp)

/-- R219: past `max_insert` nothing is inserted. -/
theorem insertSpanUpTo_none (bound n : Nat) {t : State} (hb : bound < t.regs.strstart.toNat + 4)
    (hp : t.regs.strstart.toNat + n < 2 ^ 17) :
    (insertSpanUpTo bound n t).head = t.head ∧ (insertSpanUpTo bound n t).prev = t.prev
      ∧ (insertSpanUpTo bound n t).regs.hashHead = t.regs.hashHead := by
  induction n generalizing t with
  | zero => exact ⟨rfl, rfl, rfl⟩
  | succ n ih =>
    have e := advance_one_strstart (t := t) (n := n) (by omega)
    rw [insertSpanUpTo, if_neg (by rw [e, Config.minMatch]; omega)]
    exact ih (t := advance 1 0 t) (by rw [e]; omega) (by rw [e]; omega)

/-- R213: the span loop of the Fast flavour. -/
theorem inserted_insertSpan (n : Nat) {s t : State} {lo : Nat} (h : Inserted s t lo (t.regs.strstart.toNat + 1))
    (hm : MemoriesWf t) (hle : lo ≤ t.regs.strstart.toNat + 1)
    (hs : t.regs.strstart.toNat + 1 + n ≤ lo + 2 ^ t.cfg.wbits.toNat) (hp : t.regs.strstart.toNat + 1 + n ≤ 65536) :
    Inserted s (insertSpan n t) lo (t.regs.strstart.toNat + 1 + n)
      ∧ (insertSpan n t).regs.strstart.toNat = t.regs.strstart.toNat + n
      ∧ (0 < n → (insertSpan n t).regs.hashHead
          = Memory.read (insertSpan n t).prev ((t.regs.strstart.toNat + n) % 2 ^ t.cfg.wbits.toNat)) := by
  induction n generalizing t with
  | zero => exact ⟨h, rfl, fun hn => absurd hn (Nat.lt_irrefl 0)⟩
  | succ n ih =>
    have e := advance_one_strstart (t := t) (n := n) (by omega)
    have hm' : MemoriesWf (advance 1 0 t) := hm
    rw [insertSpan, e]
    have h1 : Inserted s (insertHashHead (t.regs.strstart.toNat + 1) (advance 1 0 t)) lo (t.regs.strstart.toNat + 1 + 1) :=
      ((h.congr rfl rfl rfl rfl : Inserted s (advance 1 0 t) lo _).insertString hm' hle
        (by rw [advance_cfg]; omega) (by omega)).congr rfl rfl rfl rfl
    have e' : (insertHashHead (t.regs.strstart.toNat + 1) (advance 1 0 t)).regs.strstart.toNat = t.regs.strstart.toNat + 1 := e
    have ec : (insertHashHead (t.regs.strstart.toNat + 1) (advance 1 0 t)).cfg = t.cfg := rfl
    obtain ⟨a, b, c⟩ := ih (by rw [e']; exact h1) (memoriesWf_insertHashHead _ hm') (by rw [e']; omega)
      (by rw [e', ec]; omega) (by rw [e']; omega)
    rw [e'] at a b
    refine ⟨by rwa [show t.regs.strstart.toNat + 1 + (n + 1) = t.regs.strstart.toNat + 1 + 1 + n by omega], by omega, fun _ => ?_⟩
    cases n with
    | zero =>
      rw [insertSpan]
      exact (read_prev_insertString _ hm').symm
    | succ n =>
      have := c (by omega)
      rwa [e', ec, show t.regs.strstart.toNat + 1 + (n + 1) = t.regs.strstart.toNat + (n + 1 + 1) by omega] at this

/-- R219: the span loop of the Slow flavour, which inserts a position `p` only if `p + 3 <= bound`. -/
theorem inserted_insertSpanUpTo (bound n : Nat) {s t : State} {lo : Nat}
    (h : Inserted s t lo (min (t.regs.strstart.toNat + 1) (bound - 2))) (hm : MemoriesWf t)
    (hle : lo ≤ min (t.regs.strstart.toNat + 1) (bound - 2))
    (hs : t.regs.strstart.toNat + 1 + n ≤ lo + 2 ^ t.cfg.wbits.toNat) (hb : bound ≤ 65536)
    (hp : t.regs.strstart.toNat + n < 2 ^ 17) :
    Inserted s (insertSpanUpTo bound n t) lo (min (t.regs.strstart.toNat + 1 + n) (bound - 2))
      ∧ (insertSpanUpTo bound n t).regs.strstart.toNat = t.regs.strstart.toNat + n
      ∧ (0 < n → t.regs.strstart.toNat + 4 ≤ bound → (insertSpanUpTo bound n t).regs.hashHead
          = Memory.read (insertSpanUpTo bound n t).prev
            (min (t.regs.strstart.toNat + n) (bound - 3) % 2 ^ t.cfg.wbits.toNat)) := by
  induction n generalizing t with
  | zero => exact ⟨h, rfl, fun hn => absurd hn (Nat.lt_irrefl 0)⟩
  | succ n ih =>
    have e := advance_one_strstart (t := t) (n := n) (by omega)
    have hm' : MemoriesWf (advance 1 0 t) := hm
    rw [insertSpanUpTo]
    rw [e]
    have ha : Inserted s (advance 1 0 t) lo (min (t.regs.strstart.toNat + 1) (bound - 2)) := h.congr rfl rfl rfl rfl
    split
    · rename_i hin
      have hin' : t.regs.strstart.toNat + 1 + 3 ≤ bound := hin
      have h1 : Inserted s (insertHashHead (t.regs.strstart.toNat + 1) (advance 1 0 t)) lo
          (min (t.regs.strstart.toNat + 1 + 1) (bound - 2)) := by
        rw [Nat.min_eq_left (by omega)] at ha hle ⊢
        exact (ha.insertString hm' hle (by rw [advance_cfg]; omega) (by omega)).congr rfl rfl rfl rfl
      have e' : (insertHashHead (t.regs.strstart.toNat + 1) (advance 1 0 t)).regs.strstart.toNat
          = t.regs.strstart.toNat + 1 := e
      have ec : (insertHashHead (t.regs.strstart.toNat + 1) (advance 1 0 t)).cfg = t.cfg := rfl
      obtain ⟨a, b, c⟩ := ih (by rw [e']; exact h1) (memoriesWf_insertHashHead _ hm') (by rw [e']; omega)
        (by rw [e', ec]; omega) (by rw [e']; omega)
      rw [e'] at a b
      refine ⟨by rwa [show t.regs.strstart.toNat + 1 + (n + 1) = t.regs.strstart.toNat + 1 + 1 + n by omega], by omega, fun _ _ => ?_⟩
      by_cases hc : 0 < n ∧ t.regs.strstart.toNat + 1 + 4 ≤ bound
      · have := c hc.1 (by rw [e']; exact hc.2)
        rwa [e', ec, show t.regs.strstart.toNat + 1 + n = t.regs.strstart.toNat + (n + 1) by omega] at this
      · have last : min (t.regs.strstart.toNat + (n + 1)) (bound - 3) = t.regs.strstart.toNat + 1 := by omega
        have stop : (insertSpanUpTo bound n (insertHashHead (t.regs.strstart.toNat + 1) (advance 1 0 t))).prev
              = (insertHashHead (t.regs.strstart.toNat + 1) (advance 1 0 t)).prev
            ∧ (insertSpanUpTo bound n (insertHashHead (t.regs.strstart.toNat + 1) (advance 1 0 t))).regs.hashHead
              = (insertHashHead (t.regs.strstart.toNat + 1) (advance 1 0 t)).regs.hashHead := by
          cases n with
          | zero => exact ⟨rfl, rfl⟩
          | succ n => exact (insertSpanUpTo_none bound _ (by rw [e']; omega) (by rw [e']; omega)).2
        rw [stop.1, stop.2, last]
        exact (read_prev_insertString _ hm').symm
    · rename_i hin
      have hin' : ¬t.regs.strstart.toNat + 1 + 3 ≤ bound := hin
      rw [Nat.min_eq_right (by omega)] at ha hle
      obtain ⟨a, b, c⟩ := ih (t := advance 1 0 t) (by rw [e, Nat.min_eq_right (by omega)]; exact ha) hm'
        (by rw [e, Nat.min_eq_right (by omega)]; exact hle) (by rw [e, advance_cfg]; omega) (by rw [e]; omega)
      rw [e] at a b
      exact ⟨by rwa [show t.regs.strstart.toNat + 1 + (n + 1) = t.regs.strstart.toNat + 1 + 1 + n by omega], by omega,
        fun _ _ => by omega⟩

end Sys2Proof.Machine
end

