-- ==== Sys2Proof/Laws/PerInstr.lean ====
section
/-! SUPPORT. Facts about instructions as syntax, one lemma per constructor. -/

namespace Sys2Proof.Laws.EncodeInWindow

/-- R60: the access that encodes the instruction lies in the 4096 bytes at the block's base. -/
def Statement (i : Instr) : Prop :=
  ∀ base : Nat, base ≤ (encode base i).address ∧ (encode base i).address < base + 4096

theorem of_wordAccess (write : Bool) (r : Reg) (v : Word) (base : Nat) :
    base ≤ (wordAccess write base r v).address ∧ (wordAccess write base r v).address < base + 4096 := by
  cases r <;> simp [wordAccess, regOffset]

theorem nop : Statement .nop := fun base => of_wordAccess true .cmd _ base
theorem init (level wbits : BitVec 4) (strategy : BitVec 2) : Statement (.init level wbits strategy) :=
  fun base => of_wordAccess true .cmd _ base
theorem setDict (n : BitVec 16) : Statement (.setDict n) := fun base => of_wordAccess true .cmd _ base
theorem run (flush : BitVec 3) : Statement (.run flush) := fun base => of_wordAccess true .cmd _ base
theorem runNone : Statement .runNone := fun base => of_wordAccess true .cmd _ base
theorem runPartial : Statement .runPartial := fun base => of_wordAccess true .cmd _ base
theorem runSync : Statement .runSync := fun base => of_wordAccess true .cmd _ base
theorem runFull : Statement .runFull := fun base => of_wordAccess true .cmd _ base
theorem runFinish : Statement .runFinish := fun base => of_wordAccess true .cmd _ base
theorem reset : Statement .reset := fun base => of_wordAccess true .cmd _ base
theorem endSession : Statement .endSession := fun base => of_wordAccess true .cmd _ base
theorem push (v : Word) : Statement (.push v) := fun base => of_wordAccess true .inData v base
theorem pop : Statement .pop := fun base => of_wordAccess false .tokData 0 base
theorem rd (offset : BitVec 12) : Statement (.rd offset) := fun base => by
  have := offset.isLt
  simp only [encode]
  omega
theorem wrIntEnable (v : Word) : Statement (.wrIntEnable v) := fun base => of_wordAccess true .intEnable v base
theorem wrIntStatus (v : Word) : Statement (.wrIntStatus v) := fun base => of_wordAccess true .intStatus v base
theorem wrCmd (v : Word) : Statement (.wrCmd v) := fun base => of_wordAccess true .cmd v base
theorem badAccess (write : Bool) (size : Size) (offset : BitVec 12) (data : Word) :
    Statement (.badAccess write size offset data) := fun base => by
  have := offset.isLt
  simp only [encode]
  omega

end Sys2Proof.Laws.EncodeInWindow
end

