-- ==== Sys2Proof/Tests/Slice0.lean ====
section
/-! SUPPORT. The model's own tests, expected values from spec/95_test_vectors.md and the rules' examples, and a witness for the
hypotheses of every obligation. -/

namespace Sys2Proof.Tests

open Sys2Proof.Machine Sys2Proof.Config

/-! ## Small states -/

/-- Parameters for the tests: an input FIFO of 4 bytes, a token FIFO of 3 tokens, the block at 0x4000. -/
def params : Params := { Params.default with inFifoDepth := 4, tokFifoDepth := 3, baseAddr := 0x4000 }

/-- A draw that leaves every entry 0. -/
def blank : Draw := ⟨[], [], []⟩

/-- After hardware reset, with one explicit draw. -/
def uninit : State := { State.resetWith params with draws := [blank] }

/-- The configuration of a level at `W = 512`, with its row of the default table. -/
def config (level : BitVec 4) (strategy : Strategy) : SessionConfig :=
  let row := levelRow params level
  ⟨level, 9, strategy, flavourOfLevel level, row.goodLength, row.maxLazy, row.niceLength, row.maxChainLength⟩

/-- A READY session. -/
def ready (level : BitVec 4) : State :=
  { uninit with session := .ready, cfg := config level .default, regs := EngineRegs.cleared }

/-- A RUN in a phase, with a flush type. -/
def running (level : BitVec 4) (phase : Phase) (flush : Flush) : State :=
  { ready level with
    busy := true, phase := phase, bstate := if flush = .finish then .finishStarted else .inProgress
    session := if flush = .finish then .finishing else .streaming
    cmd := { CommandRegs.zero with op := .run, flush := flush }
    regs := { EngineRegs.cleared with lastFlush := flush } }

/-- The bytes of a text. -/
def text (s : String) : List Byte := s.toList.map fun c => BitVec.ofNat 8 c.toNat

/-- A state with text in the window from position 0, `strstart` at `at` and the rest as lookahead. -/
def withText (s : State) (t : String) (start : Nat) : State :=
  { s with
    window := Memory.ofList (text t)
    regs := { s.regs with
      strstart := BitVec.ofNat 17 start, lookahead := BitVec.ofNat 17 ((text t).length - start) } }

/-- The FAULTED state an internal fault leaves. -/
def faulted : State := internalFault 6 (ready 1)

/-- The next state, if there is one. -/
def next? (o : Host.Outcome State Fault Refusal) : Option State :=
  match o with
  | .next t => some t
  | .fault _ => none
  | .refused _ => none

/-- One step of a state whose next turn is the given access. -/
def access (s : State) (write : Bool) (size : Size) (offset : Nat) (v : Word) : Option State :=
  next? (step { s with schedule := [.host ⟨write, size, 0x4000 + offset, v⟩] })

/-- One step of a state whose next turn is a 32-bit write to `CMD`. -/
def command (s : State) (v : Word) : Option State := access s true .word 0x008 v

/-! ## Well-formedness: each check refuses an ill-formed term -/

theorem test_wf_run_legal_code_refused : Instr.wf (.run 2) = false := by decide
theorem test_wf_run_illegal_code : Instr.wf (.run 5) = true := by decide
theorem test_wf_rd_misaligned_refused : Instr.wf (.rd 0x00E) = false := by decide
theorem test_wf_rd_tok_data_refused : Instr.wf (.rd 0x024) = false := by decide
theorem test_wf_rd_status : Instr.wf (.rd 0x00C) = true := by decide
theorem test_wf_wrCmd_legal_word_refused : Instr.wf (.wrCmd 0x00000023) = false := by decide
theorem test_wf_badAccess_good_access_refused : Instr.wf (.badAccess true .word 0x01C 0) = false := by decide
theorem test_wf_badAccess_unwritten_lane_refused : Instr.wf (.badAccess true .byte 0x01C 0x161) = false := by decide
theorem test_wf_badAccess_read_data_refused : Instr.wf (.badAccess false .byte 0x01C 1) = false := by decide

/-! ## Decoding: words written out from 30_encoding.md -/

theorem test_decode_nop : decodeCommand 0b00000000000000000000000000000000 = .nop := by decide
theorem test_decode_init : decodeCommand 0b00000000000000000001100100010001 = .init 1 9 1 := by decide
theorem test_decode_setDict : decodeCommand 0b00000000000111010000000000000010 = .setDict 29 := by decide
theorem test_decode_run : decodeCommand 0b00000000000000000000000001010011 = .run 5 := by decide
theorem test_decode_runNone : decodeCommand 0b00000000000000000000000000000011 = .runNone := by decide
theorem test_decode_runPartial : decodeCommand 0b00000000000000000000000000010011 = .runPartial := by decide
theorem test_decode_runSync : decodeCommand 0b00000000000000000000000000100011 = .runSync := by decide
theorem test_decode_runFull : decodeCommand 0b00000000000000000000000000110011 = .runFull := by decide
theorem test_decode_runFinish : decodeCommand 0b00000000000000000000000001000011 = .runFinish := by decide
theorem test_decode_reset : decodeCommand 0b00000000000000000000000000000100 = .reset := by decide
theorem test_decode_endSession : decodeCommand 0b00000000000000000000000000000101 = .endSession := by decide
theorem test_decode_push : decode 0x4000 ⟨true, .word, 0x401C, 0x12345661⟩ = .ok (.push 0x12345661) := by decide
theorem test_decode_pop : decode 0x4000 ⟨false, .word, 0x4024, 0⟩ = .ok .pop := by decide
theorem test_decode_rd : decode 0x4000 ⟨false, .word, 0x4FFC, 7⟩ = .ok (.rd 0xFFC) := by decide
theorem test_decode_wrIntEnable : decode 0x4000 ⟨true, .word, 0x403C, 8⟩ = .ok (.wrIntEnable 8) := by decide
theorem test_decode_wrIntStatus : decode 0x4000 ⟨true, .word, 0x4040, 3⟩ = .ok (.wrIntStatus 3) := by decide
theorem test_decode_wrCmd : decode 0x4000 ⟨true, .word, 0x4008, 0x00010003⟩ = .ok (.wrCmd 0x00010003) := by decide
theorem test_decode_badAccess : decode 0x4000 ⟨true, .half, 0x401E, 0xABCD1234⟩
    = .ok (.badAccess true .half 0x01E 0xABCD0000) := by decide
theorem test_decode_outside : decode 0x4000 ⟨false, .word, 0x5000, 0⟩ = .error .outsideRegisterSpace := by decide

/-- The table's own words (spec/opcode_table.json `match`). -/
theorem test_table_words : decodeTableWord 32 0x00000001 = some (.init 0 0 0)
    ∧ decodeTableWord 32 0x00000043 = some .runFinish ∧ decodeTableWord 16 0x001C = some (.push 0)
    ∧ decodeTableWord 16 0x0024 = some .pop ∧ decodeTableWord 16 0x003C = some (.wrIntEnable 0)
    ∧ decodeTableWord 16 0x0040 = some (.wrIntStatus 0) ∧ decodeTableWord 16 0x000C = some (.rd 0x00C) := by decide

/-- The placed word is the first instruction that runs from reset (`ID`, V-A1). -/
theorem test_withFetchWord : (next? (step (State.reset.withFetchWord 16 0))).map (·.readData) = some 0x4C5A4D45 := by
  decide

/-! ## Commands (95_test_vectors.md 2.1) -/

theorem test_nop_while_busy : command (running 1 .runIter .syncFlush) 0 = some (running 1 .runIter .syncFlush) := by decide

theorem test_init_accepted : (command uninit 0x000000F1).map (fun t => (t.busy, t.phase, t.cmd.level, t.cmd.wbits))
    = some (true, .initOp, 6, 15) := by decide
theorem test_init_bad_param : (command (ready 1) 0x000008F1).map
    (fun t => (registerValue t .errCode, registerValue t .errInfo)) = some (0x00080A02, 0x000008F1) := by decide
theorem test_init_step : (let t := engineStep { uninit with
      busy := true, phase := .initOp, cmd := { CommandRegs.zero with op := .init, level := 6, wbits := 15 } }
    (registerValue t .config, registerValue t .param0, registerValue t .param1, registerValue t .status))
    = (0x000008F6, 0x00100008, 0x00800080, 0x00000A10) := by decide

theorem test_setDict_accepted : (command (ready 6) 0x00030002).map (fun t => (t.phase, t.cmd.dictLeft.toNat))
    = some (.dictPop, 3) := by decide
theorem test_setDict_empty : (command (ready 6) 0x00000002).map (·.phase) = some .dictCommit := by decide

theorem test_run_bad_param_before_bad_state : (command uninit 0x00000053).map (registerValue · .errCode)
    = some 0x00080A02 := by decide
theorem test_runNone_while_busy : (command (running 1 .runIter .syncFlush) 0x00000003).map (registerValue · .errCode)
    = some 0x00080A04 := by decide
theorem test_runPartial_accepted : (command (ready 1) 0x00000013).map (registerValue · .status)
    = some 0x00060A1D := by decide
theorem test_runSync_bad_state : (command uninit 0x00000023).map
    (fun t => (registerValue t .errCode, registerValue t .errInfo)) = some (0x00080A03, 0x00000023) := by decide
theorem test_runFull_accepted : (command (ready 1) 0x00000033).map (fun t => (t.phase, t.bstate, t.cmd.flush))
    = some (.runStart, .inProgress, .fullFlush) := by decide
theorem test_runFinish_accepted : (command (ready 1) 0x00000043).map (fun t => (t.session, t.bstate))
    = some (.finishing, .finishStarted) := by decide

theorem test_reset_step : registerValue (engineStep { ready 6 with
    busy := true, phase := .resetOp, session := .finished, dictLoaded := true, tokFifo := [.lit 1] }) .status
    = 0x00000A10 := by decide
theorem test_reset_reserved_bit : (command (ready 1) 0x00000014).map (registerValue · .errCode)
    = some 0x00080A01 := by decide
theorem test_end_accepted : (command (ready 1) 0x00000005).map (fun t => (t.busy, t.phase)) = some (true, .endOp) := by
  decide
theorem test_end_closes : (let t := endOp { ready 6 with busy := true, phase := .endOp, tokFifo := [.lit 1] }
    (registerValue t .status, registerValue t .config, t.done)) = (0x00000A00, 0, true) := by rfl

theorem test_wrCmd_reserved_opcode : (command (ready 1) 0x00000006).map
    (fun t => (registerValue t .errCode, registerValue t .errInfo)) = some (0x00080A01, 0x00000006) := by decide
theorem test_wrCmd_busy_first : (command (running 1 .runIter .syncFlush) 0x00000006).map (registerValue · .errCode)
    = some 0x00080A04 := by decide

/-! ## Accesses (95_test_vectors.md 2.3) -/

theorem test_push : (access (ready 1) true .word 0x01C 0x12345661).map
    (fun t => (t.inFifo, registerValue t .inCount, registerValue t .status)) = some ([0x61], 1, 0x00000810) := by decide
theorem test_push_overflow : (access { ready 1 with inFifo := [1, 2, 3, 4] } true .word 0x01C 5).map
    (fun t => (t.inFifo.length, registerValue t .errCode)) = some (4, 0x001C0A05) := by decide
theorem test_pop : (access { ready 1 with tokFifo := [.lit 0x61, .mark .finish] } false .word 0x024 0).map
    (fun t => (t.readData, t.tokFifo)) = some (0x00000061, [.mark .finish]) := by decide
theorem test_pop_empty : (access (ready 1) false .word 0x024 0).map (fun t => (t.readData, t.errFlag))
    = some (0xC0000000, false) := by decide
theorem test_rd_status : (access uninit false .word 0x00C 0).map (·.readData) = some 0x00000A00 := by decide
theorem test_rd_reserved : (access { uninit with readData := 9 } false .word 0x100 0).map (fun t => (t.readData, t.errFlag))
    = some (0, false) := by decide
theorem test_wrIntEnable : (access uninit true .word 0x03C 0xFFFFFFFF).map (fun t => (registerValue t .intEnable, irq t))
    = some (0x0000000F, true) := by decide
theorem test_wrIntStatus_clears : (access (commandError .busy 3 { ready 1 with done := true }) true .word 0x040 2).map
    (fun t => (registerValue t .errCode, t.errFlag, t.done)) = some (0, false, true) := by decide
theorem test_wrIntStatus_faulted : (access { faulted with done := true } true .word 0x040 3).map
    (fun t => (t.err.code, t.errFlag, t.done)) = some (.internal, true, false) := by decide
theorem test_badAccess_byte_write : (access uninit true .byte 0x01C 0x61).map
    (fun t => (t.inFifo, registerValue t .errCode, registerValue t .errInfo)) = some ([], 0x001C0206, 0x00000061) := by
  decide
theorem test_badAccess_half_read : (access { uninit with readData := 9 } false .half 0x00C 0).map
    (fun t => (t.readData, registerValue t .errCode, registerValue t .errInfo)) = some (0, 0x000C0406, 0) := by decide

/-! ## Tokens (95_test_vectors.md 2.2) -/

theorem test_token_words : tokenWord (.lit 0xFF) = 0x000000FF ∧ tokenWord (.backref 258 32506) = 0x40FF7EF9
    ∧ tokenWord (.backref 4 6) = 0x40010005 ∧ tokenWord (.mark .syncFlush) = 0x80000002 := by decide

/-! ## Memories, window and search (41_window_hash.md, 42_match_search.md) -/

theorem test_memory_write_zero_removes : Memory.write ([(3, 7)] : List Host.Cell) 3 0 = [] := by decide
theorem test_memory_write_sorted : Memory.write ([(3, 7)] : List Host.Cell) 1 5 = [(1, 5), (3, 7)] := by decide
theorem test_memory_wf_refuses : Memory.wf ([(3, 7), (1, 5)] : List Host.Cell) = false
    ∧ Memory.wf ([(3, 0)] : List Host.Cell) = false := by decide
theorem test_hash : hash3 0x61 0x62 0x63 = 0x0823 ∧ hash3 0x61 0x61 0x61 = 0x0841 := by decide
theorem test_insertString : (let t := insertHashHead 5 (withText (ready 1) "xxxxxabc" 5)
    (t.prev, t.head, t.regs.hashHead)) = ([], [(0x0823, 5)], 0) := by decide
theorem test_insertString_again : (let t := insertHashHead 9 { withText (ready 1) "xxxxxabcxabc" 9 with head := [(0x0823, 5)] }
    (t.prev, t.head, t.regs.hashHead)) = ([(9, 5)], [(0x0823, 9)], 5) := by decide
/-- The example of R167. -/
theorem test_slide : (let t := slide { ready 6 with
      window := [(700, 9)], head := [(7, 700)], prev := [(3, 300)]
      regs := { EngineRegs.cleared with strstart := 762, lookahead := 200 } }
    (t.regs.strstart, Memory.read t.window 188, t.head, t.prev)) = (250, 9, [(7, 188)], []) := by decide
/-- The example of R184. -/
theorem test_matchLen : matchLenUpTo (Memory.ofList (text "xabcabcabd")) 9 1 4 = 5 := by decide
theorem test_fill : (let t := fill { ready 1 with inFifo := [1, 2, 3] }
    (t.window, t.inFifo, t.regs.lookahead, t.totalIn)) = ([(0, 1), (1, 2), (2, 3)], [], 3, 3) := by decide

/-! ## Iterations and RUN steps (43_flavours.md) -/

/-- R214's trace at `strstart = 8`: `MATCH(len=4,dist=6)`, then (12, 0). -/
theorem test_fast_match : (let r := fastIter .finish { withText (running 1 .runIter .finish) "xabcabcQbcab" 8 with
      head := [(hash3 0x62 0x63 0x61, 2)] }
    (r.token, r.state.regs.strstart, r.state.regs.lookahead)) = (some (.backref 4 6), 12, 0) := by decide
/-- R215's example at `strstart = 12`: the held match of length 4 at 5 is emitted. -/
theorem test_slow_match : (let s := withText (running 6 .runIter .finish) "xabcQbcdeXabcde" 12
    let r := slowIter .finish { s with regs := { s.regs with
      matchLength := 4, matchStart := 5, matchAvailable := true } }
    (r.token, r.state.regs.strstart, r.state.regs.matchAvailable)) = (some (.backref 4 6), 15, false) := by decide
/-- R221's example: the first iteration emits nothing. -/
theorem test_slow_defers : (let r := slowIter .syncFlush (withText (running 6 .runIter .syncFlush) "xabc" 0)
    (r.token, r.state.regs.matchAvailable, r.state.regs.strstart)) = (none, true, 1) := by decide
/-- Log 19: a slide between the search and the emission keeps the distance 250 of a match at `W - 1`. -/
theorem test_slow_match_across_slide : (let s := running 6 .runIter .finish
    (slowIter .finish { s with regs := { s.regs with
      strstart := 762, lookahead := 5, matchLength := 3, matchStart := 511, matchAvailable := true } }).token)
    = some (.backref 3 250) := by decide
theorem test_store_literal : (let r := storeIter .syncFlush (withText (running 0 .runIter .syncFlush) "abc" 1)
    (r.token, r.state.regs.lookahead)) = (some (.lit 0x62), 1) := by decide
theorem test_runStart_noProgress : (let t := engineStep { running 6 .runStart .syncFlush with session := .streaming }
    (t.bstate, t.busy, t.done)) = (.noProgress, false, true) := by decide
theorem test_runTail_held_byte : (let s := withText (running 6 .runTail .syncFlush) "abc" 3
    (engineStep { s with regs := { s.regs with matchAvailable := true } }).tokFifo) = [.lit 0x63] := by decide
theorem test_runMark_full : (let t := engineStep { running 6 .runMark .fullFlush with
      head := [(5, 1)], regs := { EngineRegs.cleared with strstart := 3 } }
    (t.head, t.tokFifo, t.bstate)) = ([], [.mark .fullFlush], .blockDone) := by decide
theorem test_dictPop : (let t := engineStep { ready 6 with
      busy := true, phase := .dictPop, inFifo := [1, 2], cmd := { CommandRegs.zero with dictTotal := 1, dictLeft := 1 } }
    (t.phase, t.inFifo, t.cmd.dictBuf)) = (.dictCommit, [2], [1]) := by decide
/-- R284's example: the dictionary "hel" leaves only position 0 inserted and `strstart = 3`. -/
theorem test_dictCommit : (let t := engineStep { ready 6 with
      busy := true, phase := .dictCommit, cmd := { CommandRegs.zero with dictTotal := 3, dictBuf := text "hel" } }
    (t.regs.strstart, t.head, t.dictLoaded, t.window.length)) = (3, [], true, 3) := by decide
/-- R250: invariant 1 broken: nothing but the record and FAULTED. -/
theorem test_internal_fault : (let t := engineStep { running 6 .runTail .syncFlush with
      regs := { EngineRegs.cleared with strstart := 1024, lookahead := 1 } }
    (t.session, t.phase, t.busy, registerValue t .errCode, registerValue t .errInfo))
    = (.faulted, .faulted, false, 0x0FFF0007, 1) := by decide

/-- R226: a match that reaches back before the stream, the dictionary or the last Full flush: 5 bytes before it, distance 6. -/
theorem test_internal_fault_history : (let t := engineStep { withText (running 1 .runIter .finish) "xabcabcQbcab" 8 with
      head := [(hash3 0x62 0x63 0x61, 2)], history := 5 }
    (t.session, registerValue t .errCode, registerValue t .errInfo, t.tokFifo)) = (.faulted, 0x0FFF0007, 6, []) := by decide
/-- Log 20: the match at distance `MAX_DIST` = 250 from position `W` = 512, the only earlier place of its string. With 262 bytes
buffered no FILL runs and it is found; with 261 and one more in the FIFO, FILL slides (R166), R167 makes the head entry `NIL`, and
the same byte is a literal. -/
theorem test_slide_loses_position_W : (let s := { ready 1 with
      window := [(512, 1), (513, 2), (514, 3), (762, 1), (763, 2), (764, 3), (765, 4)], head := [(hash3 1 2 3, 512)]
      regs := { EngineRegs.cleared with strstart := 762, lookahead := 262 } }
    ((fastIter .noFlush s).token,
      (fastIter .noFlush { s with inFifo := [0], regs := { s.regs with lookahead := 261 } }).token))
    = (some (.backref 3 250), some (.lit 1)) := by decide
/-- Log 22: `hash_head` = 100 from before a slide is below the new `strstart` = 250 and within `MAX_DIST`, so the search runs; with a
lookahead of 2 the token is the literal all the same. -/
theorem test_stale_hash_head : (let s := { running 1 .runIter .syncFlush with
      window := [(762, 7)], regs := { EngineRegs.cleared with strstart := 762, lookahead := 2, hashHead := 100 } }
    ((topFillState s).regs.strstart, candidateInReach (topFillState s), (fastIter .syncFlush s).token))
    = (250, true, some (.lit 7)) := by decide

/-! ## Witnesses: states and operands that meet the hypotheses of the obligations, one theorem each, a conjunct per clause -/

theorem witness_EncodedInstructionsDecodeBack : Instr.wf (.badAccess true .half 0x01E 0xABCD0000) = true
    ∧ Instr.wf (.run 7) = true ∧ Instr.wf (.rd 0xFFC) = true ∧ Instr.wf (.wrCmd 0xFFFFFFFF) = true
    ∧ Instr.wf (.init 15 0 3) = true := by decide
theorem witness_DecodedAccessesEncodeBack :
    decode 0x4000 ⟨true, .byte, 0x4FFF, 0x12345678⟩ = .ok (.badAccess true .byte 0xFFF 0x12000000)
    ∧ decode 0x4000 ⟨false, .word, 0x4000, 7⟩ = .ok (.rd 0) := by decide
theorem witness_TokenWordsDecodeBack : (let c := { config 6 .default with wbits := 15 }
    tokenInBounds c (.backref 258 32506) = true ∧ tokenInBounds c (.backref 3 1) = true
    ∧ tokenInBounds c (.lit 0xFF) = true ∧ tokenInBounds c (.mark .finish) = true) := by decide
theorem witness_StepRunsTheDecodedAccess : params.ok = true
    ∧ decode params.baseAddr ⟨true, .word, 0x401C, 0x61⟩ = .ok (.push 0x61)
    ∧ { ready 1 with schedule := [.host ⟨true, .word, 0x401C, 0x61⟩] }.schedule
      = .host ⟨true, .word, 0x401C, 0x61⟩ :: [] := by decide
theorem witness_StepGivesTheEngineItsTurnOrStops : (ready 1).params.ok = true ∧ (ready 1).schedule = []
    ∧ { ready 1 with schedule := [.engine] }.schedule = .engine :: []
    ∧ { params with tokFifoDepth := 0 }.ok = false ∧ { params with levelTable := defaultLevelTable.set 5 ⟨8, 16, 32, 1⟩ }.ok = false
    ∧ ¬(params.baseAddr ≤ 0x5000 ∧ 0x5000 < params.baseAddr + 4096) ∧ ¬(params.baseAddr ≤ 0x3FFF ∧ 0x3FFF < params.baseAddr + 4096)
    ∧ (params.baseAddr ≤ 0x4FFF ∧ 0x4FFF < params.baseAddr + 4096) := by decide
theorem witness_HardwareResetGivesTheResetTable : { faulted with schedule := [.hardReset] }.schedule = .hardReset :: []
    ∧ faulted.params.ok = true ∧ Params.default.ok = true := by decide
theorem witness_RegisterFieldsAreAtTheirBits : (ready 6).inFifo.length < 2 ^ 24 ∧ (ready 6).tokFifo.length < 2 ^ 24
    ∧ { ready 6 with tokFifo := [.lit 1] }.tokFifo = .lit 1 :: [] ∧ (ready 6).tokFifo = [] := by decide
theorem witness_NopHasNoEffect : (0x00000010 : Word).toNat % 16 = 0 ∧ (0x00000010 : Word) ≠ 0
    ∧ (0x80000000 : Word).toNat % 16 = 0 := by decide
theorem witness_InitIsAccepted : uninit.busy = false ∧ uninit.session = .uninit ∧ (ready 1).session = .ready
    ∧ { ready 1 with session := .finished }.session = .finished
    ∧ (0#4).toNat ≤ 9 ∧ (9#4).toNat ≤ 9 ∧ (15#4).toNat = 15 ∧ (0#4).toNat = 0 ∧ 9 ≤ (9#4).toNat ∧ 9 ≤ (15#4).toNat
    ∧ 2#2 = strategyCode .huffmanOnly := by decide
theorem witness_SetDictIsAccepted : (ready 6).busy = false ∧ (ready 6).session = .ready ∧ (ready 6).dictLoaded = false := by
  decide
theorem witness_RunIsAccepted : (ready 6).busy = false ∧ (ready 6).session = .ready
    ∧ { ready 6 with session := .streaming }.session = .streaming
    ∧ ({ ready 6 with session := .finished }.session = .finished ∧ Flush.finish = .finish) := by decide
theorem witness_ResetAndEndAreAccepted : (ready 6).busy = false ∧ (ready 6).session = .ready
    ∧ { ready 6 with session := .finished }.busy = false := by decide
theorem witness_CommandChecksAreInOrder :
    ((0x00000023 : Word) ≠ 0 ∧ (ready 1).session ≠ .finishing ∧ (ready 1).busy = false)
    ∧ ((running 1 .runIter .finish).busy = true ∧ (running 1 .runIter .finish).session = .finishing)
    ∧ reservedWord 0x00000006 ∧ reservedWord 0x00000014
    ∧ (¬reservedWord 0x000000A1 ∧ outOfRange 0x000000A1) ∧ (¬reservedWord 0x00003001 ∧ outOfRange 0x00003001)
    ∧ (¬reservedWord 0x00000053 ∧ outOfRange 0x00000053)
    ∧ (¬reservedWord 0x00000023 ∧ ¬outOfRange 0x00000023 ∧ ¬sessionTable 3 2 uninit ∧ sessionTable 3 2 (ready 1))
    ∧ (¬outOfRange 0x00000901 ∧ sessionTable 1 0 uninit) := by
  refine ⟨by decide, by decide, ?_, ?_, ?_, ?_, ?_, ?_, ?_⟩ <;>
    simp [reservedWord, outOfRange, sessionTable, uninit, ready, State.resetWith]
theorem witness_PushAppendsTheByteOrIsRejected :
    ((ready 1).session = .ready ∧ (ready 1).phase = .idle ∧ (ready 1).inFifo.length ≠ (ready 1).params.inFifoDepth)
    ∧ (uninit.session ≠ .ready ∧ uninit.session ≠ .streaming) ∧ { ready 1 with phase := .endOp }.phase = .endOp
    ∧ { ready 1 with inFifo := [1, 2, 3, 4] }.inFifo.length = params.inFifoDepth := by decide
theorem witness_PopReturnsTheOldestToken : { ready 1 with tokFifo := [.lit 1] }.tokFifo = .lit 1 :: []
    ∧ (ready 1).tokFifo = [] := by decide
theorem witness_ReadReturnsTheRegister : (0x054#12).toNat = regOffset .dbgMisc ∧ 0x058 ≤ (0x058#12).toNat
    ∧ (0x008#12).toNat = 0x008 ∧ (0x01C#12).toNat = 0x01C := by decide
theorem witness_BadAccessOnlyRecords :
    decodeAt true .byte 0x01C 0x61 = .badAccess true .byte 0x01C 0x61 ∧ decodeAt false .word 0x00E 0 = .badAccess false .word 0x00E 0
    ∧ decodeAt true .word 0x058 1 = .badAccess true .word 0x058 1 := by decide
theorem witness_HostAccessesLeaveTheEngineAlone :
    exec (.push 0x61) (ready 1) = .next { ready 1 with inFifo := [0x61] }
    ∧ exec .runFinish (ready 1) = .next (acceptRun .finish { ready 1 with busy := true, cmd := { (ready 1).cmd with op := .run } })
    ∧ (∃ t, exec .runSync (commandError .illegalCmd 6 (ready 1)) = .next t) := ⟨rfl, rfl, _, rfl⟩
theorem witness_InitStepOpensASession : (let s := { uninit with busy := true, phase := .initOp }
    s.busy = true ∧ s.phase = .initOp ∧ s.draws = blank :: [] ∧ { s with draws := [] }.draws = []
    ∧ s.params.levelTable[s.cmd.level.toNat]? = some ⟨0, 0, 0, 0⟩) := by decide
theorem witness_ResetStepKeepsConfigurationAndWindow : (let s := { ready 6 with busy := true, phase := .resetOp }
    s.busy = true ∧ s.phase = .resetOp) := by decide
theorem witness_EndStepClosesTheSession : (let s := { ready 6 with busy := true, phase := .endOp }
    s.busy = true ∧ s.phase = .endOp) := by decide

/-- A SET_DICT at a step, with a dictionary of the given declared length and the bytes already popped. -/
def loading (phase : Phase) (n : BitVec 16) (popped : List Byte) : State :=
  { ready 6 with
    busy := true, phase := phase
    cmd := { CommandRegs.zero with op := .setDict, dictTotal := n, dictLeft := n, dictBuf := popped } }

theorem specInvariants_of {s : State}
    (h : (windowFits s && headsInserted s && heldByteOk s && lengthsOk s && fifosFit s) = true) : SpecInvariants s := by
  simp only [Bool.and_eq_true] at h
  exact ⟨fun _ => ⟨h.1.1.1.1, h.1.1.1.2, h.1.1.2, h.1.2⟩, h.2⟩

theorem specInvariants_loading : SpecInvariants (loading .dictPop 1 []) ∧ SpecInvariants (loading .dictCommit 3 (text "hel"))
    ∧ SpecInvariants (loading .dictCommit 2 (text "he")) :=
  ⟨specInvariants_of rfl, specInvariants_of rfl, specInvariants_of rfl⟩
theorem witness_DictPopMovesOneByte : (loading .dictPop 1 []).busy = true ∧ (loading .dictPop 1 []).phase = .dictPop
    ∧ SpecInvariants (loading .dictPop 1 []) ∧ (loading .dictPop 1 []).inFifo = []
    ∧ SpecInvariants { loading .dictPop 1 [] with inFifo := [7] } ∧ { loading .dictPop 1 [] with inFifo := [7] }.inFifo = 7 :: [] :=
  ⟨rfl, rfl, specInvariants_loading.1, rfl, specInvariants_of rfl, rfl⟩
theorem witness_DictCommitLoadsTheWindow : (let s := loading .dictCommit 3 (text "hel")
    s.busy = true ∧ s.phase = .dictCommit ∧ SpecInvariants s ∧ MemoriesWf s ∧ s.session = .ready ∧ 9 ≤ s.cfg.wbits.toNat
    ∧ (∀ h, Memory.read s.head h = 0) ∧ s.regs.lookahead.toNat = 0 ∧ s.regs.matchAvailable = false
    ∧ 3 ≤ s.cmd.dictTotal.toNat ∧ 3 ≤ s.cmd.dictBuf.length ∧ s.cmd.dictBuf.length ≤ maxDist s.cfg)
    ∧ SpecInvariants (loading .dictCommit 2 (text "he")) ∧ (loading .dictCommit 2 (text "he")).cmd.dictTotal.toNat < 3 :=
  ⟨⟨rfl, rfl, specInvariants_loading.2.1, ⟨rfl, rfl, rfl⟩, rfl, by decide, fun _ => rfl, rfl, rfl, by decide, by decide, by decide⟩,
    specInvariants_loading.2.2, by decide⟩

/-- A state with a full window of stale zeros, `strstart` at a position and `lookahead` bytes after it. -/
def positioned (s : State) (strstart lookahead : BitVec 17) : State :=
  { s with regs := { s.regs with strstart := strstart, lookahead := lookahead } }

theorem witness_InsertStringWritesTwoEntries : MemoriesWf (ready 6) ∧ 65535 < 65536 := ⟨⟨rfl, rfl, rfl⟩, by decide⟩
theorem witness_SlideRebasesEverything : MemoriesWf (positioned (ready 6) 512 0) ∧ 9 ≤ (ready 6).cfg.wbits.toNat
    ∧ 2 ^ (ready 6).cfg.wbits.toNat ≤ (positioned (ready 6) 512 0).regs.strstart.toNat := ⟨⟨rfl, rfl, rfl⟩, by decide, by decide⟩
theorem witness_FillPlacesTheInputInOrder : (let s := { positioned (ready 6) 762 261 with inFifo := [1, 2] }
    MemoriesWf s ∧ 9 ≤ s.cfg.wbits.toNat ∧ windowFits s = true ∧ s.regs.lookahead.toNat < 262) :=
  ⟨⟨rfl, rfl, rfl⟩, by decide, by decide, by decide⟩

/-- The state of `test_fast_match` at its search. -/
def searching : State := withText (running 6 .runIter .finish) "xabcabcQbcab" 8

/-- The same search with a `prev_length`, or with a chain budget of 1. -/
def searchingAbove (n : BitVec 9) : State := { searching with regs := { searching.regs with prevLength := n } }
def searchingOnce (n : BitVec 9) : State :=
  { searchingAbove n with cfg := { searching.cfg with goodLength := 8, maxChainLength := 1 } }

/-- With `prev_length` 3 the candidate 2 (length 4) is the match; with 2 or 3 a candidate 1 (length 0) is none and leaves the result
below `lookahead` = 4. -/
theorem witness_LongestMatchFindsATrueMatch : searching.regs.prevLength.toNat < longestMatch 2 searching
    ∧ (searchBest 1 searching).len ≤ searching.regs.prevLength.toNat
    ∧ (longestMatch 1 (searchingAbove 3) ≤ (searchingAbove 3).regs.prevLength.toNat
      ∧ longestMatch 1 (searchingAbove 3) < (searchingAbove 3).regs.lookahead.toNat) := by decide
theorem witness_SearchLimitsEndTheWalk :
    1 ≤ chainBudget searching ∧ 1 ≤ chainBudget (searchingOnce 2)
    ∧ (searching.regs.prevLength.toNat < matchLen searching.window (2#16).toNat searching.regs.strstart.toNat
      ∧ min searching.cfg.niceLength.toNat searching.regs.lookahead.toNat
        ≤ matchLen searching.window (2#16).toNat searching.regs.strstart.toNat)
    ∧ ((searchingOnce 2).regs.prevLength.toNat
        < matchLen (searchingOnce 2).window (2#16).toNat (searchingOnce 2).regs.strstart.toNat
      ∧ chainBudget (searchingOnce 2) = 1)
    ∧ matchLen (searchingOnce 4).window (2#16).toNat (searchingOnce 4).regs.strstart.toNat
      ≤ (searchingOnce 4).regs.prevLength.toNat ∧ chainBudget (searchingOnce 4) = 1
    ∧ ((searchingAbove 8).params.chainReduceShift = 1
      ∧ (searchingAbove 8).cfg.goodLength.toNat ≤ (searchingAbove 8).regs.prevLength.toNat)
    ∧ searching.regs.prevLength.toNat < searching.cfg.goodLength.toNat := by decide
theorem witness_IterationEndsWhenInputRunsOut : (let s := running 6 .runIter .syncFlush
    s.inFifo = [] ∧ slideDue s = false ∧ s.regs.lookahead.toNat = 0)
    ∧ (let s := positioned (running 6 .runIter .noFlush) 100 261
      s.inFifo = [] ∧ slideDue s = false ∧ s.regs.lookahead.toNat < 262 ∧ s.cmd.flush = .noFlush)
    ∧ (let s := { running 6 .runIter .noFlush with inFifo := [1, 2, 3] }
      s.regs.lookahead.toNat < 262 ∧ (fill s).inFifo = [] ∧ (fill s).regs.lookahead.toNat < 262)
    ∧ (let s := positioned (running 6 .runIter .syncFlush) 762 0
      s.cmd.flush ≠ .noFlush ∧ slideDue s = true ∧ (fill s).regs.lookahead.toNat = 0)
    ∧ (let s := { running 0 .runIter .noFlush with inFifo := [1] }
      s.regs.lookahead.toNat = 0 ∧ 0 < (fill s).regs.lookahead.toNat) := by decide
theorem witness_SearchConditions : (let s := { positioned (ready 6) 260 5 with
      regs := { (positioned (ready 6) 260 5).regs with hashHead := 10 } }
    s.regs.hashHead ≠ 0#16 ∧ sub16 s.regs.strstart.toNat s.regs.hashHead.toNat ≤ maxDist s.cfg
    ∧ s.cfg.strategy ≠ .huffmanOnly ∧ s.regs.prevLength.toNat < s.cfg.maxLazy.toNat)
    ∧ (let s := { positioned (ready 6) 261 5 with regs := { (positioned (ready 6) 261 5).regs with hashHead := 10 } }
      maxDist s.cfg < sub16 s.regs.strstart.toNat s.regs.hashHead.toNat)
    ∧ (ready 6).regs.hashHead = 0#16
    ∧ (config 6 .huffmanOnly).strategy = .huffmanOnly
    ∧ (let s := { ready 6 with regs := { (ready 6).regs with prevLength := 16 } }
      s.cfg.maxLazy.toNat ≤ s.regs.prevLength.toNat)
    ∧ 3 ≤ (positioned (ready 6) 0 3).regs.lookahead.toNat ∧ (positioned (ready 6) 0 2).regs.lookahead.toNat < 3
    ∧ (let s := positioned (running 6 .runIter .noFlush) 9 262
      262 ≤ (if s.regs.lookahead.toNat < 262 then fill s else s).regs.lookahead.toNat)
    ∧ (let s := { running 6 .runIter .syncFlush with inFifo := [1] }
      s.cmd.flush ≠ .noFlush ∧ (if s.regs.lookahead.toNat < 262 then fill s else s).regs.lookahead.toNat ≠ 0) := by decide

/-- A state with a current and a previous match. -/
def matching (s : State) (length prevLength : BitVec 9) : State :=
  { s with regs := { s.regs with matchLength := length, prevLength := prevLength, matchStart := 1, prevMatch := 1 } }

theorem witness_FastEmitsGreedily : (let s := matching (positioned (ready 1) 100 6) 3 2
    s.regs.matchLength.toNat ≤ s.cfg.maxLazy.toNat ∧ s.regs.matchLength.toNat + 3 ≤ s.regs.lookahead.toNat
    ∧ MemoriesWf s ∧ 9 ≤ s.cfg.wbits.toNat)
    ∧ (let s := matching (positioned (ready 1) 100 3) 3 2
    s.regs.matchLength.toNat ≤ s.regs.lookahead.toNat ∧ s.regs.strstart.toNat + s.regs.lookahead.toNat ≤ 65536
    ∧ 3 ≤ s.regs.matchLength.toNat ∧ s.regs.lookahead.toNat < s.regs.matchLength.toNat + 3)
    ∧ (let s := matching (positioned (ready 1) 100 262) 258 2
      s.regs.matchLength.toNat ≤ s.regs.lookahead.toNat ∧ s.cfg.maxLazy.toNat < s.regs.matchLength.toNat)
    ∧ (let s := matching (positioned (ready 1) 100 2) 2 2
      s.regs.matchLength.toNat ≤ s.regs.lookahead.toNat ∧ s.regs.matchLength.toNat < 3 ∧ 0 < s.regs.lookahead.toNat) :=
  ⟨⟨by decide, by decide, ⟨rfl, rfl, rfl⟩, by decide⟩, by decide⟩
theorem witness_ShortMatchesAreTruncated : (let s := matching { ready 6 with cfg := config 6 .filtered } 5 2
    s.regs.matchLength.toNat ≤ 5 ∧ s.cfg.strategy = .filtered)
    ∧ (let s := matching (positioned (ready 6) 4098 9) 3 2
      s.regs.matchLength.toNat = 3 ∧ 4096 < sub16 s.regs.strstart.toNat s.regs.matchStart.toNat)
    ∧ 5 < (matching (ready 6) 6 2).regs.matchLength.toNat
    ∧ (let s := matching (positioned (ready 6) 4097 9) 3 2
      s.cfg.strategy ≠ .filtered ∧ sub16 s.regs.strstart.toNat s.regs.matchStart.toNat ≤ 4096)
    ∧ (matching (ready 6) 4 2).regs.matchLength.toNat ≠ 3 := by decide
theorem witness_SlowEmitsThePreviousMatch : (let s := matching (positioned (ready 6) 100 2) 3 3
    3 ≤ s.regs.prevLength.toNat ∧ s.regs.matchLength.toNat ≤ s.regs.prevLength.toNat
    ∧ s.regs.prevLength.toNat ≤ s.regs.lookahead.toNat + 1 ∧ s.regs.strstart.toNat + s.regs.lookahead.toNat ≤ 65536
    ∧ s.regs.lookahead.toNat < 4)
    ∧ (let s := matching (positioned (ready 6) 100 4) 3 3
    s.regs.prevLength.toNat ≤ s.regs.lookahead.toNat + 1 ∧ 4 ≤ s.regs.lookahead.toNat ∧ MemoriesWf s ∧ 9 ≤ s.cfg.wbits.toNat) :=
  ⟨by decide, by decide, by decide, ⟨rfl, rfl, rfl⟩, by decide⟩
theorem witness_SlowDefersALiteral : (matching (ready 6) 3 2).regs.prevLength.toNat < 3
    ∧ (matching (ready 6) 4 3).regs.prevLength.toNat < (matching (ready 6) 4 3).regs.matchLength.toNat := by decide
theorem witness_SpanInsertionsStayInsideTheInput : (let s := matching (positioned (ready 6) 100 2) 2 3
    MemoriesWf s ∧ 9 ≤ s.cfg.wbits.toNat ∧ s.regs.strstart.toNat + s.regs.lookahead.toNat ≤ 65536
    ∧ 3 ≤ s.regs.prevLength.toNat ∧ s.regs.prevLength.toNat ≤ s.regs.lookahead.toNat + 1)
    ∧ (let s := matching (positioned (ready 1) 100 6) 3 2
      MemoriesWf s ∧ 9 ≤ s.cfg.wbits.toNat ∧ s.regs.strstart.toNat + s.regs.lookahead.toNat ≤ 65536
      ∧ 3 ≤ s.regs.matchLength.toNat ∧ s.regs.matchLength.toNat ≤ s.regs.lookahead.toNat) :=
  ⟨⟨⟨rfl, rfl, rfl⟩, by decide, by decide, by decide, by decide⟩, ⟨rfl, rfl, rfl⟩, by decide, by decide, by decide, by decide⟩

theorem specInvariants_running :
    SpecInvariants (running 6 .runStart .syncFlush) ∧ SpecInvariants (running 6 .runStart .finish)
    ∧ SpecInvariants { running 6 .runStart .finish with session := .finished }
    ∧ SpecInvariants (running 6 .runMark .fullFlush) ∧ SpecInvariants (running 6 .runMark .finish)
    ∧ SpecInvariants (running 6 .runTail .syncFlush) ∧ SpecInvariants (running 1 .runTail .finish)
    ∧ SpecInvariants { positioned (running 6 .runTail .syncFlush) 1 0 with
        regs := { (positioned (running 6 .runTail .syncFlush) 1 0).regs with matchAvailable := true } }
    ∧ SpecInvariants { running 6 .runStart .syncFlush with inFifo := [1, 2, 3, 4] } := by
  refine ⟨?_, ?_, ?_, ?_, ?_, ?_, ?_, ?_, ?_⟩ <;> exact specInvariants_of rfl

theorem witness_RunStartAppliesTheNoProgressRule :
    ((running 6 .runStart .syncFlush).busy = true ∧ (running 6 .runStart .syncFlush).phase = .runStart)
    ∧ (SpecInvariants { running 6 .runStart .finish with session := .finished }
      ∧ { running 6 .runStart .finish with session := .finished }.session = .finished)
    ∧ (let s := running 6 .runStart .syncFlush
      SpecInvariants s ∧ s.session ≠ .finished ∧ s.session ≠ .uninit ∧ s.session ≠ .faulted ∧ s.inFifo = []
      ∧ (flushCode s.cmd.flush).toNat ≤ (flushCode s.regs.lastFlush).toNat ∧ s.cmd.flush ≠ .finish)
    ∧ (SpecInvariants { running 6 .runStart .syncFlush with inFifo := [1, 2, 3, 4] }
      ∧ SpecInvariants (running 6 .runStart .finish) ∧ (running 6 .runStart .finish).cmd.flush = .finish
      ∧ (flushCode (ready 6).regs.lastFlush).toNat < (flushCode .partialFlush).toNat) :=
  have h := specInvariants_running
  ⟨by decide, ⟨h.2.2.1, rfl⟩, ⟨h.1, by decide⟩, h.2.2.2.2.2.2.2.2, h.2.1, by decide⟩
theorem witness_RunTailAndMarkEndTheRun :
    (let s := { positioned (running 6 .runTail .syncFlush) 1 0 with
        regs := { (positioned (running 6 .runTail .syncFlush) 1 0).regs with matchAvailable := true } }
    s.busy = true ∧ SpecInvariants s ∧ inSession s = true ∧ s.tokFifo.length < s.params.tokFifoDepth ∧ s.phase = .runTail
    ∧ s.cfg.flavour = .slow ∧ s.regs.matchAvailable = true)
    ∧ (SpecInvariants (running 1 .runTail .finish) ∧ (running 1 .runTail .finish).cfg.flavour ≠ .slow
      ∧ SpecInvariants (running 6 .runTail .syncFlush) ∧ (running 6 .runTail .syncFlush).regs.matchAvailable = false)
    ∧ (SpecInvariants (running 6 .runMark .fullFlush) ∧ (running 6 .runMark .fullFlush).cmd.flush = .fullFlush
      ∧ SpecInvariants (running 6 .runMark .finish) ∧ (running 6 .runMark .finish).phase = .runMark) :=
  have h := specInvariants_running
  ⟨⟨rfl, h.2.2.2.2.2.2.2.1, rfl, by decide, rfl, rfl, rfl⟩, ⟨h.2.2.2.2.2.2.1, by decide, h.2.2.2.2.2.1, rfl⟩,
    h.2.2.2.1, rfl, h.2.2.2.2.1, rfl⟩
theorem witness_RunIterFollowsTheIteration :
    (let s := running 6 .runIter .noFlush
    s.busy = true ∧ s.phase = .runIter ∧ s.tokFifo.length < s.params.tokFifoDepth ∧ NothingBroken s
      ∧ (flavourIter .noFlush s).ends = .needMore)
    ∧ (let s := running 6 .runIter .syncFlush
      NothingBroken s ∧ (flavourIter .syncFlush s).ends = .leave)
    ∧ (let s := withText (running 6 .runIter .syncFlush) "abc" 0
      NothingBroken s ∧ (flavourIter .syncFlush s).ends = .cont ∧ (flavourIter .syncFlush s).token = none)
    ∧ (let s := { withText (running 1 .runIter .finish) "xabcabcQbcab" 8 with head := [(hash3 0x62 0x63 0x61, 2)], history := 8 }
      NothingBroken s ∧ (flavourIter .finish s).ends = .cont ∧ (flavourIter .finish s).token = some (.backref 4 6)) := by
  refine ⟨⟨rfl, rfl, by decide, ?_, by decide⟩, ⟨?_, by decide⟩, ⟨?_, by decide⟩, ?_, by decide⟩ <;>
    exact ⟨specInvariants_of (by decide), by decide⟩
theorem witness_StalledEngineChangesNothing :
    (let s := { running 6 .runMark .syncFlush with tokFifo := [.lit 1, .lit 2, .lit 3] }
    s.phase = .runMark ∧ s.params.tokFifoDepth ≤ s.tokFifo.length)
    ∧ ((loading .dictPop 1 []).phase = .dictPop ∧ (loading .dictPop 1 []).inFifo = [])
    ∧ (ready 6).busy = false ∧ (ready 6).phase = .idle ∧ faulted.phase = .faulted := by decide
theorem witness_EngineStepsOnlyAppendTokens : (running 6 .runMark .syncFlush).phase ≠ .initOp
    ∧ (running 6 .runMark .syncFlush).phase ≠ .resetOp ∧ (running 6 .runMark .syncFlush).phase ≠ .endOp := by decide
theorem witness_EveryIterationUsesUpInput :
    (let s := matching (withText (running 6 .runIter .syncFlush) "abcabc" 4) 3 2
    9 ≤ s.cfg.wbits.toNat ∧ windowFits s = true ∧ (s.cfg.flavour = .slow ∧ s.regs.matchLength.toNat ≤ s.regs.lookahead.toNat + 1)
    ∧ s.regs.prevLength.toNat ≤ 2 ∧ (flavourIter .syncFlush s).ends = .cont)
    ∧ (let s := withText (running 1 .runIter .syncFlush) "abc" 0
      s.regs.matchLength.toNat ≤ 2 ∧ s.regs.prevLength.toNat ≤ 2 ∧ (flavourIter .syncFlush s).ends = .cont) := by decide
theorem witness_FastMatchesReproduceTheInput : (let s := { withText (running 1 .runIter .finish) "xabcabcQbcab" 8 with
      head := [(hash3 0x62 0x63 0x61, 2)] }
    s.regs.matchLength.toNat ≤ 2 ∧ s.regs.prevLength.toNat = 2 ∧ (fastIter .finish s).token = some (.backref 4 6)) := by decide
theorem witness_SlowMatchesReproduceTheInput :
    (let s := { withText (running 6 .runIter .finish) "xabcabcQbcab" 8 with head := [(hash3 0x62 0x63 0x61, 2)] }
    9 ≤ s.cfg.wbits.toNat ∧ windowFits s = true ∧ 3 ≤ (slowIter .finish s).state.regs.matchLength.toNat
    ∧ (slowIter .finish s).ends = .cont)
    ∧ (let s := matching (withText (running 6 .runIter .finish) "xabcabc" 5) 3 2
      windowFits s = true ∧ (slowIter .finish s).token = some (.backref 3 3)) := by decide
theorem witness_StoreRunEncodesEveryByte : (let s := { running 0 .runStart .finish with inFifo := [1, 2] }
    s.busy = true ∧ s.phase = .runStart ∧ ControlOk s ∧ SpecInvariants s ∧ MemoriesWf s ∧ s.cfg.flavour = .store
    ∧ s.regs.lookahead.toNat = 0 ∧ s.session ≠ .finished ∧ s.cmd.flush ≠ .noFlush ∧ s.cmd.flush = .finish
    ∧ s.inFifo ≠ [] ∧ s.tokFifo.length + s.inFifo.length + 1 ≤ s.params.tokFifoDepth)
    ∧ (flushCode .noFlush).toNat < (flushCode .syncFlush).toNat :=
  ⟨⟨rfl, rfl, by constructor <;> decide, specInvariants_of rfl, ⟨rfl, rfl, rfl⟩, rfl, rfl, by decide, by decide, rfl,
    by decide, by decide⟩, by decide⟩

theorem witness_BrokenInvariantRaisesInternalFault :
    (let s := positioned (running 1 .runTail .syncFlush) 1024 1
    enabled s = true ∧ inSession (wouldLeave s) = true ∧ windowFits (wouldLeave s) = false)
    ∧ (let s := { running 1 .runTail .syncFlush with head := [(5, 9)] }
      enabled s = true ∧ windowFits (wouldLeave s) = true ∧ headsInserted (wouldLeave s) = false)
    ∧ (let s := { running 1 .runTail .syncFlush with regs := { EngineRegs.cleared with matchAvailable := true } }
      enabled s = true ∧ headsInserted (wouldLeave s) = true ∧ heldByteOk (wouldLeave s) = false)
    ∧ (let s := { running 1 .runTail .syncFlush with regs := { EngineRegs.cleared with prevLength := 259 } }
      enabled s = true ∧ heldByteOk (wouldLeave s) = true ∧ lengthsOk (wouldLeave s) = false)
    ∧ (let s := { running 1 .runTail .syncFlush with inFifo := [1, 2, 3, 4, 5] }
      enabled s = true ∧ lengthsOk (wouldLeave s) = true ∧ fifosFit (wouldLeave s) = false) := by decide
theorem witness_BrokenBoundsRaiseInternalFault :
    (let s := matching (positioned (running 1 .runIter .syncFlush) 1 9) 3 2
    enabled s = true ∧ inSession (wouldLeave s) = true ∧ windowFits (wouldLeave s) = true ∧ headsInserted (wouldLeave s) = true
    ∧ heldByteOk (wouldLeave s) = true ∧ lengthsOk (wouldLeave s) = true ∧ fifosFit (wouldLeave s) = true
    ∧ (attempt s).token = some (.backref 3 0) ∧ tokenInBounds (wouldLeave s).cfg (.backref 3 0) = false)
    ∧ (let s := { withText (running 1 .runIter .finish) "xabcabcQbcab" 8 with head := [(hash3 0x62 0x63 0x61, 2)], history := 5 }
    enabled s = true ∧ windowFits (wouldLeave s) = true ∧ headsInserted (wouldLeave s) = true
    ∧ heldByteOk (wouldLeave s) = true ∧ lengthsOk (wouldLeave s) = true ∧ fifosFit (wouldLeave s) = true
    ∧ (attempt s).token = some (.backref 4 6) ∧ tokenInHistory (wouldLeave s).history (.backref 4 6) = false) := by decide
theorem witness_FaultedIsLeftOnlyByHardwareReset : Frozen faulted ∧ (∃ t, step faulted = .next t)
    ∧ (∀ rest, faulted.schedule ≠ .hardReset :: rest)
    ∧ (∃ t, step { faulted with schedule := [.host ⟨true, .word, 0x4008, 1⟩] } = .next t) :=
  ⟨⟨rfl, rfl, rfl, rfl, rfl⟩, ⟨_, rfl⟩, fun _ => by simp [faulted, internalFault, ready, uninit, State.resetWith], ⟨_, rfl⟩⟩
theorem witness_ResetMeetsTheInvariants : Params.default.ok = true ∧ params.ok = true := by decide

theorem controlOk_running : ControlOk (running 6 .runMark .finish) := by constructor <;> decide
theorem tokenFifoOk_one : TokenFifoOk { running 6 .runMark .finish with tokFifo := [.backref 258 250] } := by
  unfold TokenFifoOk
  decide
theorem witness_StepsKeepMemoriesCanonical : MemoriesWf (running 6 .runMark .finish)
    ∧ ∃ t, step (running 6 .runMark .finish) = .next t := ⟨⟨rfl, rfl, rfl⟩, _, rfl⟩
theorem witness_StepsKeepTheControlStateLegal : ControlOk (running 6 .runMark .finish)
    ∧ ∃ t, step (running 6 .runMark .finish) = .next t := ⟨controlOk_running, _, rfl⟩
theorem witness_StepsKeepTheSpecInvariants : ControlOk (running 6 .runMark .finish) ∧ SpecInvariants (running 6 .runMark .finish)
    ∧ ∃ t, step (running 6 .runMark .finish) = .next t :=
  ⟨controlOk_running, specInvariants_running.2.2.2.2.1, _, rfl⟩
theorem witness_StepsKeepTokensInBounds : (let s := { running 6 .runMark .finish with tokFifo := [.backref 258 250] }
    ControlOk s ∧ TokenFifoOk s ∧ ∃ t, step s = .next t) :=
  ⟨by constructor <;> decide, tokenFifoOk_one, _, rfl⟩
theorem witness_NoExecutionReachesAnInternalFault : Params.default.ok = true
    ∧ ∃ s, Reachable Params.default s ∧ s.session = .uninit ∧ s.busy = true :=
  ⟨by decide, _, ⟨1, [.host ⟨true, .word, 0x008, 0x000000F1⟩], [], rfl⟩, rfl, rfl⟩

end Sys2Proof.Tests
end

namespace Sys2Proof.Machine

open Sys2Proof.Config

/-! ## What an access can do to the engine -/

/-- R141 to R146: what an access that is no accepted command keeps, and all it can do to the FIFOs. -/
structure KeepsEngine (s t : State) : Prop where
  busy : t.busy = s.busy
  session : t.session = s.session
  dictLoaded : t.dictLoaded = s.dictLoaded
  phase : t.phase = s.phase
  cfg : t.cfg = s.cfg
  cmd : t.cmd = s.cmd
  regs : t.regs = s.regs
  head : t.head = s.head
  params : t.params = s.params
  tokFifo : t.tokFifo = s.tokFifo ∨ t.tokFifo = s.tokFifo.tail
  inFifo : t.inFifo = s.inFifo ∨ ∃ b, s.inFifo.length ≠ s.params.inFifoDepth ∧ t.inFifo = s.inFifo ++ [b]

theorem KeepsEngine.refl (s : State) : KeepsEngine s s :=
  ⟨rfl, rfl, rfl, rfl, rfl, rfl, rfl, rfl, rfl, .inl rfl, .inl rfl⟩

/-- R245: a usage error is an entry in the error record. -/
theorem keepsEngine_usageError (k : ErrKind) (info : Word) (w : Bool) (z : Size) (o : BitVec 12) (s : State) :
    KeepsEngine s (usageError k info w z o s) :=
  ⟨rfl, rfl, rfl, rfl, rfl, rfl, rfl, rfl, rfl, .inl rfl, .inl rfl⟩

/-- R141: a push adds a byte only while the input FIFO is not full. -/
theorem keepsEngine_push {v : Word} {s t : State} (h : exec (.push v) s = .next t) : KeepsEngine s t := by
  obtain ⟨k, rfl⟩ | ⟨-, hroom, rfl⟩ := push_cases h
  · exact keepsEngine_usageError _ _ _ _ _ s
  · exact ⟨rfl, rfl, rfl, rfl, rfl, rfl, rfl, rfl, rfl, .inl rfl, .inr ⟨_, hroom, rfl⟩⟩

/-- A command row answers an error or does nothing, or its command is accepted. -/
theorem CommandOutcome.keepsEngine_or_accepted {s t : State} (h : CommandOutcome s t) :
    KeepsEngine s t ∨ (s.busy = false ∧ Accepted s t) := by
  obtain rfl | ⟨k, v, rfl⟩ | hacc := h
  · exact .inl (.refl _)
  · exact .inl (keepsEngine_usageError _ _ _ _ _ s)
  · exact .inr hacc

/-- R120, R141 to R146: an access keeps the engine, but for its FIFOs, or is a command accepted with `BUSY = 0`. -/
theorem exec_cases {i : Instr} {s t : State} (h : exec i s = .next t) :
    KeepsEngine s t ∨ (s.busy = false ∧ Accepted s t) := by
  by_cases hc : commandRow i = true
  · exact (command_cases hc h).keepsEngine_or_accepted
  · refine .inl ?_
    cases i with
    | push v => exact keepsEngine_push h
    | pop =>
      obtain rfl := Host.Outcome.next.inj h
      exact ⟨rfl, rfl, rfl, rfl, rfl, rfl, rfl, rfl, rfl, .inr rfl, .inl rfl⟩
    | rd offset =>
      obtain rfl := Host.Outcome.next.inj h
      exact ⟨rfl, rfl, rfl, rfl, rfl, rfl, rfl, rfl, rfl, .inl rfl, .inl rfl⟩
    | wrIntEnable v =>
      obtain rfl := Host.Outcome.next.inj h
      exact ⟨rfl, rfl, rfl, rfl, rfl, rfl, rfl, rfl, rfl, .inl rfl, .inl rfl⟩
    | wrIntStatus v =>
      obtain rfl := Host.Outcome.next.inj h
      exact ⟨rfl, rfl, rfl, rfl, rfl, rfl, rfl, rfl, rfl, .inl rfl, .inl rfl⟩
    | badAccess w z o v =>
      obtain rfl := Host.Outcome.next.inj h
      exact keepsEngine_usageError _ _ _ _ _ s
    | _ => exact absurd rfl hc

/-- R69: a property is kept by every step when a turn taken off the schedule, an engine turn, hardware reset and every access
keep it. -/
theorem step_keeps {P : State → Prop} (schedule : ∀ s rest, P s → P { s with schedule := rest })
    (engine : ∀ s, P s → P (engineStep s)) (reset : ∀ s, P s → P (hardReset s))
    (access : ∀ i s t, P s → exec i s = .next t → P t) {s t : State} (hs : P s) (h : step s = .next t) : P t := by
  obtain ⟨-, ⟨-, rfl⟩ | ⟨rest, -, rfl⟩ | ⟨rest, -, rfl⟩ | ⟨a, rest, i, -, -, hx⟩⟩ := step_cases h
  · exact engine s hs
  · exact engine _ (schedule s rest hs)
  · exact reset _ (schedule s rest hs)
  · exact access i _ t (schedule s rest hs) hx

/-! ## The session checks, by session -/

@[simp] theorem initAllowed_eq_true {s : State} :
    initAllowed s = true ↔ s.session ≠ .finishing ∧ s.session ≠ .faulted := by
  unfold initAllowed; cases s.session <;> simp

@[simp] theorem setDictAllowed_eq_true {s : State} :
    setDictAllowed s = true ↔ s.session = .ready ∧ s.dictLoaded = false := by
  simp [setDictAllowed]

@[simp] theorem runAllowed_eq_true {f : Flush} {s : State} :
    runAllowed f s = true ↔ s.session = .ready ∨ s.session = .streaming ∨ (s.session = .finished ∧ f = .finish) := by
  unfold runAllowed; cases s.session <;> simp

@[simp] theorem openSession_eq_true {s : State} :
    openSession s = true ↔ s.session = .ready ∨ s.session = .streaming ∨ s.session = .finished := by
  unfold openSession; cases s.session <;> simp

@[simp] theorem inSession_eq_true {s : State} : inSession s = true ↔ s.session ≠ .uninit ∧ s.session ≠ .faulted := by
  unfold inSession; cases s.session <;> simp

/-! ## The legal control state, phase by phase -/

/-- R26, R87, R200: a configuration an INIT can install. -/
def ConfigOk (c : SessionConfig) : Prop :=
  9 ≤ c.wbits.toNat ∧ c.level.toNat ≤ 9 ∧ c.flavour = flavourOfLevel c.level

/-- R201: the session of a RUN past its first step. -/
def loopSession (s : State) : Prop :=
  s.session = if s.cmd.flush = .finish then .finishing else .streaming

/-- What `ControlOk` asks of each phase. -/
def PhaseOk (s : State) : Prop :=
  match s.phase with
  | .idle => s.busy = false ∧ s.session ≠ .faulted ∧ s.session ≠ .finishing
  | .initOp => s.busy = true ∧ initAllowed s = true ∧ 9 ≤ s.cmd.wbits.toNat ∧ s.cmd.level.toNat ≤ 9
  | .resetOp => s.busy = true ∧ openSession s = true
  | .endOp => s.busy = true ∧ openSession s = true
  | .dictPop => s.busy = true ∧ s.session = .ready ∧ s.dictLoaded = false ∧ s.cmd.dictLeft ≠ 0#16
  | .dictCommit => s.busy = true ∧ s.session = .ready ∧ s.dictLoaded = false
  | .runStart => s.busy = true ∧ if s.cmd.flush = .finish then s.session = .finishing ∨ s.session = .finished
      else s.session = .ready ∨ s.session = .streaming
  | .runIter => s.busy = true ∧ loopSession s
  | .runTail => s.busy = true ∧ loopSession s ∧ s.cmd.flush ≠ .noFlush ∧ s.regs.lookahead.toNat = 0
  | .runMark => s.busy = true ∧ loopSession s ∧ s.cmd.flush ≠ .noFlush ∧ s.regs.lookahead.toNat = 0
      ∧ holdsByte s = false
  | .faulted => s.busy = false ∧ s.session = .faulted

/-- The control state is legal when its phase and the configuration of an open session are. -/
theorem controlOk_of_phaseOk {s : State} (hp : PhaseOk s) (hc : inSession s = true → ConfigOk s.cfg) : ControlOk s := by
  unfold PhaseOk loopSession at hp
  exact {
    busyPhase := by cases e : s.phase <;> simp_all
    faultedPhase := by cases e : s.phase <;> simp_all <;> grind
    finishingRun := by cases e : s.phase <;> simp_all [runPhase] <;> grind
    config := hc
    initOp := fun e => by rw [e] at hp; exact hp.2
    resetOrEnd := fun e => by obtain e | e := e <;> (rw [e] at hp; exact hp.2)
    dictPop := fun e => by rw [e] at hp; exact hp.2
    dictCommit := fun e => by rw [e] at hp; exact hp.2
    runStart := fun e => by rw [e] at hp; grind
    runLoop := fun e => by obtain e | e | e := e <;> simp_all
    runTail := fun e => by obtain e | e := e <;> simp_all
    runMark := fun e => by simp_all }

/-- The fields `ControlOk` reads. -/
def controlView (s : State) :=
  (s.busy, s.session, s.dictLoaded, s.phase, s.cfg, s.cmd, s.regs.lookahead, s.regs.matchAvailable)

theorem ControlOk.congr {s t : State} (h : ControlOk s) (e : controlView t = controlView s) : ControlOk t := by
  simp only [controlView, Prod.mk.injEq] at e
  obtain ⟨busy, session, dictLoaded, phase, cfg, cmd, lookahead, held⟩ := e
  obtain ⟨_, _, _, _, _, _, _, _, _, _, _, _⟩ := h
  constructor <;>
    simpa only [busy, session, dictLoaded, phase, cfg, cmd, lookahead, held, inSession, initAllowed, openSession,
      holdsByte]

theorem KeepsEngine.controlView {s t : State} (h : KeepsEngine s t) : controlView t = controlView s := by
  simp only [Machine.controlView, h.busy, h.session, h.dictLoaded, h.phase, h.cfg, h.cmd, h.regs]

/-! ## Acceptance keeps the control state legal -/

theorem resolveLevel_le_nine {level wbits : BitVec 4} {field : BitVec 2} (h : badInitParam level wbits field = false) :
    (resolveLevel level).toNat ≤ 9 := by
  unfold resolveLevel; split
  · decide
  · simp [badInitParam] at h; bv_omega

theorem nine_le_resolveWbits {level wbits : BitVec 4} {field : BitVec 2} (h : badInitParam level wbits field = false) :
    9 ≤ (resolveWbits wbits).toNat := by
  unfold resolveWbits; split
  · decide
  · simp [badInitParam] at h; bv_omega

/-- R125: INIT is accepted with operands in range. -/
theorem controlOk_acceptInit {level wbits : BitVec 4} {field : BitVec 2} (strategy : Strategy) {s : State}
    (h : ControlOk s) (hs : initAllowed s = true) (hp : badInitParam level wbits field = false) :
    ControlOk (acceptInit level wbits strategy (begun .init s)) :=
  controlOk_of_phaseOk ⟨rfl, hs, nine_le_resolveWbits hp, resolveLevel_le_nine hp⟩ h.config

/-- R127: SET_DICT pops bytes if there are any to pop, else commits. -/
theorem controlOk_acceptSetDict (n : BitVec 16) {s : State} (h : ControlOk s) (hs : setDictAllowed s = true) :
    ControlOk (acceptSetDict n (begun .setDict s)) := by
  obtain ⟨hr, hd⟩ := setDictAllowed_eq_true.1 hs
  refine controlOk_of_phaseOk ?_ h.config
  by_cases hn : n.toNat > 0
  · have hn' : n ≠ 0#16 := fun e => by simp [e] at hn
    simp [PhaseOk, begun, hr, hd, hn, hn']
  · simp [PhaseOk, begun, hr, hd, hn]

/-- R135: RUN with Finish makes an open session FINISHING, unless it is FINISHED. -/
theorem controlOk_acceptRun (f : Flush) {s : State} (h : ControlOk s) (hs : runAllowed f s = true) :
    ControlOk (acceptRun f (begun .run s)) := by
  refine controlOk_of_phaseOk ?_ fun _ => h.config ?_
  · obtain hr | hr | ⟨hr, rfl⟩ := runAllowed_eq_true.1 hs
    · by_cases hf : f = .finish <;> simp [PhaseOk, begun, hr, hf]
    · by_cases hf : f = .finish <;> simp [PhaseOk, begun, hr, hf]
    · simp [PhaseOk, begun, hr]
  · obtain hr | hr | ⟨hr, -⟩ := runAllowed_eq_true.1 hs <;> simp [hr]

/-- R120, R121: an accepted command starts in its own phase, in a session that allows it. -/
theorem ControlOk.accepted {s t : State} (h : ControlOk s) (ha : Accepted s t) : ControlOk t := by
  obtain ⟨level, wbits, field, hs, hp, rfl⟩ | ⟨n, hs, rfl⟩ | ⟨f, hs, rfl⟩ | ⟨hs, rfl⟩ | ⟨hs, rfl⟩ := ha
  · exact controlOk_acceptInit _ h hs hp
  · exact controlOk_acceptSetDict n h hs
  · exact controlOk_acceptRun f h hs
  · exact controlOk_of_phaseOk ⟨rfl, hs⟩ h.config
  · exact controlOk_of_phaseOk ⟨rfl, hs⟩ h.config

theorem ControlOk.exec {i : Instr} {s t : State} (h : ControlOk s) (hx : exec i s = .next t) : ControlOk t := by
  obtain hk | ⟨-, ha⟩ := exec_cases hx
  · exact h.congr hk.controlView
  · exact h.accepted ha

/-! ## Engine steps keep the control state legal -/

/-- R129: the insertions of a dictionary keep the control state. -/
theorem keepsControl_insertRange (p n : Nat) (s : State) : KeepsControl s (insertRange p n s) := by
  induction n generalizing p s with
  | zero => exact .refl s
  | succ n ih => exact (keepsControl_insertString p s).trans (ih _ _)

/-- R129: DICT_COMMIT ends the command and leaves the session and its configuration alone. -/
theorem dictCommit_control (s : State) : (dictCommit s).busy = false ∧ (dictCommit s).phase = .idle
    ∧ (dictCommit s).session = s.session ∧ (dictCommit s).cfg = s.cfg := by
  refine ⟨rfl, rfl, ?_⟩
  unfold dictCommit
  split
  · have k := keepsControl_insertRange 0 (s.cmd.dictBuf.length - 2)
      { s with
        dictLoaded := true
        window := Memory.writeList s.window 0 s.cmd.dictBuf
        regs := { s.regs with strstart := BitVec.ofNat 17 s.cmd.dictBuf.length }
        history := s.cmd.dictBuf.length }
    exact ⟨k.session, k.cfg⟩
  · exact ⟨rfl, rfl⟩

/-- The end of a command leaves a legal control state when the session is neither FINISHING nor FAULTED. -/
theorem controlOk_idle {t : State} (hb : t.busy = false) (hp : t.phase = .idle) (hs : initAllowed t = true)
    (hc : inSession t = true → ConfigOk t.cfg) : ControlOk t := by
  obtain ⟨hf, hff⟩ := initAllowed_eq_true.1 hs
  exact controlOk_of_phaseOk (by simp only [PhaseOk, hp]; exact ⟨hb, hff, hf⟩) hc

/-- R250: FAULTED is a legal control state. -/
theorem controlOk_internalFault (n : Nat) (s : State) : ControlOk (internalFault n s) :=
  controlOk_of_phaseOk ⟨rfl, rfl⟩ (by simp)

/-- R121: every step but those of INIT and END is taken in an open session. -/
theorem ControlOk.inSession_of_enabled {s : State} (h : ControlOk s) (he : enabled s = true) (hi : s.phase ≠ .initOp)
    (hend : s.phase ≠ .endOp) : inSession s = true := by
  obtain ⟨-, hidle, hfault, -, -⟩ := (enabled_iff s).1 he
  refine inSession_eq_true.2 ⟨?_, fun e => hfault (h.faultedPhase.1 e)⟩
  cases e : s.phase with
  | idle => exact absurd e hidle
  | initOp => exact absurd e hi
  | resetOp => have := h.resetOrEnd (.inl e); rw [openSession_eq_true] at this; grind
  | endOp => exact absurd e hend
  | dictPop => simp [(h.dictPop e).1]
  | dictCommit => simp [(h.dictCommit e).1]
  | runStart => obtain ⟨fin, other⟩ := h.runStart e; grind
  | runIter => rw [h.runLoop (.inl e)]; split <;> simp
  | runTail => rw [h.runLoop (.inr (.inl e))]; split <;> simp
  | runMark => rw [h.runLoop (.inr (.inr e))]; split <;> simp
  | faulted => exact absurd e hfault

section EngineStep

variable {s : State} (h : ControlOk s) (he : enabled s = true)
include h he

theorem ControlOk.config_of_enabled (hi : s.phase ≠ .initOp) (hend : s.phase ≠ .endOp) : ConfigOk s.cfg :=
  h.config (h.inSession_of_enabled he hi hend)

omit he in
/-- R125: the configuration INIT installs is legal. -/
theorem controlOk_initOp (hp : s.phase = .initOp) : ControlOk (initOp s) := by
  obtain ⟨-, hw, hl⟩ := h.initOp hp
  exact controlOk_idle rfl rfl rfl fun _ => ⟨hw, hl, rfl⟩

theorem controlOk_resetOp (hp : s.phase = .resetOp) : ControlOk (resetOp s) :=
  controlOk_idle rfl rfl rfl fun _ => h.config_of_enabled he (by simp [hp]) (by simp [hp])

/-- R128: a byte is popped until none is left to pop. -/
theorem controlOk_dictPop (hp : s.phase = .dictPop) : ControlOk (dictPop s) := by
  obtain ⟨hb, -, -, -, -⟩ := (enabled_iff s).1 he
  obtain ⟨hr, hd, -⟩ := h.dictPop hp
  have hc := h.config_of_enabled he (by simp [hp]) (by simp [hp])
  unfold dictPop
  split
  · exact h
  · refine controlOk_of_phaseOk ?_ fun _ => hc
    by_cases hleft : s.cmd.dictLeft - 1#16 = 0#16 <;> simp [PhaseOk, hleft, hb, hr, hd]

theorem controlOk_dictCommit (hp : s.phase = .dictCommit) : ControlOk (dictCommit s) := by
  obtain ⟨hb, hi, hs, hc⟩ := dictCommit_control s
  refine controlOk_idle hb hi (by simp [hs, (h.dictCommit hp).1]) fun _ => ?_
  rw [hc]
  exact h.config_of_enabled he (by simp [hp]) (by simp [hp])

/-- R201: the first step of a RUN answers at once or enters the loop. -/
theorem controlOk_runStart (hp : s.phase = .runStart) : ControlOk (runStart s) := by
  obtain ⟨hb, -, -, -, -⟩ := (enabled_iff s).1 he
  obtain ⟨fin, -⟩ := h.runStart hp
  have hc := h.config_of_enabled he (by simp [hp]) (by simp [hp])
  unfold runStart
  split_ifs with hdone hnone
  · exact controlOk_idle rfl rfl (by simp [hdone]) fun _ => hc
  · have hf : s.cmd.flush ≠ .finish := by simp_all [noProgress]
    exact controlOk_idle rfl rfl (by simp [hf]) fun _ => hc
  · refine controlOk_of_phaseOk ⟨hb, ?_⟩ fun _ => hc
    by_cases hf : s.cmd.flush = .finish
    · simp [loopSession, hf, (fin hf).resolve_right hdone]
    · simp [loopSession, hf]

/-- R203: an iteration stays in the loop, ends a RUN with flush None, or leaves for the tail with nothing left to encode. -/
theorem controlOk_runIter (hp : s.phase = .runIter) : ControlOk (runIter s).state := by
  obtain ⟨hb, -, -, -, -⟩ := (enabled_iff s).1 he
  have hc := h.config_of_enabled he (by simp [hp]) (by simp [hp])
  have hs := h.runLoop (.inl hp)
  have k := keepsControl_flavourIter s.cmd.flush s
  obtain ⟨needMore, leave⟩ := flavourIter_ends s.cmd.flush s
  have hs' : loopSession (flavourIter s.cmd.flush s).state := by rw [loopSession, k.session, k.cmd, hs]
  have hc' : ConfigOk (flavourIter s.cmd.flush s).state.cfg := by rwa [k.cfg]
  unfold runIter
  dsimp only
  split
  · refine controlOk_of_phaseOk ?_ fun _ => hc'
    simp only [PhaseOk, k.phase, hp]
    exact ⟨k.busy.trans hb, hs'⟩
  · rename_i hend
    have hstream : (flavourIter s.cmd.flush s).state.session = .streaming := by
      rw [k.session, hs, (needMore hend).1]; rfl
    exact controlOk_idle rfl rfl (by simp [hstream]) fun _ => hc'
  · rename_i hend
    obtain ⟨hf, -, hl⟩ := leave hend
    exact controlOk_of_phaseOk ⟨k.busy.trans hb, hs', by rwa [k.cmd], hl⟩ fun _ => hc'

/-- R222: after the tail no byte is held. -/
theorem controlOk_runTail (hp : s.phase = .runTail) : ControlOk (runTail s).state := by
  obtain ⟨hb, -, -, -, -⟩ := (enabled_iff s).1 he
  have hc := h.config_of_enabled he (by simp [hp]) (by simp [hp])
  have hs := h.runLoop (.inr (.inl hp))
  obtain ⟨hf, hl⟩ := h.runTail (.inl hp)
  unfold runTail
  split
  · exact controlOk_of_phaseOk ⟨hb, hs, hf, hl, by simp [holdsByte]⟩ fun _ => hc
  · rename_i hheld
    exact controlOk_of_phaseOk ⟨hb, hs, hf, hl, Bool.eq_false_iff.2 hheld⟩ fun _ => hc

/-- R223: the marker ends the RUN, and with Finish the stream. -/
theorem controlOk_runMark (hp : s.phase = .runMark) : ControlOk (runMark s).state := by
  have hc := h.config_of_enabled he (by simp [hp]) (by simp [hp])
  have hs := h.runLoop (.inr (.inr hp))
  unfold runMark
  dsimp only
  by_cases hf : s.cmd.flush = .finish
  · simp only [hf]
    exact controlOk_idle rfl rfl rfl fun _ => hc
  · rw [if_neg hf] at hs ⊢
    split <;> exact controlOk_idle rfl rfl (by simp [hs]) fun _ => hc

/-- R280: the state the current phase's step would leave, but for its token, has a legal control state. -/
theorem controlOk_attempt : ControlOk (attempt s).state := by
  unfold attempt
  cases hp : s.phase with
  | idle => exact h
  | initOp => exact controlOk_initOp h hp
  | resetOp => exact controlOk_resetOp h he hp
  | endOp => exact controlOk_idle rfl rfl rfl nofun
  | dictPop => exact controlOk_dictPop h he hp
  | dictCommit => exact controlOk_dictCommit h he hp
  | runStart => exact controlOk_runStart h he hp
  | runIter => exact controlOk_runIter h he hp
  | runTail => exact controlOk_runTail h he hp
  | runMark => exact controlOk_runMark h he hp
  | faulted => exact h

end EngineStep

theorem controlView_emitOpt (k : Option Token) (s : State) : controlView (emitOpt k s) = controlView s := by
  cases k <;> rfl

theorem ControlOk.engineStep {s : State} (h : ControlOk s) : ControlOk (engineStep s) := by
  obtain ⟨-, e⟩ | ⟨he, -, e⟩ | ⟨-, n, -, e⟩ := engineStep_cases s
  · rwa [e]
  · rw [e]
    exact (controlOk_attempt h he).congr (controlView_emitOpt _ _)
  · rw [e]
    exact controlOk_internalFault n s

/-- R270: after hardware reset there is no session. -/
theorem controlOk_of_reset {t : State} (hb : t.busy = false) (hp : t.phase = .idle) (hs : t.session = .uninit) :
    ControlOk t :=
  controlOk_idle hb hp (by simp [hs]) (by simp [hs])

/-- Settles O57: every turn keeps the control state legal, the engine's by the phase it is in. -/
theorem stepsKeepTheControlStateLegal : Obligations.StepsKeepTheControlStateLegal := fun _ _ h =>
  step_keeps (P := ControlOk) (fun _ _ h => h.congr rfl) (fun _ => ControlOk.engineStep)
    (fun _ _ => controlOk_of_reset rfl rfl rfl) (fun _ _ _ => ControlOk.exec) h

end Sys2Proof.Machine

namespace Sys2Proof.Machine

open Sys2Proof.Config

/-! ## The invariants of R54 -/

theorem fifosFit_eq_true {s : State} : fifosFit s = true ↔
    s.tokFifo.length ≤ s.params.tokFifoDepth ∧ s.inFifo.length ≤ s.params.inFifoDepth := by
  simp [fifosFit]

/-- R54 item 5: an access takes tokens away only, and adds a byte only where there is room. -/
theorem KeepsEngine.fifosFit {s t : State} (h : KeepsEngine s t) (hs : fifosFit s = true) : fifosFit t = true := by
  rw [fifosFit_eq_true] at hs ⊢
  obtain ⟨htok, hin⟩ := hs
  rw [h.params]
  constructor
  · obtain e | e := h.tokFifo <;> rw [e]
    · exact htok
    · rw [List.length_tail]; omega
  · obtain e | ⟨b, hroom, e⟩ := h.inFifo <;> rw [e]
    · exact hin
    · rw [List.length_append, List.length_singleton]; omega

/-- R54 items 1 to 4 read the registers, the configuration and the head table, and are asked of open sessions only. -/
theorem SpecInvariants.congr {s t : State} (h : SpecInvariants s) (hs : inSession t = true → inSession s = true)
    (regs : t.regs = s.regs) (cfg : t.cfg = s.cfg) (head : t.head = s.head) (hf : fifosFit t = true) :
    SpecInvariants t := by
  refine ⟨fun ht => ?_, hf⟩
  have := h.1 (hs ht)
  simpa only [windowFits, headsInserted, heldByteOk, lengthsOk, regs, cfg, head] using this

/-- Out of an open session only the FIFOs count. -/
theorem specInvariants_of_not_inSession {t : State} (hs : inSession t = false) (hf : fifosFit t = true) :
    SpecInvariants t :=
  ⟨fun h => by simp [hs] at h, hf⟩

/-- R121: the acceptance of a command opens no session and moves no data. -/
theorem SpecInvariants.accepted {s t : State} (h : SpecInvariants s) (ha : Accepted s t) : SpecInvariants t := by
  obtain ⟨level, wbits, field, -, -, rfl⟩ | ⟨n, -, rfl⟩ | ⟨f, hs, rfl⟩ | ⟨-, rfl⟩ | ⟨-, rfl⟩ := ha
  · exact h
  · exact h
  · refine h.congr (fun _ => ?_) rfl rfl rfl h.2
    obtain hr | hr | ⟨hr, -⟩ := runAllowed_eq_true.1 hs <;> simp [hr]
  · exact h
  · exact h

theorem SpecInvariants.exec {i : Instr} {s t : State} (h : SpecInvariants s) (hx : exec i s = .next t) :
    SpecInvariants t := by
  obtain hk | ⟨-, ha⟩ := exec_cases hx
  · refine h.congr (fun ht => ?_) hk.regs hk.cfg hk.head (hk.fifosFit h.2)
    rwa [inSession_eq_true, hk.session, ← inSession_eq_true] at ht
  · exact h.accepted ha

theorem dictPop_session (s : State) : (dictPop s).session = s.session := by
  unfold dictPop; split <;> rfl

/-- R201: a RUN's first step keeps the session or makes it STREAMING. -/
theorem runStart_session (s : State) : (runStart s).session = s.session ∨ (runStart s).session = .streaming := by
  have enter : (enterStream s).session = s.session ∨ (enterStream s).session = .streaming := by
    rw [enterStream_session]; split <;> simp
  unfold runStart
  split_ifs
  · exact .inl rfl
  · exact enter
  · exact enter

theorem runIter_session (s : State) : (runIter s).state.session = s.session := by
  have k := keepsControl_flavourIter s.cmd.flush s
  unfold runIter
  dsimp only
  split <;> exact k.session

theorem runTail_session (s : State) : (runTail s).state.session = s.session := by
  unfold runTail; split <;> rfl

/-- R223: the marker keeps the session or makes it FINISHED. -/
theorem runMark_session (s : State) :
    (runMark s).state.session = s.session ∨ (runMark s).state.session = .finished := by
  unfold runMark
  dsimp only
  by_cases hf : s.cmd.flush = .finish
  · rw [if_pos hf]; exact .inr rfl
  · rw [if_neg hf]; split <;> exact .inl rfl

/-- R125, R131, R133: but for END, a step keeps the session or makes it READY, STREAMING or FINISHED. -/
theorem attempt_session {s : State} (h : s.phase ≠ .endOp) :
    (attempt s).state.session = s.session ∧ s.phase ≠ .initOp ∨ (attempt s).state.session = .ready
      ∨ (attempt s).state.session = .streaming ∨ (attempt s).state.session = .finished := by
  unfold attempt
  cases hp : s.phase with
  | idle => exact .inl ⟨rfl, nofun⟩
  | initOp => exact .inr (.inl rfl)
  | resetOp => exact .inr (.inl rfl)
  | endOp => exact absurd hp h
  | dictPop => exact .inl ⟨dictPop_session s, nofun⟩
  | dictCommit =>
    obtain ⟨-, -, e, -⟩ := dictCommit_control s
    exact .inl ⟨e, nofun⟩
  | runStart => exact (runStart_session s).imp (⟨·, nofun⟩) fun e => .inr (.inl e)
  | runIter => exact .inl ⟨runIter_session s, nofun⟩
  | runTail => exact .inl ⟨runTail_session s, nofun⟩
  | runMark => exact (runMark_session s).imp (⟨·, nofun⟩) fun e => .inr (.inr e)
  | faulted => exact .inl ⟨rfl, nofun⟩

/-- R280: the current phase's step leaves an open session, but for END. -/
theorem inSession_attempt {s : State} (h : ControlOk s) (he : enabled s = true) (hend : s.phase ≠ .endOp) :
    inSession (attempt s).state = true := by
  rw [inSession_eq_true]
  obtain ⟨e, hinit⟩ | e | e | e := attempt_session hend
  · rw [e, ← inSession_eq_true]
    exact h.inSession_of_enabled he hinit hend
  all_goals simp [e]

/-- R133: END closes the session and empties the FIFOs. -/
theorem specInvariants_endOp (s : State) : SpecInvariants (endOp s) :=
  specInvariants_of_not_inSession rfl (fifosFit_eq_true.2 ⟨Nat.zero_le _, Nat.zero_le _⟩)

/-- R250: an internal fault leaves the FIFOs as they were. -/
theorem specInvariants_internalFault (n : Nat) {s : State} (h : SpecInvariants s) :
    SpecInvariants (internalFault n s) :=
  specInvariants_of_not_inSession rfl h.2

/-- R250: a step whose checks pass leaves the invariants of an open session; only END leaves none to check. -/
theorem specInvariants_wouldLeave {s : State} (h : ControlOk s) (he : enabled s = true)
    (hb : firstBroken (wouldLeave s) (attempt s).token = none) : SpecInvariants (wouldLeave s) := by
  by_cases hend : s.phase = .endOp
  · have e : wouldLeave s = endOp s := by simp only [wouldLeave, attempt, hend]; rfl
    rw [e]
    exact specInvariants_endOp s
  · have hs : inSession (wouldLeave s) = true := by
      have := inSession_attempt h he hend
      unfold wouldLeave
      cases (attempt s).token <;> exact this
    obtain ⟨window, heads, held, lengths, fifos⟩ := ((firstBroken_eq_none _ _).1 hb).1 hs
    exact ⟨fun _ => ⟨window, heads, held, lengths⟩, fifos⟩

theorem SpecInvariants.engineStep {s : State} (h : SpecInvariants s) (hc : ControlOk s) :
    SpecInvariants (engineStep s) := by
  obtain ⟨-, e⟩ | ⟨he, hb, e⟩ | ⟨-, n, -, e⟩ := engineStep_cases s
  · rwa [e]
  · rw [e]
    exact specInvariants_wouldLeave hc he hb
  · rw [e]
    exact specInvariants_internalFault n h

/-- R270: hardware reset closes the session and empties the FIFOs. -/
theorem specInvariants_of_reset {t : State} (hs : t.session = .uninit) (htok : t.tokFifo = []) (hin : t.inFifo = []) :
    SpecInvariants t :=
  specInvariants_of_not_inSession (by simp [inSession, hs]) (fifosFit_eq_true.2 (by simp [htok, hin]))

/-- Settles O58: an access moves the FIFOs within their depths, and the engine's own checks (R250) hold whatever an enabled step
leaves in an open session. -/
theorem stepsKeepTheSpecInvariants : Obligations.StepsKeepTheSpecInvariants := fun _ _ hc h hstep =>
  (step_keeps (P := fun s => ControlOk s ∧ SpecInvariants s)
    (fun _ _ h => ⟨h.1.congr rfl, h.2⟩)
    (fun _ h => ⟨h.1.engineStep, h.2.engineStep h.1⟩)
    (fun _ _ => ⟨controlOk_of_reset rfl rfl rfl, specInvariants_of_reset rfl rfl rfl⟩)
    (fun _ _ _ h hx => ⟨h.1.exec hx, h.2.exec hx⟩) ⟨hc, h⟩ hstep).2

/-- Settles O55: hardware reset is idle, with no session and nothing in the memories and FIFOs. -/
theorem resetMeetsTheInvariants : Obligations.ResetMeetsTheInvariants := fun p _ =>
  ⟨memoriesWf_resetWith p, controlOk_of_reset rfl rfl rfl, specInvariants_of_reset rfl rfl rfl, nofun⟩

end Sys2Proof.Machine

namespace Sys2Proof.Machine

open Sys2Proof.Config

/-! ## Fields of a register word -/

section Fields

variable {w : Nat} (v : BitVec w) (b : Bool)

/-- Bit `i` of a register that holds one field. -/
theorem getLsbD_place (lo i : Nat) :
    (place v lo).getLsbD i = (decide (lo ≤ i ∧ i < 32) && v.getLsbD (i - lo)) := by
  simp only [place, BitVec.getLsbD_shiftLeft, BitVec.getLsbD_setWidth]
  grind

/-- A field that fits the register is read back at its bits. -/
@[simp] theorem extractLsb'_place_same {lo : Nat} (h : lo + w ≤ 32) : (place v lo).extractLsb' lo w = v := by
  refine BitVec.eq_of_getLsbD_eq fun i hi => ?_
  have inside : lo ≤ lo + i ∧ lo + i < 32 := by omega
  rw [BitVec.getLsbD_extractLsb', getLsbD_place]
  simp [hi, inside]

theorem getLsbD_place_other {lo i : Nat} (h : i < lo ∨ lo + w ≤ i) : (place v lo).getLsbD i = false := by
  rw [getLsbD_place]
  obtain h | h := h
  · simp [Nat.not_le_of_lt h]
  · rw [BitVec.getLsbD_of_ge v (i - lo) (by omega), Bool.and_false]

/-- The bits outside a field are 0. -/
@[simp] theorem getElem_place_other {lo i : Nat} (hi : i < 32) (h : i < lo ∨ lo + w ≤ i) :
    (place v lo)[i] = false := by
  rw [← BitVec.getLsbD_eq_getElem, getLsbD_place_other v h]

@[simp] theorem extractLsb'_place_other {lo start n : Nat} (h : start + n ≤ lo ∨ lo + w ≤ start) :
    (place v lo).extractLsb' start n = 0#n := by
  refine BitVec.eq_of_getLsbD_eq fun i hi => ?_
  simp [getLsbD_place_other v (lo := lo) (i := start + i) (by omega)]

/-- A flag is a field of one bit. -/
theorem placeBit_eq_place (lo : Nat) : placeBit b lo = place (BitVec.ofBool b) lo := rfl

@[simp] theorem getElem_placeBit_same {lo : Nat} (h : lo < 32) : (placeBit b lo)[lo] = b := by
  rw [← BitVec.getLsbD_eq_getElem, placeBit_eq_place, getLsbD_place]
  simp [h]

@[simp] theorem getElem_placeBit_other {lo i : Nat} (hi : i < 32) (h : i ≠ lo) : (placeBit b lo)[i] = false :=
  getElem_place_other _ hi (by omega)

@[simp] theorem extractLsb'_placeBit_other {lo start n : Nat} (h : start + n ≤ lo ∨ lo + 1 ≤ start) :
    (placeBit b lo).extractLsb' start n = 0#n :=
  extractLsb'_place_other _ h

/-- A field at bit 0 is the number the register reads. -/
theorem toNat_place_zero (h : w ≤ 32) : (place v 0).toNat = v.toNat := by
  simp [place, BitVec.toNat_setWidth_of_le h]

end Fields

/-! ## The registers -/

section Registers

variable (s : State)

/-- R22, R23, R143: the constants, and 0 from the write-only registers. -/
theorem constantRegisters :
    registerValue s .id = 0x4C5A4D45 ∧ registerValue s .version = 0x00010000
      ∧ registerValue s .cmd = 0 ∧ registerValue s .inData = 0 :=
  ⟨rfl, rfl, rfl, rfl⟩

/-- R25. -/
theorem statusFields :
    (registerValue s .status).getLsbD 0 = s.busy
      ∧ (registerValue s .status).extractLsb' 1 3 = bstateCode s.bstate
      ∧ (registerValue s .status).extractLsb' 4 3 = sessionCode s.session
      ∧ (registerValue s .status).getLsbD 7 = s.dictLoaded
      ∧ (registerValue s .status).getLsbD 8 = decide (s.inFifo.length = s.params.inFifoDepth)
      ∧ (registerValue s .status).getLsbD 9 = decide (s.inFifo = [])
      ∧ (registerValue s .status).getLsbD 10 = decide (s.tokFifo.length = s.params.tokFifoDepth)
      ∧ (registerValue s .status).getLsbD 11 = decide (s.tokFifo = [])
      ∧ (registerValue s .status).extractLsb' 12 4 = 0
      ∧ (registerValue s .status).extractLsb' 16 4 = phaseCode s.phase
      ∧ (registerValue s .status).extractLsb' 20 12 = 0 := by
  simp [registerValue, statusWord, BitVec.extractLsb'_or, inFull, inEmpty, tokFull, tokEmpty]

/-- R26. -/
theorem configFields :
    (registerValue s .config).extractLsb' 0 4 = s.cfg.level ∧ (registerValue s .config).extractLsb' 4 4 = s.cfg.wbits
      ∧ (registerValue s .config).extractLsb' 8 2 = strategyCode s.cfg.strategy
      ∧ (registerValue s .config).extractLsb' 10 2 = flavourCode s.cfg.flavour
      ∧ (registerValue s .config).extractLsb' 12 20 = 0 := by
  simp [registerValue, configWord, BitVec.extractLsb'_or]

/-- R27. -/
theorem paramFields :
    (registerValue s .param0).extractLsb' 0 9 = s.cfg.goodLength
      ∧ (registerValue s .param0).extractLsb' 16 9 = s.cfg.maxLazy
      ∧ (registerValue s .param0).extractLsb' 9 7 = 0 ∧ (registerValue s .param0).extractLsb' 25 7 = 0
      ∧ (registerValue s .param1).extractLsb' 0 9 = s.cfg.niceLength
      ∧ (registerValue s .param1).extractLsb' 16 13 = s.cfg.maxChainLength
      ∧ (registerValue s .param1).extractLsb' 9 7 = 0 ∧ (registerValue s .param1).extractLsb' 29 3 = 0 := by
  simp [registerValue, param0Word, param1Word, BitVec.extractLsb'_or]

/-- R28, R29: a count that fits 24 bits is read whole. -/
theorem toNat_countWord {n : Nat} (h : n < 2 ^ 24) : (countWord n).toNat = n := by
  rw [countWord, toNat_place_zero _ (by decide), BitVec.toNat_ofNat, Nat.mod_eq_of_lt h]

/-- R28 to R30, R142: the FIFO counts, the oldest token and the counters. -/
theorem fifoRegisters :
    (s.inFifo.length < 2 ^ 24 → (registerValue s .inCount).toNat = s.inFifo.length)
      ∧ (s.tokFifo.length < 2 ^ 24 → (registerValue s .tokCount).toNat = s.tokFifo.length)
      ∧ (∀ k rest, s.tokFifo = k :: rest → registerValue s .tokData = tokenWord k)
      ∧ (s.tokFifo = [] → registerValue s .tokData = 0xC0000000)
      ∧ registerValue s .totalIn = s.totalIn ∧ registerValue s .totalTok = s.totalTok := by
  refine ⟨toNat_countWord, toNat_countWord, fun k rest h => ?_, fun h => ?_, rfl, rfl⟩
  · rw [registerValue, tokDataWord, h]
  · rw [registerValue, tokDataWord, h]

/-- R32. -/
theorem errorFields :
    (registerValue s .errCode).extractLsb' 0 4 = errKindCode s.err.code
      ∧ (registerValue s .errCode).getLsbD 8 = s.err.multi
      ∧ (registerValue s .errCode).getLsbD 9 = s.err.write
      ∧ (registerValue s .errCode).extractLsb' 10 2 = s.err.size
      ∧ (registerValue s .errCode).extractLsb' 16 12 = s.err.offset
      ∧ (registerValue s .errCode).extractLsb' 4 4 = 0 ∧ (registerValue s .errCode).extractLsb' 12 4 = 0
      ∧ (registerValue s .errCode).extractLsb' 28 4 = 0
      ∧ registerValue s .errInfo = s.err.info := by
  simp [registerValue, errCodeWord, BitVec.extractLsb'_or]

/-- R33, R35: the registers of one field at bit 0. -/
theorem wholeRegisters :
    (registerValue s .intEnable).toNat = s.intEnable.toNat
      ∧ (registerValue s .dbgStrstart).toNat = s.regs.strstart.toNat
      ∧ (registerValue s .dbgLookahead).toNat = s.regs.lookahead.toNat :=
  ⟨toNat_place_zero _ (by decide), toNat_place_zero _ (by decide), toNat_place_zero _ (by decide)⟩

/-- R35. -/
theorem debugFields :
    (registerValue s .dbgMatch).extractLsb' 0 9 = s.regs.matchLength
      ∧ (registerValue s .dbgMatch).extractLsb' 16 9 = s.regs.prevLength
      ∧ (registerValue s .dbgMatch).getLsbD 31 = s.regs.matchAvailable
      ∧ (registerValue s .dbgMatch).extractLsb' 9 7 = 0 ∧ (registerValue s .dbgMatch).extractLsb' 25 6 = 0
      ∧ (registerValue s .dbgPos).extractLsb' 0 16 = s.regs.matchStart
      ∧ (registerValue s .dbgPos).extractLsb' 16 16 = s.regs.prevMatch
      ∧ (registerValue s .dbgMisc).extractLsb' 0 16 = s.regs.hashHead
      ∧ (registerValue s .dbgMisc).extractLsb' 16 3 = flushCode s.regs.lastFlush
      ∧ (registerValue s .dbgMisc).extractLsb' 19 13 = 0 := by
  simp [registerValue, dbgMatchWord, dbgPosWord, dbgMiscWord, BitVec.extractLsb'_or]

end Registers

/-- Settles O9, register by register: a field placed at its bits is read there and nowhere else. -/
theorem registerFieldsAreAtTheirBits : Obligations.RegisterFieldsAreAtTheirBits := fun s => by
  have all := And.intro (constantRegisters s) <| And.intro (statusFields s) <| And.intro (configFields s) <|
    And.intro (paramFields s) <| And.intro (fifoRegisters s) <| And.intro (errorFields s) <|
    And.intro (wholeRegisters s) (debugFields s)
  simpa only [and_assoc] using all

/-! ## The interrupt -/

/-- R34: `INT_STATUS` as a number. -/
theorem toNat_intStatusBits (s : State) : (intStatusBits s).toNat =
    s.done.toNat + 2 * s.errFlag.toNat + 4 * (tokAvail s).toNat + 8 * (inSpace s).toNat := by
  unfold intStatusBits
  cases s.done <;> cases s.errFlag <;> cases tokAvail s <;> cases inSpace s <;> rfl

/-- R34: `INT_STATUS` bit by bit. -/
theorem getLsbD_intStatusBits (s : State) :
    (intStatusBits s).getLsbD 0 = s.done ∧ (intStatusBits s).getLsbD 1 = s.errFlag
      ∧ (intStatusBits s).getLsbD 2 = tokAvail s ∧ (intStatusBits s).getLsbD 3 = inSpace s := by
  simp [intStatusBits]

theorem tokAvail_eq (s : State) : tokAvail s = decide (s.tokFifo ≠ []) := by
  simp [tokAvail, List.length_pos_iff]

/-- Two masks of four bits meet in some bit. -/
theorem and_ne_zero_iff_getLsbD (x y : BitVec 4) : x &&& y ≠ 0#4 ↔
    (x.getLsbD 0 = true ∧ y.getLsbD 0 = true) ∨ (x.getLsbD 1 = true ∧ y.getLsbD 1 = true)
      ∨ (x.getLsbD 2 = true ∧ y.getLsbD 2 = true) ∨ (x.getLsbD 3 = true ∧ y.getLsbD 3 = true) := by
  revert x y
  decide

/-- Settles O10: the pending bits one by one, and `IRQ` as the bits they share with the enables. -/
theorem interruptIsPendingUnderEnable : Obligations.InterruptIsPendingUnderEnable := fun s => by
  obtain ⟨h0, h1, h2, h3⟩ := getLsbD_intStatusBits s
  constructor
  · rw [registerValue, toNat_place_zero _ (by decide), toNat_intStatusBits, tokAvail_eq, inSpace]
  · rw [irq, decide_eq_true_iff, and_ne_zero_iff_getLsbD, h0, h1, h2, h3, tokAvail_eq, inSpace, decide_eq_true_iff,
      decide_eq_true_iff]

end Sys2Proof.Machine

namespace Sys2Proof.Machine

/-! ## Turns of the schedule -/

/-- R69, R89 (log 1): a decoded access is executed with its turn taken off. -/
theorem step_of_decode_ok {s : State} {a : Access} {rest : List Turn} {i : Instr} (hp : s.params.ok = true)
    (hs : s.schedule = .host a :: rest) (hd : decode s.params.baseAddr a = .ok i) :
    step s = exec i { s with schedule := rest } := by
  simp only [step, hp, hs, hd, if_true]

/-- R60 (log 10): an address outside the 4096 bytes is no access. -/
theorem decode_outside {base : Nat} {a : Access} (h : ¬(base ≤ a.address ∧ a.address < base + 4096)) :
    decode base a = .error .outsideRegisterSpace :=
  if_neg h

theorem decode_inside {base : Nat} {a : Access} (h : base ≤ a.address ∧ a.address < base + 4096) :
    decode base a = .ok (decodeAt a.write a.size (BitVec.ofNat 12 (a.address - base)) a.data) :=
  if_pos h

/-- Settles O6: the last arm of the step, once the access decodes. -/
theorem stepRunsTheDecodedAccess : Obligations.StepRunsTheDecodedAccess := fun _ _ _ _ hp hs hd =>
  step_of_decode_ok hp hs hd

/-- R280 (log 2): with no turn left the engine moves. -/
theorem step_of_schedule_nil {s : State} (hp : s.params.ok = true) (hs : s.schedule = []) :
    step s = .next (engineStep s) := by
  simp only [step, hp, hs, if_true]

theorem step_of_engine_turn {s : State} {rest : List Turn} (hp : s.params.ok = true)
    (hs : s.schedule = .engine :: rest) : step s = .next (engineStep { s with schedule := rest }) := by
  simp only [step, hp, hs, if_true]

theorem step_of_reset_turn {s : State} {rest : List Turn} (hp : s.params.ok = true)
    (hs : s.schedule = .hardReset :: rest) : step s = .next (hardReset { s with schedule := rest }) := by
  simp only [step, hp, hs, if_true]

/-- R69, R270: with parameters in range, a turn whose access lies in the register space gives a next state. -/
theorem step_next {s : State} (hp : s.params.ok = true)
    (hin : ∀ a rest, s.schedule = .host a :: rest →
      s.params.baseAddr ≤ a.address ∧ a.address < s.params.baseAddr + 4096) : ∃ t, step s = .next t := by
  match hs : s.schedule with
  | [] => exact ⟨_, step_of_schedule_nil hp hs⟩
  | .engine :: rest => exact ⟨_, step_of_engine_turn hp hs⟩
  | .hardReset :: rest => exact ⟨_, step_of_reset_turn hp hs⟩
  | .host a :: rest =>
    rw [step_of_decode_ok hp hs (decode_inside (hin a rest hs))]
    exact exec_next _ _

/-- Settles O7, turn by turn. -/
theorem stepGivesTheEngineItsTurnOrStops : Obligations.StepGivesTheEngineItsTurnOrStops := fun s => by
  refine ⟨step_of_schedule_nil, fun rest => step_of_engine_turn, fun hp => ?_, fun a rest hp hs hout => ?_, step_next⟩
  · simp only [step, hp, Bool.false_eq_true, if_false]
  · simp only [step, hp, hs, decode_outside hout, if_true]

/-! ## The frame of a host access -/

/-- What no host access writes: the three memories, the configuration, the position and match registers, the counters,
`DICT_LOADED`, the parameters, the schedule and the draws. -/
def engineView (s : State) :=
  (s.window, s.head, s.prev, s.cfg, s.regs, s.totalIn, s.totalTok, s.history, s.dictLoaded, s.params, s.schedule, s.draws,
    s.drawIndex)

/-- What no command row writes beside it: the FIFOs, `INT_ENABLE`, `DONE` and the read data. -/
def hostView (s : State) := (s.inFifo, s.tokFifo, s.intEnable, s.done, s.readData)

/-- R245, R247: a record that holds an error is kept, with at most `MULTI` set. -/
def KeepsFirstError (s t : State) : Prop :=
  s.err.code ≠ .none → t.err = s.err ∨ t.err = { s.err with multi := true }

theorem keepsFirstError_of_err_eq {s t : State} (h : t.err = s.err) : KeepsFirstError s t := fun _ => .inl h

theorem keepsFirstError_usageError (k : ErrKind) (info : Word) (w : Bool) (z : Size) (o : BitVec 12) (s : State) :
    KeepsFirstError s (usageError k info w z o s) := by
  intro hcode
  obtain ⟨hnone, -⟩ | ⟨-, e⟩ := recordUsage_cases s.err k info w z o
  · exact absurd hnone hcode
  · exact .inr e

/-- R125, R127, R131, R133, R135: the acceptance of a command makes a session at most FINISHING. -/
theorem Accepted.session {s t : State} (h : Accepted s t) : t.session = s.session ∨ t.session = .finishing := by
  obtain ⟨level, wbits, field, -, -, rfl⟩ | ⟨n, -, rfl⟩ | ⟨f, -, rfl⟩ | ⟨-, rfl⟩ | ⟨-, rfl⟩ := h
  · exact .inl rfl
  · exact .inl rfl
  · rw [acceptRun_session]
    split
    · exact .inr rfl
    · exact .inl rfl
  · exact .inl rfl
  · exact .inl rfl

theorem Accepted.frame {s t : State} (h : Accepted s t) :
    engineView t = engineView s ∧ hostView t = hostView s ∧ t.err = s.err := by
  obtain ⟨level, wbits, field, -, -, rfl⟩ | ⟨n, -, rfl⟩ | ⟨f, -, rfl⟩ | ⟨-, rfl⟩ | ⟨-, rfl⟩ := h <;>
    exact ⟨rfl, rfl, rfl⟩

/-- R120: what a command row leaves unchanged, and what becomes of the session and the record. -/
theorem CommandOutcome.frame {s t : State} (h : CommandOutcome s t) :
    engineView t = engineView s ∧ hostView t = hostView s ∧ (t.session = s.session ∨ t.session = .finishing)
      ∧ KeepsFirstError s t := by
  obtain rfl | ⟨k, v, rfl⟩ | ⟨-, ha⟩ := h
  · exact ⟨rfl, rfl, .inl rfl, keepsFirstError_of_err_eq rfl⟩
  · exact ⟨rfl, rfl, .inl rfl, keepsFirstError_usageError _ _ _ _ _ s⟩
  · obtain ⟨engine, host, err⟩ := ha.frame
    exact ⟨engine, host, ha.session, keepsFirstError_of_err_eq err⟩

/-- What an access by the row `i` keeps: each field but those of `engineView` has the rows that write it. -/
structure AccessFrame (i : Instr) (s t : State) : Prop where
  engine : engineView t = engineView s
  inFifo : (∀ v, i ≠ .push v) → t.inFifo = s.inFifo
  tokFifo : i ≠ .pop → t.tokFifo = s.tokFifo
  intEnable : (∀ v, i ≠ .wrIntEnable v) → t.intEnable = s.intEnable
  done : (∀ v, i ≠ .wrIntStatus v) → t.done = s.done
  readData : readRow i = false → t.readData = s.readData
  command : commandRow i = false → t.busy = s.busy ∧ t.phase = s.phase ∧ t.bstate = s.bstate ∧ t.session = s.session
    ∧ t.cmd = s.cmd
  session : t.session = s.session ∨ t.session = .finishing
  err : (∀ v, i ≠ .wrIntStatus v) → KeepsFirstError s t

theorem accessFrame_of_command {i : Instr} {s t : State} (hc : commandRow i = true) (h : exec i s = .next t) :
    AccessFrame i s t := by
  obtain ⟨engine, host, session, err⟩ := (command_cases hc h).frame
  simp only [hostView, Prod.mk.injEq] at host
  obtain ⟨inFifo, tokFifo, intEnable, done, readData⟩ := host
  exact ⟨engine, fun _ => inFifo, fun _ => tokFifo, fun _ => intEnable, fun _ => done, fun _ => readData,
    fun hn => absurd hc (by simp [hn]), session, fun _ => err⟩

/-- R245: a usage error enters the record, and a rejected read returns 0. -/
theorem accessFrame_usageError {i : Instr} {w : Bool} (hr : readRow i = false → w = true) (k : ErrKind) (info : Word)
    (z : Size) (o : BitVec 12) (s : State) : AccessFrame i s (usageError k info w z o s) where
  engine := rfl
  inFifo _ := rfl
  tokFifo _ := rfl
  intEnable _ := rfl
  done _ := rfl
  readData h := by rw [usageError_readData, hr h, if_pos rfl]
  command _ := ⟨rfl, rfl, rfl, rfl, rfl⟩
  session := .inl rfl
  err _ := keepsFirstError_usageError k info w z o s

/-- R141: a push that is no error writes the input FIFO only. -/
theorem accessFrame_push {v : Word} {s t : State} (h : exec (.push v) s = .next t) : AccessFrame (.push v) s t := by
  obtain ⟨k, rfl⟩ | ⟨-, -, rfl⟩ := push_cases h
  · exact accessFrame_usageError (fun _ => rfl) _ _ _ _ s
  · exact ⟨rfl, fun hi => absurd rfl (hi v), fun _ => rfl, fun _ => rfl, fun _ => rfl, fun _ => rfl,
      fun _ => ⟨rfl, rfl, rfl, rfl, rfl⟩, .inl rfl, fun _ => keepsFirstError_of_err_eq rfl⟩

/-- R120, R141 to R146: the frame of every access, row by row. -/
theorem exec_frame {i : Instr} {s t : State} (h : exec i s = .next t) : AccessFrame i s t := by
  by_cases hc : commandRow i = true
  · exact accessFrame_of_command hc h
  · cases i with
    | push v => exact accessFrame_push h
    | pop =>
      obtain rfl := Host.Outcome.next.inj h
      exact ⟨rfl, fun _ => rfl, fun hi => absurd rfl hi, fun _ => rfl, fun _ => rfl, nofun,
        fun _ => ⟨rfl, rfl, rfl, rfl, rfl⟩, .inl rfl, fun _ => keepsFirstError_of_err_eq rfl⟩
    | rd offset =>
      obtain rfl := Host.Outcome.next.inj h
      exact ⟨rfl, fun _ => rfl, fun _ => rfl, fun _ => rfl, fun _ => rfl, nofun,
        fun _ => ⟨rfl, rfl, rfl, rfl, rfl⟩, .inl rfl, fun _ => keepsFirstError_of_err_eq rfl⟩
    | wrIntEnable v =>
      obtain rfl := Host.Outcome.next.inj h
      exact ⟨rfl, fun _ => rfl, fun _ => rfl, fun hi => absurd rfl (hi v), fun _ => rfl, fun _ => rfl,
        fun _ => ⟨rfl, rfl, rfl, rfl, rfl⟩, .inl rfl, fun _ => keepsFirstError_of_err_eq rfl⟩
    | wrIntStatus v =>
      obtain rfl := Host.Outcome.next.inj h
      exact ⟨rfl, fun _ => rfl, fun _ => rfl, fun _ => rfl, fun hi => absurd rfl (hi v), fun _ => rfl,
        fun _ => ⟨rfl, rfl, rfl, rfl, rfl⟩, .inl rfl, fun hi => absurd rfl (hi v)⟩
    | badAccess w z o v =>
      obtain rfl := Host.Outcome.next.inj h
      exact accessFrame_usageError (fun hr => by simpa [readRow] using hr) _ _ _ _ s
    | _ => exact absurd rfl hc

/-- Settles O24, by the frame of each row. -/
theorem hostAccessesLeaveTheEngineAlone : Obligations.HostAccessesLeaveTheEngineAlone := fun _ s t h => by
  obtain ⟨engine, inFifo, tokFifo, intEnable, done, readData, command, session, err⟩ := exec_frame h
  simp only [engineView, Prod.mk.injEq] at engine
  obtain ⟨window, head, prev, cfg, regs, totalIn, totalTok, history, dictLoaded, params, schedule, draws, drawIndex⟩ :=
    engine
  exact ⟨fun _ => by rw [window], fun _ => by rw [head], fun _ => by rw [prev], cfg, regs, totalIn, totalTok, history,
    dictLoaded, params, schedule, draws, drawIndex, inFifo, tokFifo, intEnable, done, readData, command,
    session.resolve_left, err⟩

/-! ## Steps keep the canonical form -/

theorem memoriesWf_dictPop {s : State} (h : MemoriesWf s) : MemoriesWf (dictPop s) := by
  unfold dictPop; split <;> exact h

theorem memoriesWf_dictCommit {s : State} (h : MemoriesWf s) : MemoriesWf (dictCommit s) := by
  obtain ⟨window, head, prev⟩ := h
  unfold dictCommit
  split
  · exact memoriesWf_insertRange 0 _ ⟨Memory.wf_writeList _ 0 window, head, prev⟩
  · exact ⟨window, head, prev⟩

theorem memoriesWf_runStart {s : State} (h : MemoriesWf s) : MemoriesWf (runStart s) := by
  unfold runStart; split_ifs <;> exact h

theorem memoriesWf_runIter {s : State} (h : MemoriesWf s) : MemoriesWf (runIter s).state := by
  have := memoriesWf_flavourIter s.cmd.flush h
  unfold runIter
  dsimp only
  split <;> exact this

theorem memoriesWf_runTail {s : State} (h : MemoriesWf s) : MemoriesWf (runTail s).state := by
  unfold runTail; split <;> exact h

theorem memoriesWf_runMark {s : State} (h : MemoriesWf s) : MemoriesWf (runMark s).state := by
  obtain ⟨window, head, prev⟩ := h
  unfold runMark
  dsimp only
  split_ifs
  · exact ⟨window, rfl, prev⟩
  · exact ⟨window, head, prev⟩
  · exact ⟨window, rfl, prev⟩
  · exact ⟨window, head, prev⟩

/-- R280: the step of every phase keeps the canonical form. -/
theorem memoriesWf_attempt {s : State} (h : MemoriesWf s) : MemoriesWf (attempt s).state := by
  unfold attempt
  cases s.phase with
  | idle => exact h
  | initOp => exact ⟨wf_drawnWindow _ _, rfl, wf_drawnPrev _ _⟩
  | resetOp => exact (memoriesWf_sessionClear h : MemoriesWf (sessionClear s))
  | endOp => exact memoriesWf_scrambleMemories _
  | dictPop => exact memoriesWf_dictPop h
  | dictCommit => exact memoriesWf_dictCommit h
  | runStart => exact memoriesWf_runStart h
  | runIter => exact memoriesWf_runIter h
  | runTail => exact memoriesWf_runTail h
  | runMark => exact memoriesWf_runMark h
  | faulted => exact h

theorem memoriesWf_emitOpt (k : Option Token) {s : State} (h : MemoriesWf s) : MemoriesWf (emitOpt k s) := by
  cases k <;> exact h

theorem memoriesWf_engineStep {s : State} (h : MemoriesWf s) : MemoriesWf (engineStep s) := by
  obtain ⟨-, e⟩ | ⟨-, -, e⟩ | ⟨-, n, -, e⟩ := engineStep_cases s
  all_goals rw [e]
  · exact h
  · exact memoriesWf_emitOpt _ (memoriesWf_attempt h)
  · exact h

theorem memoriesWf_exec {i : Instr} {s t : State} (h : MemoriesWf s) (hx : exec i s = .next t) : MemoriesWf t := by
  have engine := (exec_frame hx).engine
  simp only [engineView, Prod.mk.injEq] at engine
  obtain ⟨window, head, prev, -⟩ := engine
  exact memoriesWf_congr h window head prev

/-- Settles O56: the engine's turn keeps the form by the phase it is in, hardware reset draws canonical memories, and an access
writes none of them. -/
theorem stepsKeepMemoriesCanonical : Obligations.StepsKeepMemoriesCanonical := fun _ _ h =>
  step_keeps (P := MemoriesWf) (fun _ _ h => h) (fun _ => memoriesWf_engineStep)
    (fun _ _ => memoriesWf_scrambleMemories _) (fun _ _ _ => memoriesWf_exec) h

end Sys2Proof.Machine

namespace Sys2Proof

open Sys2Proof.Machine

/-! ## A word is the OR of its fields -/

/-- Two neighbouring fields of a word, each at its bits, are one field. -/
theorem place_or_place (v : Word) {lo m mid n k : Nat} (hmid : mid = lo + m) (hk : k = m + n) :
    place (v.extractLsb' lo m) lo ||| place (v.extractLsb' mid n) mid = place (v.extractLsb' lo k) lo := by
  refine BitVec.eq_of_getLsbD_eq fun i hi => ?_
  simp only [BitVec.getLsbD_or, getLsbD_place, BitVec.getLsbD_extractLsb']
  grind

theorem place_extractLsb'_all (v : Word) : place (v.extractLsb' 0 32) 0 = v := by
  simp [place]

/-- R82. -/
theorem word_eq_initFields (v : Word) : v = place (opField v) 0 ||| place (levelField v) 4 ||| place (wbitsField v) 8
    ||| place (strategyField v) 12 ||| place (v.extractLsb' 14 18) 14 := by
  rw [opField, levelField, wbitsField, strategyField, place_or_place v (k := 8) rfl rfl,
    place_or_place v (k := 12) rfl rfl, place_or_place v (k := 14) rfl rfl, place_or_place v (k := 32) rfl rfl,
    place_extractLsb'_all]

/-- R83. -/
theorem word_eq_setDictFields (v : Word) :
    v = place (opField v) 0 ||| place (v.extractLsb' 4 12) 4 ||| place (lengthField v) 16 := by
  rw [opField, lengthField, place_or_place v (k := 16) rfl rfl, place_or_place v (k := 32) rfl rfl,
    place_extractLsb'_all]

/-- R84. -/
theorem word_eq_runFields (v : Word) :
    v = place (opField v) 0 ||| place (flushField v) 4 ||| place (v.extractLsb' 7 25) 7 := by
  rw [opField, flushField, place_or_place v (k := 7) rfl rfl, place_or_place v (k := 32) rfl rfl,
    place_extractLsb'_all]

/-- R85. -/
theorem word_eq_bareFields (v : Word) : v = place (opField v) 0 ||| place (v.extractLsb' 4 28) 4 := by
  rw [opField, place_or_place v (k := 32) rfl rfl, place_extractLsb'_all]

/-! ## A legal command word is the word of its row -/

theorem place_zero (w lo : Nat) : place 0#w lo = 0#32 := by
  simp [place]

/-- R80: the opcode stands in the low bits. -/
theorem place_opField {v : Word} {n : Nat} (h : (opField v).toNat = n) : place (opField v) 0 = BitVec.ofNat 32 n := by
  refine BitVec.eq_of_toNat_eq ?_
  rw [toNat_place_zero _ (by decide), BitVec.toNat_ofNat, h, Nat.mod_eq_of_lt]
  have := (opField v).isLt
  omega

theorem initWord_fields {v : Word} (hop : (opField v).toNat = 1) (hr : reservedBitsSet v = false) :
    initWord (levelField v) (wbitsField v) (strategyField v) = v := by
  have hr' : v.extractLsb' 14 18 = 0#18 := by simpa [reservedBitsSet, hop] using hr
  conv_rhs => rw [word_eq_initFields v, place_opField hop, hr', place_zero, BitVec.or_zero]
  unfold initWord place
  ac_rfl

theorem setDictWord_fields {v : Word} (hop : (opField v).toNat = 2) (hr : reservedBitsSet v = false) :
    setDictWord (lengthField v) = v := by
  have hr' : v.extractLsb' 4 12 = 0#12 := by simpa [reservedBitsSet, hop] using hr
  conv_rhs => rw [word_eq_setDictFields v, place_opField hop, hr', place_zero, BitVec.or_zero]
  exact BitVec.or_comm _ _

theorem runWord_fields {v : Word} (hop : (opField v).toNat = 3) (hr : reservedBitsSet v = false) :
    runWord (flushField v) = v := by
  have hr' : v.extractLsb' 7 25 = 0#25 := by simpa [reservedBitsSet, hop] using hr
  conv_rhs => rw [word_eq_runFields v, place_opField hop, hr', place_zero, BitVec.or_zero]
  exact BitVec.or_comm _ _

/-- R85: a legal word of another opcode is the opcode. -/
theorem bareWord_eq {v : Word} {n : Nat} (hop : (opField v).toNat = n) (h1 : n ≠ 1) (h2 : n ≠ 2) (h3 : n ≠ 3)
    (hr : reservedBitsSet v = false) : BitVec.ofNat 32 n = v := by
  have hr' : v.extractLsb' 4 28 = 0#28 := by
    subst hop
    simpa [reservedBitsSet, h1, h2, h3] using hr
  conv_rhs => rw [word_eq_bareFields v, place_opField hop, hr', place_zero, BitVec.or_zero]

/-! ## Decoded instructions encode back -/

/-- The instruction is well-formed and is issued by the access `a`. -/
def EncodesTo (base : Nat) (i : Instr) (a : Access) : Prop := i.wf = true ∧ encode base i = a

/-- R84: a RUN by its raw field is the row of its flush type, or is kept raw for the codes 5 to 7. -/
theorem runInstr_encodesTo (base : Nat) (f : BitVec 3) : EncodesTo base (runInstr f) (commandAccess base (runWord f)) := by
  have rows : ∀ f : BitVec 3, f = 0 ∨ f = 1 ∨ f = 2 ∨ f = 3 ∨ f = 4 ∨ (5 ≤ f.toNat ∧ flushOfCode f = none) := by decide
  obtain rfl | rfl | rfl | rfl | rfl | ⟨hf, hnone⟩ := rows f
  · exact ⟨rfl, rfl⟩
  · exact ⟨rfl, rfl⟩
  · exact ⟨rfl, rfl⟩
  · exact ⟨rfl, rfl⟩
  · exact ⟨rfl, rfl⟩
  · rw [runInstr, hnone]
    exact ⟨decide_eq_true hf, rfl⟩

/-- R89: a command word is the word of the row it decodes to. -/
theorem decodeCommand_encodesTo (base : Nat) (v : Word) : EncodesTo base (decodeCommand v) (commandAccess base v) := by
  by_cases hill : illegalWord v = true
  · rw [decodeCommand, if_pos hill]
    exact ⟨hill, rfl⟩
  · obtain ⟨hop, hr⟩ : (opField v).toNat < 6 ∧ reservedBitsSet v = false := by simpa [illegalWord] using hill
    rw [decodeCommand, if_neg hill]
    split
    next h => exact ⟨rfl, congrArg _ (bareWord_eq h nofun nofun nofun hr)⟩
    next h => exact ⟨rfl, congrArg _ (initWord_fields h hr)⟩
    next h => exact ⟨rfl, congrArg _ (setDictWord_fields h hr)⟩
    next h =>
      have := runInstr_encodesTo base (flushField v)
      rwa [runWord_fields h hr] at this
    next h => exact ⟨rfl, congrArg _ (bareWord_eq h nofun nofun nofun hr)⟩
    next h => exact ⟨rfl, congrArg _ (bareWord_eq h nofun nofun nofun hr)⟩
    next => grind

/-- R21: a register stands at its own offset only. -/
theorem regAt_eq_some {n : Nat} {r : Reg} (h : regAt n = some r) : n = regOffset r := by
  unfold regAt at h
  split at h <;> cases h <;> rfl

/-- R21, R242: the registers a word write is legal to. -/
theorem writable_cases {n : Nat} (h : writable n = true) :
    regAt n = some .cmd ∨ regAt n = some .inData ∨ regAt n = some .intEnable ∨ regAt n = some .intStatus := by
  unfold writable at h
  cases hr : regAt n with
  | none => simp [hr] at h
  | some r => cases r <;> simp_all [regAccess]

/-- R120, R141, R144, R145. -/
theorem decodeWrite_encodesTo (base : Nat) {offset : BitVec 12} (v : Word) (h : writable offset.toNat = true) :
    EncodesTo base (decodeWrite offset v) ⟨true, .word, base + offset.toNat, v⟩ := by
  obtain hr | hr | hr | hr := writable_cases h <;> rw [decodeWrite, hr, regAt_eq_some hr]
  · exact decodeCommand_encodesTo base v
  · exact ⟨rfl, rfl⟩
  · exact ⟨rfl, rfl⟩
  · exact ⟨rfl, rfl⟩

/-- R242: the accesses that are no BAD_ACCESS. -/
theorem isBadAccess_eq_false {write : Bool} {size : Size} {offset : BitVec 12} :
    isBadAccess write size offset = false ↔
      size = .word ∧ offset.toNat % 4 = 0 ∧ (write = true → writable offset.toNat = true) := by
  cases write <;> simp [isBadAccess, and_assoc]

/-- R245: the data an access carries, its unwritten lanes 0; a read carries none. -/
def carriedData (write : Bool) (size : Size) (offset : BitVec 12) (v : Word) : Word :=
  if write then v &&& laneMask size offset else 0

theorem carriedData_idem (write : Bool) (size : Size) (offset : BitVec 12) (v : Word) :
    carriedData write size offset (carriedData write size offset v) = carriedData write size offset v := by
  cases write
  · rfl
  · simp [carriedData, BitVec.and_assoc]

theorem carriedData_word (offset : BitVec 12) (v : Word) : carriedData true .word offset v = v :=
  BitVec.and_allOnes

/-- R146: a rejected access is kept as it is, with the data it carries. -/
theorem badAccess_encodesTo (base : Nat) {write : Bool} {size : Size} {offset : BitVec 12} (v : Word)
    (h : isBadAccess write size offset = true) :
    EncodesTo base (.badAccess write size offset (carriedData write size offset v))
      ⟨write, size, base + offset.toNat, carriedData write size offset v⟩ :=
  ⟨Bool.and_eq_true_iff.2 ⟨h, decide_eq_true (carriedData_idem write size offset v)⟩, rfl⟩

/-- R142, R143: a read is a pop or an `rd`. -/
theorem read_encodesTo (base : Nat) {offset : BitVec 12} (h : offset.toNat % 4 = 0) :
    EncodesTo base (if offset.toNat = regOffset .tokData then .pop else .rd offset)
      ⟨false, .word, base + offset.toNat, 0⟩ := by
  split
  next htok =>
    rw [htok]
    exact ⟨rfl, rfl⟩
  next htok => exact ⟨Bool.and_eq_true_iff.2 ⟨decide_eq_true h, decide_eq_true htok⟩, rfl⟩

/-- R89, R242: an access at an offset is the access of the instruction it decodes to. -/
theorem decodeAt_encodesTo (base : Nat) (write : Bool) (size : Size) (offset : BitVec 12) (v : Word) :
    EncodesTo base (decodeAt write size offset v) ⟨write, size, base + offset.toNat, carriedData write size offset v⟩ := by
  unfold decodeAt
  cases hbad : isBadAccess write size offset with
  | true => exact badAccess_encodesTo base v hbad
  | false =>
    obtain ⟨rfl, haligned, hwrite⟩ := isBadAccess_eq_false.1 hbad
    cases write with
    | true =>
      rw [carriedData_word]
      exact decodeWrite_encodesTo base v (hwrite rfl)
    | false => exact read_encodesTo base haligned

/-- Settles O3: the address gives the offset, and the access at the offset is that of its instruction. -/
theorem decodedAccessesEncodeBack : Obligations.DecodedAccessesEncodeBack := fun base a i h => by
  unfold decode at h
  split at h
  next hin =>
    obtain rfl := Except.ok.inj h
    have address : base + (BitVec.ofNat 12 (a.address - base)).toNat = a.address := by
      rw [BitVec.toNat_ofNat]
      omega
    have := decodeAt_encodesTo base a.write a.size (BitVec.ofNat 12 (a.address - base)) a.data
    rwa [address] at this
  next => cases h

end Sys2Proof

namespace Sys2Proof

open Sys2Proof.Machine

/-! ## The word of a row decodes to the row -/

/-- R82: the word of an INIT, field by field. -/
theorem initWord_eq_place (level wbits : BitVec 4) (strategy : BitVec 2) :
    initWord level wbits strategy = place strategy 12 ||| place wbits 8 ||| place level 4 ||| place 1#4 0 := rfl

/-- R83: the word of a SET_DICT. -/
theorem setDictWord_eq_place (n : BitVec 16) : setDictWord n = place n 16 ||| place 2#4 0 := rfl

/-- R84: the word of a RUN. -/
theorem runWord_eq_place (f : BitVec 3) : runWord f = place f 4 ||| place 3#4 0 := rfl

theorem decodeCommand_initWord (level wbits : BitVec 4) (strategy : BitVec 2) :
    decodeCommand (initWord level wbits strategy) = .init level wbits strategy := by
  simp [decodeCommand, illegalWord, reservedBitsSet, opField, levelField, wbitsField, strategyField, initWord_eq_place,
    BitVec.extractLsb'_or]

theorem decodeCommand_setDictWord (n : BitVec 16) : decodeCommand (setDictWord n) = .setDict n := by
  simp [decodeCommand, illegalWord, reservedBitsSet, opField, lengthField, setDictWord_eq_place, BitVec.extractLsb'_or]

theorem decodeCommand_runWord (f : BitVec 3) : decodeCommand (runWord f) = runInstr f := by
  simp [decodeCommand, illegalWord, reservedBitsSet, opField, flushField, runWord_eq_place, BitVec.extractLsb'_or]

/-- R86, R89. -/
theorem decodeCommand_of_illegalWord {v : Word} (h : illegalWord v = true) : decodeCommand v = .wrCmd v :=
  if_pos h

/-- R84, R88: the codes 5 to 7 have no row of their own. -/
theorem runInstr_of_five_le : ∀ f : BitVec 3, 5 ≤ f.toNat → runInstr f = .run f := by decide

/-! ## Encoded instructions decode back -/

/-- R60: an access at an offset of the register space is decoded by that offset. -/
theorem decode_offset (base : Nat) (write : Bool) (size : Size) (offset : BitVec 12) (v : Word) :
    decode base ⟨write, size, base + offset.toNat, v⟩ = .ok (decodeAt write size offset v) := by
  rw [decode_inside ⟨Nat.le_add_right _ _, Nat.add_lt_add_left offset.isLt _⟩, Nat.add_sub_cancel_left,
    BitVec.ofNat_toNat, BitVec.setWidth_eq]

/-- R80. -/
theorem decode_commandAccess (base : Nat) (v : Word) : decode base (commandAccess base v) = .ok (decodeCommand v) :=
  decode_offset base true .word 0x008#12 v

/-- R143. -/
theorem decodeAt_read {offset : BitVec 12} (haligned : offset.toNat % 4 = 0) (htok : offset.toNat ≠ regOffset .tokData) :
    decodeAt false .word offset 0 = .rd offset := by
  have hbad : isBadAccess false .word offset = false := isBadAccess_eq_false.2 ⟨rfl, haligned, nofun⟩
  simp [decodeAt, hbad, htok]

/-- R146, R245: a rejected access whose data is what it carries is kept as it is. -/
theorem decodeAt_badAccess {write : Bool} {size : Size} {offset : BitVec 12} {v : Word}
    (hbad : isBadAccess write size offset = true) (hdata : carriedData write size offset v = v) :
    decodeAt write size offset v = .badAccess write size offset v := by
  rw [decodeAt, if_pos hbad]
  exact congrArg _ hdata

/-- Settles O2, row by row: a command row by its word, the others by the offset of their access. -/
theorem encodedInstructionsDecodeBack : Obligations.EncodedInstructionsDecodeBack := fun base i h => by
  have command : ∀ {v : Word} {i : Instr}, decodeCommand v = i → decode base (commandAccess base v) = .ok i :=
    fun hv => hv ▸ decode_commandAccess base _
  cases i with
  | nop => exact command rfl
  | init level wbits strategy => exact command (decodeCommand_initWord level wbits strategy)
  | setDict n => exact command (decodeCommand_setDictWord n)
  | run f => exact command ((decodeCommand_runWord f).trans (runInstr_of_five_le f (of_decide_eq_true h)))
  | runNone => exact command (decodeCommand_runWord 0)
  | runPartial => exact command (decodeCommand_runWord 1)
  | runSync => exact command (decodeCommand_runWord 2)
  | runFull => exact command (decodeCommand_runWord 3)
  | runFinish => exact command (decodeCommand_runWord 4)
  | reset => exact command rfl
  | endSession => exact command rfl
  | wrCmd v => exact command (decodeCommand_of_illegalWord h)
  | push v => exact decode_offset base true .word 0x01C#12 v
  | pop => exact decode_offset base false .word 0x024#12 0
  | wrIntEnable v => exact decode_offset base true .word 0x03C#12 v
  | wrIntStatus v => exact decode_offset base true .word 0x040#12 v
  | rd offset =>
    obtain ⟨haligned, htok⟩ := Bool.and_eq_true_iff.1 h
    exact (decode_offset base false .word offset 0).trans
      (congrArg _ (decodeAt_read (of_decide_eq_true haligned) (of_decide_eq_true htok)))
  | badAccess write size offset v =>
    obtain ⟨hbad, hdata⟩ := Bool.and_eq_true_iff.1 h
    exact (decode_offset base write size offset v).trans
      (congrArg _ (decodeAt_badAccess hbad (of_decide_eq_true hdata)))

/-! ## The row of a command word -/

/-- R89: a command word decodes to the one well-formed instruction it encodes. -/
theorem decodeCommand_eq_iff {v : Word} {i : Instr} : decodeCommand v = i ↔ EncodesTo 0 i (commandAccess 0 v) := by
  constructor
  · rintro rfl
    exact decodeCommand_encodesTo 0 v
  · rintro ⟨hwf, hv⟩
    have := encodedInstructionsDecodeBack 0 i hwf
    rw [hv, decode_commandAccess] at this
    exact Except.ok.inj this

/-- R89: a row that the word `w` encodes has no other word. -/
theorem EncodesTo.decodeCommand_eq_iff {i : Instr} {w : Word} (h : EncodesTo 0 i (commandAccess 0 w)) (v : Word) :
    decodeCommand v = i ↔ v = w := by
  rw [Sys2Proof.decodeCommand_eq_iff]
  exact ⟨fun hv => congrArg Access.data (hv.2.symm.trans h.2), fun hv => hv ▸ h⟩

/-- R86, R89. -/
theorem decodeCommand_eq_wrCmd_iff (v : Word) : decodeCommand v = .wrCmd v ↔ illegalWord v = true :=
  ⟨fun h => (decodeCommand_eq_iff.1 h).1, decodeCommand_of_illegalWord⟩

/-- R84, R136 to R140. -/
theorem runInstr_flushCode (f : Flush) : runInstr (flushCode f) = runRow f := by
  cases f <;> rfl

/-! ## The value of a word with several fields -/

/-- A value above lower bits adds to them. -/
theorem toNat_shiftLeft_or {x u : Word} {lo : Nat} (hx : x.toNat * 2 ^ lo < 2 ^ 32) (hu : u.toNat < 2 ^ lo) :
    (x <<< lo ||| u).toNat = x.toNat * 2 ^ lo + u.toNat := by
  rw [BitVec.toNat_or, BitVec.toNat_shiftLeft, Nat.mod_eq_of_lt (by rwa [Nat.shiftLeft_eq]),
    ← Nat.shiftLeft_add_eq_or_of_lt hu, Nat.shiftLeft_eq]

theorem toNat_place_or {w lo : Nat} (v : BitVec w) {u : Word} (hv : lo + w ≤ 32) (hu : u.toNat < 2 ^ lo) :
    (place v lo ||| u).toNat = v.toNat * 2 ^ lo + u.toNat := by
  have hw : (v.setWidth 32).toNat = v.toNat := BitVec.toNat_setWidth_of_le (by omega)
  have fits : v.toNat * 2 ^ lo < 2 ^ 32 := calc
    v.toNat * 2 ^ lo < 2 ^ w * 2 ^ lo := Nat.mul_lt_mul_of_pos_right v.isLt (Nat.two_pow_pos lo)
    _ = 2 ^ (lo + w) := by rw [Nat.add_comm, Nat.pow_add]
    _ ≤ 2 ^ 32 := Nat.pow_le_pow_right (by decide) hv
  rw [place, toNat_shiftLeft_or (by rwa [hw]) hu, hw]

theorem toNat_setDictWord (n : BitVec 16) : (setDictWord n).toNat = n.toNat * 2 ^ 16 + 2 :=
  toNat_place_or n (u := 2) (by decide) (by decide)

theorem toNat_runWord (f : BitVec 3) : (runWord f).toNat = f.toNat * 2 ^ 4 + 3 :=
  toNat_place_or f (u := 3) (by decide) (by decide)

theorem toNat_initWord (level wbits : BitVec 4) (strategy : BitVec 2) : (initWord level wbits strategy).toNat =
    strategy.toNat * 2 ^ 12 + wbits.toNat * 2 ^ 8 + level.toNat * 2 ^ 4 + 1 := by
  have hl := level.isLt
  have hw := wbits.isLt
  have low : (place level 4 ||| 1).toNat = level.toNat * 2 ^ 4 + 1 := toNat_place_or level (by decide) (by decide)
  have mid : (place wbits 8 ||| (place level 4 ||| 1)).toNat = wbits.toNat * 2 ^ 8 + (place level 4 ||| 1).toNat :=
    toNat_place_or wbits (by decide) (by omega)
  have all : (place strategy 12 ||| (place wbits 8 ||| (place level 4 ||| 1))).toNat
      = strategy.toNat * 2 ^ 12 + (place wbits 8 ||| (place level 4 ||| 1)).toNat :=
    toNat_place_or strategy (by decide) (by omega)
  rw [initWord_eq_place, BitVec.or_assoc, BitVec.or_assoc]
  exact all.trans (by omega)

/-- The value of a field of a word. -/
theorem toNat_extractLsb' (v : Word) (start len : Nat) :
    (v.extractLsb' start len).toNat = v.toNat / 2 ^ start % 2 ^ len := by
  rw [BitVec.extractLsb'_toNat, Nat.shiftRight_eq_div_pow]

theorem extractLsb'_ne_zero_iff (v : Word) (start len : Nat) :
    v.extractLsb' start len ≠ 0 ↔ v.toNat / 2 ^ start % 2 ^ len ≠ 0 := by
  rw [← toNat_extractLsb', ← BitVec.toNat_ne_iff_ne]
  rfl

/-- R80. -/
theorem toNat_opField (v : Word) : (opField v).toNat = v.toNat % 16 :=
  BitVec.extractLsb'_toNat 0 4 v

/-! ## Every command word is one row or illegal -/

/-- R86, R120: the reserved bits, opcode by opcode. -/
theorem illegalWord_iff_reservedWord (v : Word) : illegalWord v = true ↔ reservedWord v.toNat := by
  have hv := v.isLt
  rw [illegalWord, reservedBitsSet, reservedWord, Bool.or_eq_true, decide_eq_true_iff, toNat_opField]
  split <;> rw [decide_eq_true_iff, extractLsb'_ne_zero_iff]
  next => omega
  next => omega
  next => omega
  next h1 h2 h3 =>
    rw [imp_false] at h1 h2 h3
    omega

/-- Settles O4: each row has the one word that encodes it, and the words of no row are the reserved ones. -/
theorem everyCommandWordIsOneRowOrIllegal : Obligations.EveryCommandWordIsOneRowOrIllegal := fun v => by
  refine ⟨(decodeCommand_eq_wrCmd_iff v).trans (illegalWord_iff_reservedWord v),
    EncodesTo.decodeCommand_eq_iff ⟨rfl, rfl⟩ v, EncodesTo.decodeCommand_eq_iff ⟨rfl, rfl⟩ v,
    EncodesTo.decodeCommand_eq_iff ⟨rfl, rfl⟩ v, fun n => ?setDict, fun f => ?runRow, fun c hc => ?run,
    fun l w st => ?init⟩
  case setDict =>
    rw [EncodesTo.decodeCommand_eq_iff (w := setDictWord n) ⟨rfl, rfl⟩, ← BitVec.toNat_inj, toNat_setDictWord]
  case runRow =>
    rw [← runInstr_flushCode, (runInstr_encodesTo 0 (flushCode f)).decodeCommand_eq_iff, ← BitVec.toNat_inj,
      toNat_runWord]
  case run =>
    rw [← runInstr_of_five_le c hc, (runInstr_encodesTo 0 c).decodeCommand_eq_iff, ← BitVec.toNat_inj, toNat_runWord]
  case init =>
    rw [EncodesTo.decodeCommand_eq_iff (w := initWord l w st) ⟨rfl, rfl⟩, ← BitVec.toNat_inj, toNat_initWord]

/-! ## Token words -/

/-- R8: `WBITS` is at most 15. -/
theorem windowSize_le (c : SessionConfig) : windowSize c ≤ 32768 :=
  Nat.pow_le_pow_right Nat.two_pos (Nat.le_of_lt_succ c.wbits.isLt)

/-- R226. -/
theorem tokenInBounds_backref {c : SessionConfig} {len dist : Nat} (h : tokenInBounds c (.backref len dist) = true) :
    3 ≤ len ∧ len ≤ 258 ∧ 1 ≤ dist ∧ dist ≤ 2 ^ c.wbits.toNat - 262 ∧ dist ≤ 32506 := by
  simp only [tokenInBounds, Bool.and_eq_true, decide_eq_true_iff] at h
  obtain ⟨⟨⟨hl3, hl⟩, hd1⟩, hd⟩ := h
  exact ⟨hl3, hl, hd1, hd, hd.trans (Nat.sub_le_sub_right (windowSize_le c) 262)⟩

/-- R92. -/
theorem toNat_tokenWord_backref {len dist : Nat} (hl : len ≤ 258) (hd : dist ≤ 32506) :
    (tokenWord (.backref len dist)).toNat = 0x40000000 + (len - 3) * 2 ^ 16 + (dist - 1) := by
  have elen : (BitVec.ofNat 32 (len - 3)).toNat = len - 3 := Nat.mod_eq_of_lt (by omega)
  have edist : (BitVec.ofNat 32 (dist - 1)).toNat = dist - 1 := Nat.mod_eq_of_lt (by omega)
  have low : (BitVec.ofNat 32 (len - 3) <<< 16 ||| BitVec.ofNat 32 (dist - 1)).toNat = (len - 3) * 2 ^ 16 + (dist - 1) := by
    rw [toNat_shiftLeft_or (by omega) (by omega), elen, edist]
  rw [tokenWord, BitVec.or_assoc, Nat.add_assoc, ← low]
  exact toNat_place_or 1#2 (lo := 30) (by decide) (by omega)

/-- R95: the kind and the fields of the word of a match. -/
theorem tokenOfWord_tokenWord_backref {len dist : Nat} (hl3 : 3 ≤ len) (hl : len ≤ 258) (hd1 : 1 ≤ dist)
    (hd : dist ≤ 32506) : tokenOfWord (tokenWord (.backref len dist)) = some (.backref len dist) := by
  have value := toNat_tokenWord_backref hl hd
  have kind : ((tokenWord (.backref len dist)).extractLsb' 30 2).toNat = 1 := by rw [toNat_extractLsb', value]; omega
  have length : ((tokenWord (.backref len dist)).extractLsb' 16 8).toNat = len - 3 := by
    rw [toNat_extractLsb', value]; omega
  have distance : ((tokenWord (.backref len dist)).extractLsb' 0 15).toNat = dist - 1 := by
    rw [toNat_extractLsb', value]; omega
  simp only [tokenOfWord, kind, length, distance, Nat.sub_add_cancel hl3, Nat.sub_add_cancel hd1]

/-- R91: a literal's word is its byte. -/
theorem tokenWord_lit (b : Byte) : tokenWord (.lit b) = place b 0 := by
  simp [tokenWord, place]

/-- R91 to R95: the token decoder reads every token in bounds back. -/
theorem tokenOfWord_tokenWord {c : SessionConfig} {t : Token} (h : tokenInBounds c t = true) :
    tokenOfWord (tokenWord t) = some t := by
  cases t with
  | lit b => simp [tokenOfWord, tokenWord_lit]
  | mark f => cases f <;> rfl
  | backref len dist =>
    obtain ⟨hl3, hl, hd1, -, hd⟩ := tokenInBounds_backref h
    exact tokenOfWord_tokenWord_backref hl3 hl hd1 hd

/-- Settles O5: the values kind by kind, and the EMPTY word is the word of no token because it is read back as none. -/
theorem tokenWordsDecodeBack : Obligations.TokenWordsDecodeBack := fun c t h => by
  have back := tokenOfWord_tokenWord h
  refine ⟨back, fun hempty => ?empty, ?lit, ?backref, ?mark⟩
  case empty =>
    rw [hempty] at back
    cases back
  case lit =>
    rintro b rfl
    rw [tokenWord_lit, toNat_place_zero b (by decide)]
  case backref =>
    rintro len dist rfl
    obtain ⟨hl3, hl, hd1, hwindow, hd⟩ := tokenInBounds_backref h
    exact ⟨toNat_tokenWord_backref hl hd, hl3, hl, hd1, hwindow, hd⟩
  case mark =>
    rintro f rfl
    cases f <;> rfl

/-! ## Command words run their rows -/

/-- R84, R135: a RUN by its raw field does what the row of its flush type does. -/
theorem exec_runInstr (f : BitVec 3) (s : State) : exec (runInstr f) s = execRun f s := by
  cases h : flushOfCode f with
  | none =>
    rw [runInstr, h]
    rfl
  | some g =>
    rw [runInstr, execRun, h]
    cases g <;> rfl

/-- R86: a legal word has an opcode of the table. -/
theorem opField_lt_six {v : Word} (h : ¬illegalWord v = true) : (opField v).toNat < 6 := by
  rw [illegalWord, Bool.or_eq_true, decide_eq_true_iff, not_or] at h
  exact Nat.lt_of_not_le h.1

/-- Settles O17: `wr CMD` branches on its word as the decoder does, first by legality and then by opcode. -/
theorem commandWordsRunTheirRows : Obligations.CommandWordsRunTheirRows := fun v s => by
  by_cases hill : illegalWord v = true
  · rw [decodeCommand_of_illegalWord hill]
  · have hop := opField_lt_six hill
    rw [exec, execWrCmd, if_neg hill, decodeCommand, if_neg hill]
    generalize (opField v).toNat = op at hop ⊢
    match op, hop with
    | 0, _ => rfl
    | 1, _ => rfl
    | 2, _ => rfl
    | 3, _ => exact (exec_runInstr _ s).symm
    | 4, _ => rfl
    | 5, _ => rfl

/-! ## Written-out words -/

/-- Settles O1: the decoder computes the row of each of these closed words and accesses. -/
theorem writtenOutWordsDecodeToTheirRows : Obligations.WrittenOutWordsDecodeToTheirRows := by
  unfold Obligations.WrittenOutWordsDecodeToTheirRows
  decide

end Sys2Proof

namespace Sys2Proof.Machine

/-! ## The checks of a command, one by one -/

/-- R120, R245: a usage error of a `CMD` write is a rejected write. -/
theorem commandError_eq_rejectedWrite (k : ErrKind) (v : Word) (s : State) :
    commandError k v s = rejectedWrite k 0x008 v s := rfl

/-- R89, R241: a word of no row is rejected, with BUSY first. -/
theorem rejectIllegal_eq_rejectedWrite (v : Word) (s : State) :
    rejectIllegal v s = rejectedWrite (if s.busy then .busy else .illegalCmd) 0x008 v s := by
  unfold rejectIllegal
  split <;> rfl

section Issue

variable {op : Op} {v : Word} {bad allowed : Bool} {accept : State → State} {s : State}

theorem issue_of_busy (hb : s.busy = true) : issue op v bad allowed accept s = rejectedWrite .busy 0x008 v s :=
  if_pos hb

theorem issue_of_badParam (hb : s.busy = false) (hp : bad = true) :
    issue op v bad allowed accept s = rejectedWrite .badParam 0x008 v s := by
  simp [issue, hb, hp, commandError_eq_rejectedWrite]

theorem issue_of_not_allowed (hb : s.busy = false) (hp : bad = false) (ha : allowed = false) :
    issue op v bad allowed accept s = rejectedWrite .badState 0x008 v s := by
  simp [issue, hb, hp, ha, commandError_eq_rejectedWrite]

/-- R120: a command whose checks all pass is accepted. -/
theorem issue_of_allowed (hb : s.busy = false) (hp : bad = false) (ha : allowed = true) :
    issue op v bad allowed accept s = accept (begun op s) := by
  simp [issue, hb, hp, ha, begun]

end Issue

/-! ## The operands of a command -/

/-- R87. -/
theorem resolveLevel_eq (level : BitVec 4) : resolveLevel level = if level.toNat = 15 then 6 else level := by
  revert level; decide

/-- R87. -/
theorem resolveWbits_eq (wbits : BitVec 4) : resolveWbits wbits = if wbits.toNat = 0 then 15 else wbits := by
  revert wbits; decide

theorem strategyOf_strategyCode (strategy : Strategy) : strategyOf (strategyCode strategy) = some strategy := by
  cases strategy <;> rfl

/-- R88: the operands of INIT that are out of range. -/
theorem badInitParam_eq_true {level wbits : BitVec 4} {field : BitVec 2} : badInitParam level wbits field = true ↔
    (10 ≤ level.toNat ∧ level.toNat ≤ 14) ∨ (1 ≤ wbits.toNat ∧ wbits.toNat ≤ 8) ∨ field.toNat = 3 := by
  simp [badInitParam, or_assoc, ← BitVec.toNat_inj]

theorem strategyCode_lt_three (strategy : Strategy) : (strategyCode strategy).toNat < 3 := by
  cases strategy <;> decide

/-- R84: a flush type has its own code only. -/
theorem flushCode_of_flushOfCode {c : BitVec 3} {f : Flush} (h : flushOfCode c = some f) : flushCode f = c := by
  revert c; cases f <;> decide

/-- R84, R88: the codes of no flush type. -/
theorem flushOfCode_eq_none : ∀ {c : BitVec 3}, flushOfCode c = none ↔ 5 ≤ c.toNat := by decide

theorem flushOfCode_flushCode (f : Flush) : flushOfCode (flushCode f) = some f := by
  cases f <;> rfl

theorem flushCode_eq_four {f : Flush} : (flushCode f).toNat = 4 ↔ f = .finish := by
  cases f <;> decide

/-! ## A legal command word presents one command -/

/-- R120: writing the word `v` to `CMD` presents a command whose checks are those of R88 and R121, and whose acceptance
effects touch neither `BUSY` nor the error record. -/
structure Presents (v : Word) (s : State) (op : Op) (bad allowed : Bool) (accept : State → State) : Prop where
  outcome : exec (.wrCmd v) s = .next (issue op v bad allowed accept s)
  badParam : bad = true ↔ outOfRange v.toNat
  session : s.session ≠ .finishing → bad = false →
    (allowed = true ↔ sessionTable (v.toNat % 16) (v.toNat / 2 ^ 4 % 8) s)
  accept : ∀ t, (accept t).busy = t.busy ∧ (accept t).err = t.err ∧ (accept t).errFlag = t.errFlag

/-- R88: only INIT and RUN have operands with a range. -/
theorem not_outOfRange {v : Word} (h1 : (opField v).toNat ≠ 1) (h3 : (opField v).toNat ≠ 3) : ¬outOfRange v.toNat := by
  rw [toNat_opField] at h1 h3
  rw [outOfRange]
  omega

/-- R88: a RUN is out of range by its flush code. -/
theorem outOfRange_run {v : Word} (hop : (opField v).toNat = 3) :
    outOfRange v.toNat ↔ flushOfCode (flushField v) = none := by
  rw [toNat_opField] at hop
  rw [flushOfCode_eq_none, flushField, toNat_extractLsb', outOfRange]
  omega

/-- R86, R89: a word with a reserved bit or opcode is of no row. -/
theorem exec_wrCmd_of_reserved {v : Word} (h : reservedWord v.toNat) (s : State) :
    exec (.wrCmd v) s = .next (rejectIllegal v s) :=
  if_pos ((illegalWord_iff_reservedWord v).2 h)

section Words

variable {v : Word} (s : State) (hill : ¬illegalWord v = true)
include hill

theorem reservedBitsSet_of_legal : reservedBitsSet v = false := by
  rw [illegalWord, Bool.or_eq_true, not_or] at hill
  exact Bool.eq_false_iff.2 hill.2

/-- R82, R88, R125. -/
theorem presents_init (hop : (opField v).toNat = 1) : Presents v s .init
    (badInitParam (levelField v) (wbitsField v) (strategyField v)) (initAllowed s)
    (acceptInit (levelField v) (wbitsField v) ((strategyOf (strategyField v)).getD .default)) where
  outcome := by
    simp only [exec, execWrCmd, if_neg hill, hop, execInit, initWord_fields hop (reservedBitsSet_of_legal hill)]
  badParam := by
    rw [toNat_opField] at hop
    simp only [badInitParam_eq_true, levelField, wbitsField, strategyField, toNat_extractLsb', outOfRange]
    omega
  session hs _ := by
    rw [← toNat_opField, hop, initAllowed_eq_true]
    exact and_iff_right hs
  accept _ := ⟨rfl, rfl, rfl⟩

/-- R83, R127. -/
theorem presents_setDict (hop : (opField v).toNat = 2) :
    Presents v s .setDict false (setDictAllowed s) (acceptSetDict (lengthField v)) where
  outcome := by
    simp only [exec, execWrCmd, if_neg hill, hop, execSetDict, setDictWord_fields hop (reservedBitsSet_of_legal hill)]
  badParam := iff_of_false Bool.false_ne_true (not_outOfRange (by rw [hop]; decide) (by rw [hop]; decide))
  session _ _ := by
    rw [← toNat_opField, hop, setDictAllowed_eq_true]
    rfl
  accept _ := ⟨rfl, rfl, rfl⟩

/-- R84, R135: a RUN with a legal flush code. -/
theorem presents_run {f : Flush} (hop : (opField v).toNat = 3) (hf : flushOfCode (flushField v) = some f) :
    Presents v s .run false (runAllowed f s) (acceptRun f) where
  outcome := by
    simp only [exec, execWrCmd, if_neg hill, hop, execRun, hf, issueRun, flushCode_of_flushOfCode hf,
      runWord_fields hop (reservedBitsSet_of_legal hill)]
  badParam := by simp [outOfRange_run hop, hf]
  session _ _ := by
    have hcode : v.toNat / 2 ^ 4 % 8 = (flushCode f).toNat := by
      rw [flushCode_of_flushOfCode hf]
      exact (toNat_extractLsb' v 4 3).symm
    rw [← toNat_opField, hop, hcode, runAllowed_eq_true, ← flushCode_eq_four]
    rfl
  accept _ := ⟨rfl, rfl, rfl⟩

/-- R84, R88: a RUN with a flush code of no flush type. -/
theorem presents_badRun (hop : (opField v).toNat = 3) (hf : flushOfCode (flushField v) = none) :
    Presents v s .run true false id where
  outcome := by
    simp only [exec, execWrCmd, if_neg hill, hop, execRun, hf, runWord_fields hop (reservedBitsSet_of_legal hill)]
  badParam := by simp [outOfRange_run hop, hf]
  session _ := nofun
  accept _ := ⟨rfl, rfl, rfl⟩

/-- R85, R131. -/
theorem presents_reset (hop : (opField v).toNat = 4) : Presents v s .reset false (openSession s) acceptReset where
  outcome := by
    obtain rfl : resetWord = v := bareWord_eq hop nofun nofun nofun (reservedBitsSet_of_legal hill)
    rfl
  badParam := iff_of_false Bool.false_ne_true (not_outOfRange (by rw [hop]; decide) (by rw [hop]; decide))
  session _ _ := by
    rw [← toNat_opField, hop, openSession_eq_true]
    rfl
  accept _ := ⟨rfl, rfl, rfl⟩

/-- R85, R133. -/
theorem presents_endSession (hop : (opField v).toNat = 5) :
    Presents v s .endSession false (openSession s) acceptEnd where
  outcome := by
    obtain rfl : endWord = v := bareWord_eq hop nofun nofun nofun (reservedBitsSet_of_legal hill)
    rfl
  badParam := iff_of_false Bool.false_ne_true (not_outOfRange (by rw [hop]; decide) (by rw [hop]; decide))
  session _ _ := by
    rw [← toNat_opField, hop, openSession_eq_true]
    rfl
  accept _ := ⟨rfl, rfl, rfl⟩

/-- R89, R120: a legal word but 0 presents the command of its opcode. -/
theorem exists_presents (hv : v ≠ 0) : ∃ op bad allowed accept, Presents v s op bad allowed accept := by
  have hlt := opField_lt_six hill
  match hop : (opField v).toNat, hlt with
  | 0, _ => exact absurd (bareWord_eq hop nofun nofun nofun (reservedBitsSet_of_legal hill)).symm hv
  | 1, _ => exact ⟨_, _, _, _, presents_init s hill hop⟩
  | 2, _ => exact ⟨_, _, _, _, presents_setDict s hill hop⟩
  | 3, _ =>
    cases hf : flushOfCode (flushField v) with
    | none => exact ⟨_, _, _, _, presents_badRun s hill hop hf⟩
    | some f => exact ⟨_, _, _, _, presents_run s hill hop hf⟩
  | 4, _ => exact ⟨_, _, _, _, presents_reset s hill hop⟩
  | 5, _ => exact ⟨_, _, _, _, presents_endSession s hill hop⟩

end Words

/-- Settles O16: a reserved word meets BUSY and ILLEGAL_CMD only, and a legal one presents a command, whose checks come in the
order of `issue`. -/
theorem commandChecksAreInOrder : Obligations.CommandChecksAreInOrder := fun v s hv hfin => by
  by_cases hr : reservedWord v.toNat
  · have hx := exec_wrCmd_of_reserved hr s
    rw [rejectIllegal_eq_rejectedWrite] at hx
    exact ⟨fun hb => by rw [hx, if_pos hb], fun hb _ => by rw [hx, hb]; rfl, fun _ h => absurd hr h,
      fun _ h => absurd hr h, fun _ h => absurd hr h⟩
  · have hill : ¬illegalWord v = true := mt (illegalWord_iff_reservedWord v).1 hr
    obtain ⟨op, bad, allowed, accept, hx, hbad, hsession, haccept⟩ := exists_presents s hill hv
    have inRange : ¬outOfRange v.toNat → bad = false := fun hp => Bool.eq_false_iff.2 (mt hbad.1 hp)
    have table (hb : s.busy = false) (hp : ¬outOfRange v.toNat) :
        allowed = true ↔ sessionTable (v.toNat % 16) (v.toNat / 2 ^ 4 % 8) s :=
      hsession (hfin.resolve_right (by simp [hb])) (inRange hp)
    refine ⟨fun hb => ?busy, fun _ h => absurd h hr, fun hb _ hp => ?badParam, fun hb _ hp hs => ?badState,
      fun hb _ hp hs => ?accepted⟩ <;> rw [hx]
    case busy => rw [issue_of_busy hb]
    case badParam => rw [issue_of_badParam hb (hbad.2 hp)]
    case badState => rw [issue_of_not_allowed hb (inRange hp) (Bool.eq_false_iff.2 (mt (table hb hp).1 hs))]
    case accepted =>
      rw [issue_of_allowed hb (inRange hp) ((table hb hp).2 hs)]
      exact ⟨_, rfl, haccept _⟩

/-! ## NOP and the accepted commands -/

theorem exec_wrCmd_zero (s : State) : exec (.wrCmd 0) s = .next s := rfl

/-- Settles O11: a word of opcode 0 that is not 0 has a reserved bit set. -/
theorem nopHasNoEffect : Obligations.NopHasNoEffect := by
  refine ⟨rfl, fun s => ⟨rfl, exec_wrCmd_zero s⟩, fun v s hop hv => ?_⟩
  have hr : reservedWord v.toNat := by
    have hv' : v.toNat ≠ 0 := (BitVec.toNat_ne_iff_ne (y := 0#32)).2 hv
    rw [reservedWord]
    omega
  rw [exec_wrCmd_of_reserved hr, rejectIllegal_eq_rejectedWrite]
  exact ⟨decodeCommand_of_illegalWord ((illegalWord_iff_reservedWord v).2 hr), rfl⟩

/-- Settles O12: the operands are in range and the session is not FAULTED, so the checks pass. -/
theorem initIsAccepted : Obligations.InitIsAccepted := fun level wbits field strategy s hb hlevel hwbits hfield hs => by
  subst hfield
  have hp : badInitParam level wbits (strategyCode strategy) = false := by
    have := strategyCode_lt_three strategy
    rw [← Bool.not_eq_true, badInitParam_eq_true]
    omega
  have ha : initAllowed s = true := by
    rw [initAllowed_eq_true]
    obtain h | h | h | h := hs <;> simp [h]
  rw [exec, execInit, issue_of_allowed hb hp ha, strategyOf_strategyCode, ← resolveLevel_eq, ← resolveWbits_eq]
  rfl

/-- Settles O13: READY with no dictionary loaded is the session check of SET_DICT. -/
theorem setDictIsAccepted : Obligations.SetDictIsAccepted := fun n s hb hs hd => by
  rw [exec, execSetDict, issue_of_allowed hb rfl (setDictAllowed_eq_true.2 ⟨hs, hd⟩)]
  rfl

/-- R136 to R140. -/
theorem exec_runRow (f : Flush) (s : State) : exec (runRow f) s = .next (issueRun f s) := by
  cases f <;> rfl

/-- R135: the raw-field row of a legal code. -/
theorem exec_run_flushCode (f : Flush) (s : State) : exec (.run (flushCode f)) s = .next (issueRun f s) := by
  rw [exec, execRun, flushOfCode_flushCode]

/-- Settles O14: both rows present the same RUN. -/
theorem runIsAccepted : Obligations.RunIsAccepted := fun f s hb hs => by
  refine ⟨_, exec_runRow f s, exec_run_flushCode f s, ?_⟩
  rw [issueRun, issue_of_allowed hb rfl (runAllowed_eq_true.2 hs)]
  rfl

/-- Settles O15: RESET and END have one session check, an open session. -/
theorem resetAndEndAreAccepted : Obligations.ResetAndEndAreAccepted := fun s hb hs => by
  have ha := openSession_eq_true.2 hs
  rw [exec, exec, execReset, execEndSession, issue_of_allowed hb rfl ha, issue_of_allowed hb rfl ha]
  exact ⟨rfl, rfl⟩

end Sys2Proof.Machine

namespace Sys2Proof.Machine

/-! ## Push and pop -/

@[simp] theorem pushAllowed_eq_true {s : State} : pushAllowed s = true ↔
    (s.session = .ready ∨ s.session = .streaming) ∧ s.phase ≠ .initOp ∧ s.phase ≠ .resetOp ∧ s.phase ≠ .endOp := by
  simp [pushAllowed, and_assoc]

theorem inFull_eq_true {s : State} : inFull s = true ↔ s.inFifo.length = s.params.inFifoDepth :=
  decide_eq_true_iff

/-- R141, R245: a usage error of a push is a rejected write. -/
theorem pushError_eq_rejectedWrite (k : ErrKind) (v : Word) (s : State) :
    pushError k v s = rejectedWrite k 0x01C v s := rfl

theorem exec_push_of_not_allowed {s : State} (h : ¬pushAllowed s = true) (v : Word) :
    exec (.push v) s = .next (rejectedWrite .badState 0x01C v s) := by
  simp only [exec, execPush, h, Bool.not_false, if_true, pushError_eq_rejectedWrite]

theorem exec_push_of_full {s : State} (h : pushAllowed s = true) (hfull : inFull s = true) (v : Word) :
    exec (.push v) s = .next (rejectedWrite .inOverflow 0x01C v s) := by
  simp only [exec, execPush, h, hfull, Bool.not_true, Bool.false_eq_true, if_false, if_true, pushError_eq_rejectedWrite]

theorem exec_push_of_room {s : State} (h : pushAllowed s = true) (hroom : ¬inFull s = true) (v : Word) :
    exec (.push v) s = .next (appendInput v s) := by
  simp only [exec, execPush, h, hroom, Bool.not_true, Bool.false_eq_true, if_false]

/-- Settles O18: the two checks of a push, in the order of R141. -/
theorem pushAppendsTheByteOrIsRejected : Obligations.PushAppendsTheByteOrIsRejected := fun v s => by
  refine ⟨fun hs hi hr he hroom => ?append, fun hbad => ?badState, fun hs hi hr he hfull => ?overflow⟩
  case append =>
    exact ⟨v.setWidth 8, BitVec.toNat_setWidth 8 v,
      exec_push_of_room (pushAllowed_eq_true.2 ⟨hs, hi, hr, he⟩) (mt inFull_eq_true.1 hroom) v⟩
  case badState =>
    refine exec_push_of_not_allowed (fun h => ?_) v
    obtain ⟨hs, hi, hr, he⟩ := pushAllowed_eq_true.1 h
    obtain ⟨hnr, hns⟩ | hbad | hbad | hbad := hbad
    · exact hs.elim hnr hns
    · exact hi hbad
    · exact hr hbad
    · exact he hbad
  case overflow => exact exec_push_of_full (pushAllowed_eq_true.2 ⟨hs, hi, hr, he⟩) (inFull_eq_true.2 hfull) v

/-- Settles O19, by the two forms of the FIFO. -/
theorem popReturnsTheOldestToken : Obligations.PopReturnsTheOldestToken := fun s => by
  constructor
  · intro t rest h
    simp only [exec, execPop, tokDataWord, h, List.tail_cons]
  · intro h
    have tail : s.tokFifo.tail = s.tokFifo := by rw [h, List.tail_nil]
    rw [exec, execPop, tail, tokDataWord, h]

/-! ## Register reads -/

/-- R21: a register is found at its offset. -/
theorem regAt_regOffset (r : Reg) : regAt (regOffset r) = some r := by
  cases r <;> rfl

theorem regOffset_lt (r : Reg) : regOffset r < 0x058 := by
  cases r <;> decide

/-- R36: from 0x058 on no register stands. -/
theorem regAt_reserved {n : Nat} (h : 0x058 ≤ n) : regAt n = none := by
  cases hr : regAt n with
  | none => rfl
  | some r =>
    have := regOffset_lt r
    rw [← regAt_eq_some hr] at this
    omega

theorem offsetValue_regOffset (s : State) (r : Reg) : offsetValue s (regOffset r) = registerValue s r := by
  rw [offsetValue, regAt_regOffset]

theorem offsetValue_reserved (s : State) {n : Nat} (h : 0x058 ≤ n) : offsetValue s n = 0 := by
  rw [offsetValue, regAt_reserved h]

/-- Settles O20, by what stands at the offset. -/
theorem readReturnsTheRegister : Obligations.ReadReturnsTheRegister := fun offset s => by
  refine ⟨fun r h => ?register, fun h => ?reserved, fun h => ?writeOnly⟩ <;> rw [exec, execRd]
  case register => rw [h, offsetValue_regOffset]
  case reserved => rw [offsetValue_reserved s h]
  case writeOnly =>
    obtain h | h := h <;> rw [h]
    · rw [show (0x008 : Nat) = regOffset .cmd from rfl, offsetValue_regOffset, registerValue]
    · rw [show (0x01C : Nat) = regOffset .inData from rfl, offsetValue_regOffset, registerValue]

/-! ## The interrupt registers -/

/-- R255: the interrupt output, bit by bit. -/
theorem irq_iff_exists (s : State) :
    irq s = true ↔ ∃ i, i < 4 ∧ s.intEnable.getLsbD i = true ∧ (intStatusBits s).getLsbD i = true := by
  rw [irq, decide_eq_true_iff, and_ne_zero_iff_getLsbD]
  constructor
  · rintro (⟨h, he⟩ | ⟨h, he⟩ | ⟨h, he⟩ | ⟨h, he⟩)
    · exact ⟨0, by decide, he, h⟩
    · exact ⟨1, by decide, he, h⟩
    · exact ⟨2, by decide, he, h⟩
    · exact ⟨3, by decide, he, h⟩
  · rintro ⟨i, hi, he, h⟩
    match i, hi with
    | 0, _ => exact .inl ⟨h, he⟩
    | 1, _ => exact .inr (.inl ⟨h, he⟩)
    | 2, _ => exact .inr (.inr (.inl ⟨h, he⟩))
    | 3, _ => exact .inr (.inr (.inr ⟨h, he⟩))

/-- Settles O21: the new enables are the low four bits of the word, and `INT_STATUS` does not read them. -/
theorem intEnableTakesFourBits : Obligations.IntEnableTakesFourBits := fun v s => by
  have value : (v.extractLsb' 0 4).toNat = v.toNat % 16 := BitVec.extractLsb'_toNat 0 4 v
  refine ⟨fun base => decode_offset base true .word 0x03C#12 v, v.extractLsb' 0 4, value, rfl, ?readBack, ?interrupt⟩
  case readBack => rw [registerValue, toNat_place_zero _ (by decide), value]
  case interrupt =>
    rw [irq_iff_exists]
    refine exists_congr fun i => and_congr_right fun hi => ?_
    rw [BitVec.getLsbD_extractLsb', decide_eq_true hi, Bool.true_and, Nat.zero_add]
    rfl

/-- Settles O22: the condition on the record is the same with a Boolean and with a proposition. -/
theorem intStatusIsWriteOneToClear : Obligations.IntStatusIsWriteOneToClear := fun v s => by
  refine ⟨fun base => decode_offset base true .word 0x040#12 v, ?_⟩
  have done : (if v.getLsbD 0 then false else s.done) = (s.done && !v.getLsbD 0) := by
    cases v.getLsbD 0 <;> simp
  simp only [exec, execWrIntStatus, acknowledge, done, Bool.and_eq_true, decide_eq_true_iff, ErrRecord.none]

/-! ## Bad accesses -/

/-- R21, R242: the offsets a word write is legal to. -/
theorem writable_iff {n : Nat} : writable n = true ↔ n = 0x008 ∨ n = 0x01C ∨ n = 0x03C ∨ n = 0x040 := by
  constructor
  · intro h
    obtain h | h | h | h := writable_cases h <;> simp [regAt_eq_some h, regOffset]
  · rintro (rfl | rfl | rfl | rfl) <;> rfl

/-- R146, R242: the three ways an access is bad. -/
theorem isBadAccess_eq_true {write : Bool} {size : Size} {offset : BitVec 12} : isBadAccess write size offset = true ↔
    size ≠ .word ∨ offset.toNat % 4 ≠ 0 ∨ (write = true ∧ writable offset.toNat = false) := by
  simp [isBadAccess, or_assoc]

/-- R89, R242: an access decodes to a bad access exactly when it is one. -/
theorem decodeAt_eq_badAccess_iff {write : Bool} {size : Size} {offset : BitVec 12} {v : Word} :
    (∃ w, decodeAt write size offset v = .badAccess write size offset w) ↔ isBadAccess write size offset = true := by
  constructor
  · rintro ⟨w, h⟩
    have hwf := (decodeAt_encodesTo 0 write size offset v).1
    rw [h] at hwf
    exact (Bool.and_eq_true_iff.1 hwf).1
  · intro h
    exact ⟨_, if_pos h⟩

/-- Settles O23: the record is that of `recordUsage`, and the bad accesses are those `isBadAccess` names. -/
theorem badAccessOnlyRecords : Obligations.BadAccessOnlyRecords := by
  refine ⟨fun write size offset v s => rfl, fun write size offset v => ?_⟩
  rw [decodeAt_eq_badAccess_iff, isBadAccess_eq_true, ← Bool.not_eq_true, writable_iff]
  simp only [not_or, ne_eq]

end Sys2Proof.Machine

namespace Sys2Proof.Machine.Memory

variable {w : Nat}

/-- In the canonical form a listed entry is what its index reads. -/
theorem read_eq_of_mem_from {e : Nat × BitVec w} : ∀ {lo : Nat} {m : Cells w}, wfFrom lo m = true → e ∈ m →
    lo ≤ e.1 ∧ read m e.1 = e.2
  | lo, (k, v) :: rest, hm, he => by
    simp only [wfFrom, Bool.and_eq_true, decide_eq_true_eq] at hm
    obtain ⟨⟨hlo, -⟩, hrest⟩ := hm
    obtain rfl | hmem := List.mem_cons.1 he
    · exact ⟨hlo, if_pos rfl⟩
    · obtain ⟨hk, hread⟩ := read_eq_of_mem_from hrest hmem
      exact ⟨by omega, (if_neg (by omega)).trans hread⟩

theorem read_eq_of_mem {e : Nat × BitVec w} {m : Cells w} (hm : wf m = true) (he : e ∈ m) : read m e.1 = e.2 :=
  (read_eq_of_mem_from hm he).2

/-- The first `n` values of a list, and 0 after them. -/
theorem read_ofList_take (l : List (BitVec w)) (n a : Nat) :
    read (ofList (l.take n)) a = if a < n then l.getD a 0 else 0 := by
  rw [read_ofList, List.getD_eq_getElem?_getD, List.getElem?_take, List.getD_eq_getElem?_getD]
  split <;> rfl

end Sys2Proof.Machine.Memory

namespace Sys2Proof.Machine

open Sys2Proof.Config

/-! ## Steps that emit nothing -/

/-- R250: a silent step into a state that meets the invariants of R54 raises no internal fault. -/
theorem engineStep_of_silent {s t : State} (he : enabled s = true) (ha : attempt s = silent t) (ht : SpecInvariants t) :
    engineStep s = t := by
  obtain ⟨session, fifos⟩ := ht
  have hnone : firstBroken t none = none := by
    refine (firstBroken_eq_none t none).2 ⟨fun hs => ?_, nofun⟩
    obtain ⟨window, heads, held, lengths⟩ := session hs
    exact ⟨window, heads, held, lengths, fifos⟩
  rw [engineStep, if_pos he, ha, commit]
  simp only [silent, emitOpt, hnone]

/-! ## The steps of INIT, RESET and END -/

/-- R124: a cleared session meets the invariants of R54. -/
theorem specInvariants_of_cleared {t : State} (hr : t.regs = EngineRegs.cleared) (hh : t.head = []) (hin : t.inFifo = [])
    (htok : t.tokFifo = []) : SpecInvariants t := by
  refine ⟨fun _ => ?_, fifosFit_eq_true.2 (by simp [hin, htok])⟩
  simp [windowFits, headsInserted, heldByteOk, lengthsOk, hr, hh, EngineRegs.cleared, maxMatch]

theorem engineStep_initOp {s : State} (hb : s.busy = true) (hp : s.phase = .initOp) : engineStep s = initOp s :=
  engineStep_of_silent (by simp [enabled_iff, hb, hp]) (by rw [attempt, hp])
    (specInvariants_of_cleared rfl rfl rfl rfl)

theorem engineStep_resetOp {s : State} (hb : s.busy = true) (hp : s.phase = .resetOp) : engineStep s = resetOp s :=
  engineStep_of_silent (by simp [enabled_iff, hb, hp]) (by rw [attempt, hp])
    (specInvariants_of_cleared rfl rfl rfl rfl)

theorem engineStep_endOp {s : State} (hb : s.busy = true) (hp : s.phase = .endOp) : engineStep s = endOp s :=
  engineStep_of_silent (by simp [enabled_iff, hb, hp]) (by rw [attempt, hp]) (specInvariants_endOp s)

theorem sessionCleared_initOp (s : State) : sessionCleared (initOp s) :=
  ⟨fun _ => rfl, rfl, rfl, rfl, rfl, rfl, rfl, rfl, rfl⟩

theorem sessionCleared_resetOp (s : State) : sessionCleared (resetOp s) :=
  ⟨fun _ => rfl, rfl, rfl, rfl, rfl, rfl, rfl, rfl, rfl⟩

/-- R31: the tuning row of a level in the table. -/
theorem levelRow_of_getElem? {p : Params} {level : BitVec 4} {row : LevelRow}
    (h : p.levelTable[level.toNat]? = some row) : levelRow p level = row := by
  rw [levelRow, List.getD_eq_getElem?_getD, h, Option.getD_some]

/-- D39 (log 6): the window and the prev table after INIT, by a draw of the state. -/
theorem read_drawn_of_draws {s : State} {d : Draw} {rest : List Draw} (h : s.draws = d :: rest) (n a : Nat) :
    Memory.read (drawnWindow n s) a = (if a < n then d.window.getD a 0 else 0)
      ∧ Memory.read (drawnPrev n s) a = (if a < n then d.prev.getD a 0 else 0) := by
  rw [drawnWindow, drawnPrev, h]
  exact ⟨Memory.read_ofList_take _ _ _, Memory.read_ofList_take _ _ _⟩

/-- D39 (log 6): the same by the free constants, when the state carries no draw. -/
theorem read_drawn_of_no_draws {s : State} (h : s.draws = []) (n a : Nat) :
    Memory.read (drawnWindow n s) a = (if a < n then windowInit s.drawIndex a else 0)
      ∧ Memory.read (drawnPrev n s) a = (if a < n then prevInit s.drawIndex a else 0) := by
  rw [drawnWindow, drawnPrev, h]
  exact ⟨Memory.read_ofFn _ _ _, Memory.read_ofFn _ _ _⟩

/-- Settles O25: the step is `initOp`, whose memories are the next draw. -/
theorem initStepOpensASession : Obligations.InitStepOpensASession := fun s hb hp => by
  refine ⟨initOp s, engineStep_initOp hb hp, sessionCleared_initOp s, ⟨rfl, rfl, rfl, rfl, rfl, rfl, rfl, rfl, rfl⟩,
    rfl, rfl, rfl, rfl, rfl, fun row hrow => ?row, fun d rest hd => ?draw, fun hd a => ?free, rfl⟩
  case row =>
    rw [← levelRow_of_getElem? hrow]
    exact ⟨rfl, rfl, rfl, rfl⟩
  case draw =>
    exact ⟨congrArg List.tail hd, fun a => ⟨(read_drawn_of_draws hd _ a).1, (read_drawn_of_draws hd _ a).2⟩⟩
  case free => exact ⟨(read_drawn_of_no_draws hd _ a).1, (read_drawn_of_no_draws hd _ a).2⟩

/-- Settles O26: `resetOp` clears the session and writes neither the window nor the prev table. -/
theorem resetStepKeepsConfigurationAndWindow : Obligations.ResetStepKeepsConfigurationAndWindow := fun s hb hp =>
  ⟨resetOp s, engineStep_resetOp hb hp, sessionCleared_resetOp s, ⟨rfl, rfl, rfl, rfl, rfl, rfl, rfl, rfl, rfl⟩,
    rfl, rfl, fun _ => rfl, fun _ => rfl⟩

/-- Settles O27: `endOp` clears the session, then returns the configuration and the match lengths to their reset values. -/
theorem endStepClosesTheSession : Obligations.EndStepClosesTheSession := fun s hb hp =>
  ⟨endOp s, engineStep_endOp hb hp, ⟨rfl, rfl, rfl, rfl, rfl, rfl, rfl, rfl, rfl⟩, rfl, rfl, rfl, rfl, rfl, rfl, rfl,
    rfl, rfl, rfl, (by decide : configWord SessionConfig.zero = 0), (by decide : param0Word SessionConfig.zero = 0),
    (by decide : param1Word SessionConfig.zero = 0)⟩

/-! ## DICT_POP -/

/-- R128: the last byte to pop. -/
theorem sub_one_eq_zero_iff (n : BitVec 16) : n - 1 = 0#16 ↔ n.toNat = 1 := by
  bv_omega

theorem pushDict_eq (limit : Nat) (buf : List Byte) (b : Byte) :
    pushDict limit buf b = if (buf ++ [b]).length ≤ limit then buf ++ [b] else (buf ++ [b]).tail := by
  simp only [pushDict, ← Nat.not_le, ite_not]

theorem dictPop_cons {s : State} {b : Byte} {rest : List Byte} (h : s.inFifo = b :: rest) : dictPop s =
    { s with
      inFifo := rest
      phase := if s.cmd.dictLeft.toNat = 1 then .dictCommit else .dictPop
      cmd := { s.cmd with
        dictLeft := s.cmd.dictLeft - 1
        dictBuf := if (s.cmd.dictBuf ++ [b]).length ≤ maxDist s.cfg then s.cmd.dictBuf ++ [b]
          else (s.cmd.dictBuf ++ [b]).tail } } := by
  simp only [dictPop, h, dropInput, List.tail_cons, pushDict_eq, sub_one_eq_zero_iff]

/-- Settles O28: an empty FIFO does not enable the step, and a pop only shortens the FIFO of what R54 reads. -/
theorem dictPopMovesOneByte : Obligations.DictPopMovesOneByte := fun s hb hp hinv => by
  constructor
  · intro hempty
    have he : ¬enabled s = true := by simp [enabled_iff, hp, hempty]
    rw [engineStep, if_neg he]
  · intro b rest hin
    refine (engineStep_of_silent (t := dictPop s) (by simp [enabled_iff, hb, hp, hin]) (by rw [attempt, hp]) ?_).trans
      (dictPop_cons hin)
    obtain ⟨htok, hlen⟩ := fifosFit_eq_true.1 hinv.2
    rw [dictPop_cons hin]
    refine hinv.congr id rfl rfl rfl (fifosFit_eq_true.2 ⟨htok, ?_⟩)
    rw [hin, List.length_cons] at hlen
    exact Nat.le_of_succ_le hlen

/-! ## DICT_COMMIT -/

theorem engineStep_dictCommit {s : State} (hb : s.busy = true) (hp : s.phase = .dictCommit)
    (h : SpecInvariants (dictCommit s)) : engineStep s = dictCommit s :=
  engineStep_of_silent (by simp [enabled_iff, hb, hp]) (by rw [attempt, hp]) h

/-- R127: a dictionary too short for a hash is not loaded. -/
theorem dictCommit_short {s : State} (h : s.cmd.dictTotal.toNat < 3) :
    dictCommit s = { s with dictLoaded := true, busy := false, phase := .idle, done := true } := by
  rw [dictCommit, if_neg (Nat.not_le_of_lt h)]
  rfl

/-- R129: the insertions write the chains only. -/
theorem insertRange_frame (p n : Nat) (s : State) :
    insertRange p n s = { s with head := (insertRange p n s).head, prev := (insertRange p n s).prev } := by
  induction n generalizing p s with
  | zero => rfl
  | succ n ih => exact (ih (p + 1) (insertString p s)).trans rfl

/-- R129: the dictionary in the window, before its positions are inserted. -/
def placeDict (s : State) : State :=
  { s with
    dictLoaded := true
    window := Memory.writeList s.window 0 s.cmd.dictBuf
    regs := { s.regs with strstart := BitVec.ofNat 17 s.cmd.dictBuf.length }
    history := s.cmd.dictBuf.length }

theorem dictCommit_long {s : State} (h : 3 ≤ s.cmd.dictTotal.toNat) :
    dictCommit s = complete (insertRange 0 (s.cmd.dictBuf.length - 2) (placeDict s)) := by
  rw [dictCommit, if_pos h]
  rfl

theorem dictCommit_long_frame {s : State} (h : 3 ≤ s.cmd.dictTotal.toNat) :
    ∃ heads links, dictCommit s = { complete (placeDict s) with head := heads, prev := links } := by
  rw [dictCommit_long h, insertRange_frame]
  exact ⟨_, _, rfl⟩

section LongDictionary

variable {s : State} (htotal : 3 ≤ s.cmd.dictTotal.toNat) (hm : MemoriesWf s) (hlen : 3 ≤ s.cmd.dictBuf.length)
  (hmax : s.cmd.dictBuf.length ≤ maxDist s.cfg) (hhead : ∀ h, Memory.read s.head h = 0)
include htotal hm hmax

/-- R129: positions 0 to L-3 are inserted. -/
theorem inserted_dictCommit : Inserted s (dictCommit s) 0 (s.cmd.dictBuf.length - 2) := by
  obtain ⟨window, head, prev⟩ := hm
  have hwin := windowSize_le s.cfg
  have hfit : s.cmd.dictBuf.length ≤ windowSize s.cfg - 262 := hmax
  have fits : 0 + (s.cmd.dictBuf.length - 2) ≤ 0 + windowSize s.cfg := by omega
  have ins := inserted_insertRange (s := s) (t := placeDict s) _ 0 (inserted_none 0 rfl rfl)
    ⟨Memory.wf_writeList _ 0 window, head, prev⟩ (Nat.le_refl 0) fits (by omega)
  rw [Nat.zero_add] at ins
  rw [dictCommit_long htotal]
  exact ins.congr rfl rfl rfl rfl

include hlen hhead

/-- R129: a head is `NIL` or one of the inserted positions. -/
theorem read_head_dictCommit (h : Nat) : (Memory.read (dictCommit s).head h).toNat + 3 ≤ s.cmd.dictBuf.length := by
  have ins := inserted_dictCommit htotal hm hmax
  by_cases hit : ∃ p, p < s.cmd.dictBuf.length - 2 ∧ hashAt (dictCommit s).window p = h
  · obtain ⟨p, hp, rfl⟩ := hit
    obtain ⟨-, hlt, -⟩ := ins.headLast p (Nat.zero_le p) hp
    omega
  · rw [ins.headOther h fun p _ hp e => hit ⟨p, hp, e⟩, hhead]
    exact hlen

/-- R54 holds after a dictionary is loaded into a new session. -/
theorem specInvariants_dictCommit (hinv : SpecInvariants s) (hs : s.session = .ready)
    (hlook : s.regs.lookahead.toNat = 0) (hheld : s.regs.matchAvailable = false) : SpecInvariants (dictCommit s) := by
  have heads := read_head_dictCommit htotal hm hlen hmax hhead
  have hwf : Memory.wf (dictCommit s).head = true := (memoriesWf_dictCommit hm).2.1
  obtain ⟨-, -, -, lengths⟩ := hinv.1 (by simp [hs])
  have hwin := windowSize_le s.cfg
  have hfit : s.cmd.dictBuf.length ≤ windowSize s.cfg - 262 := hmax
  have hstart : (BitVec.ofNat 17 s.cmd.dictBuf.length).toNat = s.cmd.dictBuf.length := Nat.mod_eq_of_lt (by omega)
  obtain ⟨entries, links, frame⟩ := dictCommit_long_frame htotal
  rw [frame] at heads hwf ⊢
  refine ⟨fun _ => ⟨decide_eq_true ?window, List.all_eq_true.2 fun e he => decide_eq_true ?heads, ?held, lengths⟩,
    hinv.2⟩
  case window =>
    change (BitVec.ofNat 17 s.cmd.dictBuf.length).toNat + s.regs.lookahead.toNat ≤ 2 * windowSize s.cfg
    omega
  case heads =>
    have hread := heads e.1
    rw [Memory.read_eq_of_mem hwf he] at hread
    change e.2.toNat < (BitVec.ofNat 17 s.cmd.dictBuf.length).toNat
    omega
  case held => simp [heldByteOk, placeDict, complete, hheld]

end LongDictionary

/-- Settles O29: a short dictionary writes nothing R54 reads; after a long one the heads are inserted positions, below the new
`strstart`. -/
theorem dictCommitLoadsTheWindow : Obligations.DictCommitLoadsTheWindow := fun s hb hp hinv => by
  constructor
  · intro hshort
    have e := dictCommit_short hshort
    exact (engineStep_dictCommit hb hp (by rw [e]; exact hinv.congr id rfl rfl rfl hinv.2)).trans e
  · intro hm hs _ hhead hlook hheld htotal hlen hmax
    have eng := engineStep_dictCommit hb hp (specInvariants_dictCommit htotal hm hlen hmax hhead hinv hs hlook hheld)
    have ins := inserted_dictCommit htotal hm hmax
    have heads := read_head_dictCommit htotal hm hlen hmax hhead
    obtain ⟨entries, links, frame⟩ := dictCommit_long_frame htotal
    rw [frame] at eng ins heads
    refine ⟨_, eng, rfl, rfl, rfl, rfl, hs, rfl, rfl, rfl, rfl, rfl, rfl, rfl, rfl, fun a => ?_, ins, heads⟩
    have copied := Memory.read_writeList s.cmd.dictBuf 0 a hm.1
    simp only [Nat.zero_le, true_and, Nat.zero_add, Nat.sub_zero] at copied
    exact copied

end Sys2Proof.Machine

namespace Sys2Proof.Machine

open Sys2Proof.Config

/-! ## The rolling hash -/

/-- R161: zlib's rolling update `((x << 5) ^ b) & 0x7FFF`. -/
def rollHash (x : Nat) (b : Byte) : Nat := ((x <<< 5) ^^^ b.toNat) &&& 0x7FFF

/-- R160, R161: the low 15 bits are what the mask of both hashes keeps. -/
theorem and_mask_eq_mod (n : Nat) : n &&& 0x7FFF = n % 2 ^ 15 := Nat.and_two_pow_sub_one_eq_mod n 15

/-- R160: bit `i` of the hash is that of the three bytes at their shifts. -/
theorem testBit_hash3 (b0 b1 b2 : Byte) (i : Nat) : (hash3 b0 b1 b2).testBit i =
    (decide (i < 15) && (((decide (10 ≤ i) && b0.toNat.testBit (i - 10)) ^^ (decide (5 ≤ i) && b1.toNat.testBit (i - 5)))
      ^^ b2.toNat.testBit i)) := by
  rw [hash3, show hashSize = 2 ^ 15 from rfl, Nat.testBit_mod_two_pow]
  simp only [Nat.testBit_xor, Nat.testBit_shiftLeft, ge_iff_le]

/-- R161: an update moves the bits up by 5 and drops those past bit 14. -/
theorem testBit_rollHash (x : Nat) (b : Byte) (i : Nat) : (rollHash x b).testBit i =
    (decide (i < 15) && ((decide (5 ≤ i) && x.testBit (i - 5)) ^^ b.toNat.testBit i)) := by
  rw [rollHash, and_mask_eq_mod, Nat.testBit_mod_two_pow]
  simp only [Nat.testBit_xor, Nat.testBit_shiftLeft, ge_iff_le]

/-- R161: three updates push every bit of the earlier value past bit 14. -/
theorem rollHash_three (x : Nat) (b0 b1 b2 : Byte) : rollHash (rollHash (rollHash x b0) b1) b2 = hash3 b0 b1 b2 := by
  refine Nat.eq_of_testBit_eq fun i => ?_
  simp only [testBit_rollHash, testBit_hash3, Nat.sub_sub, Nat.reduceAdd]
  by_cases h15 : i < 15
  · have h5 : i - 5 < 15 := by omega
    have h10 : i - 10 < 15 := by omega
    have gone : ¬5 ≤ i - 10 := by omega
    rcases Nat.lt_or_ge i 10 with hlt | hge
    · have once : ¬5 ≤ i - 5 := by omega
      have last : ¬10 ≤ i := by omega
      simp [h15, h5, once, last]
    · have first : 5 ≤ i := by omega
      have second : 5 ≤ i - 5 := by omega
      simp [h15, h5, h10, gone, first, second, hge]
  · simp [h15]

/-- Settles O30: the mask is a remainder, so the bound is the table's size, and the rolling form is `rollHash_three`. -/
theorem hashIsTheRollingHash : Obligations.HashIsTheRollingHash := by
  refine ⟨by decide, by decide, fun _ _ => rfl, fun x b0 b1 b2 => ⟨?bound, ?formula, rollHash_three x b0 b1 b2⟩⟩
  case bound => exact Nat.mod_lt _ (by decide)
  case formula => exact (and_mask_eq_mod _).symm

/-! ## InsertString -/

theorem read_insertString_head (p : Nat) {s : State} (hm : MemoriesWf s) (h : Nat) :
    Memory.read (insertString p s).head h
      = if h = hashAt s.window p then BitVec.ofNat 16 p else Memory.read s.head h := by
  obtain ⟨-, head, -⟩ := hm
  exact Memory.read_write _ _ _ head

theorem read_insertString_prev (p : Nat) {s : State} (hm : MemoriesWf s) (i : Nat) :
    Memory.read (insertString p s).prev i
      = if i = prevIndex s.cfg p then chainHead p s else Memory.read s.prev i := by
  obtain ⟨-, -, prev⟩ := hm
  exact Memory.read_write _ _ _ prev

/-- Settles O31: each table is written at one index, and a position fits an entry. -/
theorem insertStringWritesTwoEntries : Obligations.InsertStringWritesTwoEntries := by
  intro p s hm hp
  refine ⟨fun h => ?_, read_insertString_prev p hm, fun _ => rfl, rfl, rfl⟩
  rw [read_insertString_head p hm, apply_ite BitVec.toNat, BitVec.toNat_ofNat, Nat.mod_eq_of_lt hp]

/-! ## SLIDE -/

/-- R167: the subtraction stops at `NIL`, also for the entry `W`. -/
theorem Memory.toNat_rebasePos (n : Nat) (p : Half) : (Memory.rebasePos n p).toNat = p.toNat - n := by
  have hp := p.isLt
  unfold Memory.rebasePos
  split
  · exact Nat.mod_eq_of_lt (by omega)
  · exact (Nat.sub_eq_zero_of_le (by omega)).symm

theorem toNat_sub16_ofNat (a : Half) (n : Nat) : (a - BitVec.ofNat 16 n).toNat = sub16 a.toNat n := by
  rw [sub16, BitVec.ofNat_toNat, BitVec.setWidth_eq]

theorem slide_strstart {s : State} (h : windowSize s.cfg ≤ s.regs.strstart.toNat) :
    (slide s).regs.strstart.toNat = s.regs.strstart.toNat - windowSize s.cfg := by
  have hwin := windowSize_le s.cfg
  have hW : (BitVec.ofNat 17 (windowSize s.cfg)).toNat = windowSize s.cfg := Nat.mod_eq_of_lt (by omega)
  rw [slide_regs, BitVec.toNat_sub_of_le (by rwa [BitVec.le_def, hW]), hW]

/-- Settles O32, table by table. -/
theorem slideRebasesEverything : Obligations.SlideRebasesEverything := by
  intro s hm _ hstart
  obtain ⟨-, head, prev⟩ := hm
  refine ⟨fun a ha => ?lower, fun a ha => ?upper, fun h => ?heads, fun i => ?links, slide_strstart hstart,
    toNat_sub16_ofNat _ _, rfl⟩
  case lower => exact (Memory.read_copyDown _ _ _).trans (if_pos ha)
  case upper => exact (Memory.read_copyDown _ _ _).trans (if_neg (Nat.not_lt_of_le ha))
  case heads =>
    rw [slide_head, Memory.read_rebase _ _ head]
    exact Memory.toNat_rebasePos _ _
  case links =>
    rw [slide_prev, Memory.read_rebase _ _ prev]
    exact Memory.toNat_rebasePos _ _

/-! ## FILL -/

/-! The slide of a pass writes the window, the chains, `strstart` and `match_start` only. -/

@[simp] theorem slideIfDue_cfg (s : State) : (slideIfDue s).cfg = s.cfg := (keepsControl_slideIfDue s).cfg
@[simp] theorem slideIfDue_inFifo (s : State) : (slideIfDue s).inFifo = s.inFifo := by
  rw [slideIfDue]; split <;> rfl
@[simp] theorem slideIfDue_tokFifo (s : State) : (slideIfDue s).tokFifo = s.tokFifo := (keepsControl_slideIfDue s).tokFifo
@[simp] theorem slideIfDue_totalIn (s : State) : (slideIfDue s).totalIn = s.totalIn := by
  rw [slideIfDue]; split <;> rfl
@[simp] theorem slideIfDue_history (s : State) : (slideIfDue s).history = s.history := by
  rw [slideIfDue]; split <;> rfl
@[simp] theorem slideIfDue_lookahead (s : State) : (slideIfDue s).regs.lookahead = s.regs.lookahead := by
  rw [slideIfDue]; split <;> rfl

theorem takeInput_strstart (n : Nat) (t : State) : (takeInput n t).regs.strstart = t.regs.strstart := rfl

/-- R166: the room after the slide of a pass. -/
theorem refillRoom_slideIfDue (s : State) : refillRoom (slideIfDue s)
    = 2 * windowSize s.cfg - s.regs.lookahead.toNat - (slideIfDue s).regs.strstart.toNat := by
  rw [refillRoom, slideIfDue_cfg, slideIfDue_lookahead]
  rfl

/-- Reading no byte changes nothing. -/
theorem takeInput_zero (s : State) : takeInput 0 s = s := by
  simp [takeInput, Memory.writeList]

section Fill

variable {s : State} (hw : 9 ≤ s.cfg.wbits.toNat)
include hw

theorem le_windowSize : 512 ≤ windowSize s.cfg := Nat.pow_le_pow_right (show 0 < 2 by decide) hw

/-- R166, for a window larger than `MIN_LOOKAHEAD`. -/
theorem slideDue_eq_true : slideDue s = true ↔ 2 * windowSize s.cfg ≤ s.regs.strstart.toNat + 262 := by
  have hmin := le_windowSize hw
  have hdist : maxDist s.cfg = windowSize s.cfg - 262 := rfl
  rw [slideDue, decide_eq_true_eq]
  omega

theorem slideIfDue_eq :
    slideIfDue s = if 2 * windowSize s.cfg ≤ s.regs.strstart.toNat + 262 then slide s else s := by
  simp only [slideIfDue, slideDue_eq_true hw]

/-- R166: the position a pass fills at. -/
theorem slideIfDue_strstart : (slideIfDue s).regs.strstart.toNat
    = s.regs.strstart.toNat - (if slideDue s then windowSize s.cfg else 0) := by
  have hmin := le_windowSize hw
  by_cases hd : slideDue s = true
  · have hstart := (slideDue_eq_true hw).1 hd
    rw [slideIfDue, if_pos hd, if_pos hd, slide_strstart (by omega)]
  · rw [slideIfDue, if_neg hd, if_neg hd, Nat.sub_zero]

variable (hfit : windowFits s = true)
include hfit

/-- R54 item 1 after the slide of a pass: the lookahead and the room after it fill the window, with more than
`MIN_LOOKAHEAD` bytes. -/
theorem strstart_add_room :
    (slideIfDue s).regs.strstart.toNat + s.regs.lookahead.toNat + refillRoom (slideIfDue s) = 2 * windowSize s.cfg
      ∧ 262 < s.regs.lookahead.toNat + refillRoom (slideIfDue s) := by
  have fits : s.regs.strstart.toNat + s.regs.lookahead.toNat ≤ 2 * windowSize s.cfg := of_decide_eq_true hfit
  have hmin := le_windowSize hw
  rw [refillRoom_slideIfDue, slideIfDue_strstart hw]
  by_cases hd : slideDue s = true
  · have hstart := (slideDue_eq_true hw).1 hd
    rw [if_pos hd]
    omega
  · have hstart := mt (slideDue_eq_true hw).2 hd
    rw [if_neg hd, Nat.sub_zero]
    omega

/-- R166 `more`: what the loop computes from the registers before the slide is the room after it. -/
theorem roomAfterSlide_eq : roomAfterSlide s = refillRoom (slideIfDue s) := by
  have fits : s.regs.strstart.toNat + s.regs.lookahead.toNat ≤ 2 * windowSize s.cfg := of_decide_eq_true hfit
  have hmin := le_windowSize hw
  rw [refillRoom_slideIfDue, slideIfDue_strstart hw, roomAfterSlide]
  by_cases hd : slideDue s = true
  · have hstart := (slideDue_eq_true hw).1 hd
    simp only [if_pos hd]
    omega
  · simp only [if_neg hd]
    omega

/-- R166: the bytes read fit the lookahead register. -/
theorem toNat_lookahead_add {n : Nat} (hn : n ≤ refillRoom (slideIfDue s)) :
    (s.regs.lookahead + BitVec.ofNat 17 n).toNat = s.regs.lookahead.toNat + n := by
  obtain ⟨full, -⟩ := strstart_add_room hw hfit
  have hwin := windowSize_le s.cfg
  rw [BitVec.toNat_add, BitVec.toNat_ofNat]
  omega

/-- R166: FILL reads once, because a read that leaves input has filled the window. -/
theorem fill_eq : fill s = takeInput (min (refillRoom (slideIfDue s)) s.inFifo.length) (slideIfDue s) := by
  rw [fill, fillLoop, slideIfDue_inFifo, roomAfterSlide_eq hw hfit]
  split
  · rename_i hempty
    rw [hempty, Nat.min_zero, takeInput_zero]
  · refine if_neg fun again => ?_
    obtain ⟨short, left⟩ := again
    obtain ⟨-, room⟩ := strstart_add_room hw hfit
    rw [takeInput_regs, slideIfDue_lookahead, toNat_lookahead_add hw hfit (Nat.min_le_left _ _), minLookahead] at short
    rw [takeInput_inFifo, slideIfDue_inFifo, List.length_drop] at left
    omega

end Fill

/-- R166: a byte taken stands at its place after the lookahead, and no other byte of the window changes. -/
theorem read_takeInput_window {t : State} {n : Nat} (hm : MemoriesWf t) (hn : n ≤ t.inFifo.length) (a : Nat) :
    Memory.read (takeInput n t).window a
      = if t.regs.strstart.toNat + t.regs.lookahead.toNat ≤ a ∧ a < t.regs.strstart.toNat + t.regs.lookahead.toNat + n then
          t.inFifo.getD (a - (t.regs.strstart.toNat + t.regs.lookahead.toNat)) 0
        else Memory.read t.window a := by
  obtain ⟨window, -, -⟩ := hm
  rw [takeInput_window, Memory.read_writeList _ _ _ window, List.length_take_of_le hn]
  split
  · rename_i hin
    rw [List.getD_eq_getElem?_getD, List.getElem?_take_of_lt (by omega), ← List.getD_eq_getElem?_getD]
    rfl
  · rfl

/-- Settles O33: FILL is one slide if due and one read, `fill_eq`. -/
theorem fillPlacesTheInputInOrder : Obligations.FillPlacesTheInputInOrder := by
  intro s hm hw hfit _
  obtain ⟨n, hn⟩ : ∃ n, n = min (refillRoom (slideIfDue s)) s.inFifo.length := ⟨_, rfl⟩
  have hroom : n ≤ refillRoom (slideIfDue s) := hn ▸ Nat.min_le_left _ _
  have hbytes : n ≤ s.inFifo.length := hn ▸ Nat.min_le_right _ _
  have hlook := toNat_lookahead_add hw hfit hroom
  have window := read_takeInput_window (memoriesWf_slideIfDue hm) ((slideIfDue_inFifo s).symm ▸ hbytes)
  simp only [slideIfDue_lookahead, slideIfDue_inFifo] at window
  refine ⟨slideIfDue s, n, slideIfDue_eq hw, hn, ?_⟩
  rw [fill_eq hw hfit, ← hn]
  refine ⟨by simp, by simpa using hlook, by simp, by simp, fun k hk => ?placed, fun a ha => ?other, takeInput_head _ _,
    takeInput_prev _ _, by simp, by simp, ?fits⟩
  case placed => rw [window, if_pos (by omega), Nat.add_sub_cancel_left]
  case other => rw [window, if_neg (by omega)]
  case fits =>
    obtain ⟨full, -⟩ := strstart_add_room hw hfit
    have hlook' : (takeInput n (slideIfDue s)).regs.lookahead.toNat = s.regs.lookahead.toNat + n := by simpa using hlook
    rw [hlook', takeInput_strstart, ← windowSize]
    omega

/-! ## Span insertions -/

theorem advance_lookahead (n : Nat) {k : Nat} {s : State} (h : k ≤ s.regs.lookahead.toNat) :
    (advance n k s).regs.lookahead.toNat = s.regs.lookahead.toNat - k := by
  have hlt := s.regs.lookahead.isLt
  have hk : (BitVec.ofNat 17 k).toNat = k := Nat.mod_eq_of_lt (by omega)
  rw [advance_regs, BitVec.toNat_sub_of_le (by rwa [BitVec.le_def, hk]), hk]

theorem advance_zero_strstart (k : Nat) (s : State) : (advance 0 k s).regs.strstart = s.regs.strstart := by
  rw [advance_regs]
  exact BitVec.add_zero _

/-- R162: a head is what it was or names a position that was inserted. -/
theorem Inserted.head_eq_or {s t : State} {lo hi : Nat} (i : Inserted s t lo hi) (h : Nat) :
    Memory.read t.head h = Memory.read s.head h
      ∨ (lo ≤ (Memory.read t.head h).toNat ∧ (Memory.read t.head h).toNat < hi) := by
  by_cases hit : ∃ p, lo ≤ p ∧ p < hi ∧ hashAt t.window p = h
  · obtain ⟨p, hlo, hhi, rfl⟩ := hit
    obtain ⟨hle, hlt, -⟩ := i.headLast p hlo hhi
    exact .inr ⟨hlo.trans hle, hlt⟩
  · exact .inl (i.headOther h fun p hlo hhi e => hit ⟨p, hlo, hhi, e⟩)

/-- No position inserted, for bounds that leave none. -/
theorem inserted_of_le {s t : State} {lo hi : Nat} (hle : hi ≤ lo) (hh : t.head = s.head) (hp : t.prev = s.prev) :
    Inserted s t lo hi := by
  obtain ⟨headOther, -, -, -, prevOther⟩ := inserted_none (s := s) (t := t) hi hh hp
  exact ⟨fun h _ => headOther h (by omega), by omega, by omega, by omega, fun i _ => prevOther i (by omega)⟩

/-- R213: the Fast flavour inserts the span of a short match that leaves 3 bytes or more. -/
theorem inserted_fastAfterMatch {s : State} (hm : MemoriesWf s) (hw : 9 ≤ s.cfg.wbits.toNat)
    (hfit : s.regs.strstart.toNat + s.regs.lookahead.toNat ≤ 65536) (hlen : 3 ≤ s.regs.matchLength.toNat)
    (hlazy : s.regs.matchLength.toNat ≤ s.cfg.maxLazy.toNat)
    (hleft : s.regs.matchLength.toNat + 3 ≤ s.regs.lookahead.toNat) :
    Inserted s (fastAfterMatch s) (s.regs.strstart.toNat + 1) (s.regs.strstart.toNat + s.regs.matchLength.toNat) := by
  have hwin := le_windowSize hw
  have hsmall := s.regs.matchLength.isLt
  have hstart := advance_zero_strstart s.regs.matchLength.toNat s
  have short : s.regs.matchLength.toNat ≤ s.cfg.maxLazy.toNat
      ∧ minMatch ≤ (advance 0 s.regs.matchLength.toNat s).regs.lookahead.toNat := by
    rw [advance_lookahead 0 (by omega), minMatch]
    omega
  obtain ⟨span, -, -⟩ := inserted_insertSpan (s.regs.matchLength.toNat - 1) (s := s)
    (t := advance 0 s.regs.matchLength.toNat s) (inserted_none _ rfl rfl) hm (Nat.le_refl _)
    (Nat.add_le_add_left (by rw [advance_cfg, ← windowSize]; omega) _) (by rw [hstart]; omega)
  rw [hstart, show s.regs.strstart.toNat + 1 + (s.regs.matchLength.toNat - 1)
    = s.regs.strstart.toNat + s.regs.matchLength.toNat by omega] at span
  rw [fastAfterMatch, if_pos short]
  exact span.congr rfl rfl rfl rfl

/-- R213: it inserts nothing after a match that is long or leaves fewer than 3 bytes. -/
theorem fastAfterMatch_skipped {s : State} (hle : s.regs.matchLength.toNat ≤ s.regs.lookahead.toNat)
    (h : s.cfg.maxLazy.toNat < s.regs.matchLength.toNat ∨ s.regs.lookahead.toNat < s.regs.matchLength.toNat + 3) :
    fastAfterMatch s = setMatchLength 0 (advance s.regs.matchLength.toNat 0 (advance 0 s.regs.matchLength.toNat s)) := by
  rw [fastAfterMatch]
  refine if_neg fun short => ?_
  obtain ⟨hlazy, hleft⟩ := short
  rw [advance_lookahead 0 hle, minMatch] at hleft
  omega

/-- R219: the Slow flavour inserts the span after `strstart`, up to `max_insert`. -/
theorem inserted_slowAfterMatch {s : State} (hm : MemoriesWf s) (hw : 9 ≤ s.cfg.wbits.toNat)
    (hfit : s.regs.strstart.toNat + s.regs.lookahead.toNat ≤ 65536) (hlen : 3 ≤ s.regs.prevLength.toNat) :
    Inserted s (slowAfterMatch s) (s.regs.strstart.toNat + 1)
      (min (s.regs.strstart.toNat + s.regs.prevLength.toNat - 1) (s.regs.strstart.toNat + s.regs.lookahead.toNat - 2)) := by
  have hwin := le_windowSize hw
  have hsmall := s.regs.prevLength.isLt
  have hstart := advance_zero_strstart (s.regs.prevLength.toNat - 1) s
  rcases Nat.lt_or_ge s.regs.lookahead.toNat 3 with hshort | hlong
  · have nothing := insertSpanUpTo_none (s.regs.strstart.toNat + s.regs.lookahead.toNat) (s.regs.prevLength.toNat - 2)
      (t := advance 0 (s.regs.prevLength.toNat - 1) s) (by rw [hstart]; omega) (by rw [hstart]; omega)
    obtain ⟨head, prev, -⟩ := nothing
    exact inserted_of_le (by omega) head prev
  · obtain ⟨span, -, -⟩ := inserted_insertSpanUpTo (s.regs.strstart.toNat + s.regs.lookahead.toNat)
      (s.regs.prevLength.toNat - 2) (s := s) (t := advance 0 (s.regs.prevLength.toNat - 1) s)
      (lo := s.regs.strstart.toNat + 1) (inserted_of_le (by rw [hstart]; omega) rfl rfl) hm (by rw [hstart]; omega)
      (by rw [hstart]; exact Nat.add_le_add_left (by rw [advance_cfg, ← windowSize]; omega) _) hfit (by rw [hstart]; omega)
    rw [hstart, show s.regs.strstart.toNat + 1 + (s.regs.prevLength.toNat - 2)
      = s.regs.strstart.toNat + s.regs.prevLength.toNat - 1 by omega] at span
    exact span.congr rfl rfl rfl rfl

/-- Settles O43: a changed head names an inserted position (`Inserted.head_eq_or`), and the span's bounds keep its three bytes in the
lookahead. -/
theorem spanInsertionsStayInsideTheInput : Obligations.SpanInsertionsStayInsideTheInput := by
  intro s hm hw hfit
  refine ⟨fun hlen _ => ?slow, fun hlen hle h => ?fast⟩
  case slow =>
    have span := inserted_slowAfterMatch hm hw hfit hlen
    refine ⟨span, fun h => (span.head_eq_or h).imp_right fun ⟨hlo, hhi⟩ => ?_⟩
    omega
  case fast =>
    by_cases short : s.regs.matchLength.toNat ≤ s.cfg.maxLazy.toNat
      ∧ s.regs.matchLength.toNat + 3 ≤ s.regs.lookahead.toNat
    · obtain ⟨hlazy, hleft⟩ := short
      have span := inserted_fastAfterMatch hm hw hfit hlen hlazy hleft
      refine (span.head_eq_or h).imp_right fun ⟨hlo, hhi⟩ => ?_
      omega
    · rw [fastAfterMatch_skipped hle (by omega)]
      exact .inl rfl

end Sys2Proof.Machine

namespace Sys2Proof.Machine

open Sys2Proof.Config

/-! ## MatchLen -/

theorem matchLenUpTo_le (m : List Host.Cell) (k a b : Nat) : matchLenUpTo m k a b ≤ k := by
  induction k generalizing a b with
  | zero => exact Nat.le_refl 0
  | succ k ih =>
    rw [matchLenUpTo]
    split
    · exact Nat.succ_le_succ (ih _ _)
    · exact Nat.zero_le _

theorem read_eq_of_lt_matchLenUpTo {m : List Host.Cell} {k a b i : Nat} (h : i < matchLenUpTo m k a b) :
    Memory.read m (a + i) = Memory.read m (b + i) := by
  induction k generalizing a b i with
  | zero => exact absurd h (Nat.not_lt_zero i)
  | succ k ih =>
    rw [matchLenUpTo] at h
    split at h
    next hab =>
      cases i with
      | zero => exact hab
      | succ i =>
        have tail := ih (Nat.lt_of_succ_lt_succ h)
        rwa [Nat.add_right_comm, Nat.add_right_comm b] at tail
    next => exact absurd h (Nat.not_lt_zero i)

theorem read_ne_at_matchLenUpTo {m : List Host.Cell} {k a b : Nat} (h : matchLenUpTo m k a b < k) :
    Memory.read m (a + matchLenUpTo m k a b) ≠ Memory.read m (b + matchLenUpTo m k a b) := by
  induction k generalizing a b with
  | zero => exact absurd h (Nat.not_lt_zero _)
  | succ k ih =>
    rw [matchLenUpTo] at h ⊢
    split at h
    next hab =>
      have tail := ih (Nat.lt_of_succ_lt_succ h)
      rwa [if_pos hab, ← Nat.add_assoc, ← Nat.add_assoc, Nat.add_right_comm, Nat.add_right_comm b]
    next hab => rwa [if_neg hab]

/-- Settles O34, by the three facts about `matchLenUpTo` at 258 bytes. -/
theorem matchLenIsTheCommonPrefix : Obligations.MatchLenIsTheCommonPrefix := fun m a b =>
  ⟨matchLenUpTo_le m maxMatch a b, fun _ => read_eq_of_lt_matchLenUpTo, read_ne_at_matchLenUpTo⟩

/-! ## The best of the first candidates -/

/-- R180, R187: the best match after the first `n` candidates of the chain. -/
def bestOfFirst (cur : Half) (s : State) : Nat → Best
  | 0 => ⟨s.regs.prevLength.toNat, s.regs.matchStart⟩
  | n + 1 => better (candidateLen cur s n) (candidate cur s n) (bestOfFirst cur s n)

theorem better_len_lt_iff {l len : Nat} {c : Half} {b : Best} : (better len c b).len < l ↔ b.len < l ∧ len < l := by
  rw [better]
  split
  next hlt => exact ⟨fun h => ⟨hlt.trans h, h⟩, And.right⟩
  next hle => exact ⟨fun h => ⟨h, (Nat.not_lt.1 hle).trans_lt h⟩, And.left⟩

theorem bestOfFirst_len_lt_iff {cur : Half} {s : State} {l : Nat} (n : Nat) :
    (bestOfFirst cur s n).len < l ↔ s.regs.prevLength.toNat < l ∧ ∀ i, i < n → candidateLen cur s i < l := by
  induction n with
  | zero => simp [bestOfFirst]
  | succ n ih => rw [bestOfFirst, better_len_lt_iff, ih, and_assoc, Nat.forall_lt_succ_right]

theorem beats_iff {cur : Half} {s : State} {n : Nat} :
    Beats cur s n ↔ (bestOfFirst cur s n).len < candidateLen cur s n :=
  (bestOfFirst_len_lt_iff n).symm

/-- R187: a candidate that beats all before it becomes the best; any other leaves the best as it is. -/
theorem bestOfFirst_succ_of_beats {cur : Half} {s : State} {n : Nat} (h : Beats cur s n) :
    bestOfFirst cur s (n + 1) = ⟨candidateLen cur s n, candidate cur s n⟩ :=
  if_pos (beats_iff.1 h)

theorem bestOfFirst_succ_of_not_beats {cur : Half} {s : State} {n : Nat} (h : ¬Beats cur s n) :
    bestOfFirst cur s (n + 1) = bestOfFirst cur s n :=
  if_neg fun hlt => h (beats_iff.2 hlt)

theorem candidateLen_le_bestOfFirst {cur : Half} {s : State} {i n : Nat} (h : i < n) :
    candidateLen cur s i ≤ (bestOfFirst cur s n).len :=
  Nat.le_of_lt_succ (((bestOfFirst_len_lt_iff n).1 (Nat.lt_succ_self _)).2 i h)

/-- R180, R187: the best of the first `n` candidates is the one that beats all before it and that none exceeds, or the
start of the search. -/
theorem bestOfFirst_cases (cur : Half) (s : State) (n : Nat) :
    (∃ j, j < n ∧ Beats cur s j ∧ bestOfFirst cur s n = ⟨candidateLen cur s j, candidate cur s j⟩)
      ∨ bestOfFirst cur s n = ⟨s.regs.prevLength.toNat, s.regs.matchStart⟩ := by
  induction n with
  | zero => exact .inr rfl
  | succ n ih =>
    by_cases h : Beats cur s n
    · exact .inl ⟨n, Nat.lt_succ_self n, h, bestOfFirst_succ_of_beats h⟩
    · rw [bestOfFirst_succ_of_not_beats h]
      exact ih.imp_left fun ⟨j, hj, found⟩ => ⟨j, Nat.lt_succ_of_lt hj, found⟩

/-! ## The chain walk -/

theorem distanceLimit_eq (s : State) : distanceLimit s = s.regs.strstart.toNat - maxDist s.cfg := by
  rw [distanceLimit]
  split <;> omega

theorem longestMatch_eq (cur : Half) (s : State) :
    longestMatch cur s = min (searchBest cur s).len s.regs.lookahead.toNat :=
  Nat.min_comm _ _

/-- R181, R185: the walk goes on after the `i`-th candidate, if the budget allows another. -/
def GoesOn (cur : Half) (s : State) (i : Nat) : Prop :=
  s.regs.strstart.toNat - maxDist s.cfg < (candidate cur s (i + 1)).toNat ∧ ¬NiceAt cur s i

/-- The walk from the `i`-th candidate, with the best of those before it and `more` candidates allowed after it. -/
def walkFrom (cur : Half) (s : State) (more i : Nat) : Best :=
  walk s.window s.prev s.cfg s.regs.strstart.toNat (distanceLimit s) (niceLimit s) more (candidate cur s i)
    (bestOfFirst cur s i)

theorem searchBest_eq_walkFrom (cur : Half) (s : State) : searchBest cur s = walkFrom cur s (chainBudget s - 1) 0 := rfl

theorem niceAt_iff {cur : Half} {s : State} {i : Nat} :
    NiceAt cur s i ↔ (bestOfFirst cur s i).len < candidateLen cur s i ∧ niceLimit s ≤ candidateLen cur s i :=
  and_congr_left' beats_iff

/-- R182: with the budget spent, the walk ends at this candidate. -/
theorem walkFrom_zero (cur : Half) (s : State) (i : Nat) : walkFrom cur s 0 i = bestOfFirst cur s (i + 1) := by
  rw [walkFrom, walk]
  split
  · rfl
  · exact ite_self _

theorem walkFrom_of_not_goesOn {cur : Half} {s : State} {i : Nat} (more : Nat) (h : ¬GoesOn cur s i) :
    walkFrom cur s more i = bestOfFirst cur s (i + 1) := by
  rw [walkFrom, walk]
  split
  next => rfl
  next hnice =>
    refine if_pos (Nat.not_lt.1 fun habove => h ⟨?_, mt niceAt_iff.1 hnice⟩)
    rwa [← distanceLimit_eq]

theorem walkFrom_succ_of_goesOn {cur : Half} {s : State} {i : Nat} (k : Nat) (h : GoesOn cur s i) :
    walkFrom cur s (k + 1) i = walkFrom cur s k (i + 1) := by
  obtain ⟨habove, hnice⟩ := h
  rw [← distanceLimit_eq] at habove
  rw [walkFrom, walk]
  exact (if_neg (mt niceAt_iff.2 hnice)).trans (if_neg (Nat.not_le.2 habove))

/-- R180, R182: the walk from the `i`-th candidate examines those up to some `n`, where the budget is spent or it does not go on. -/
theorem exists_walkFrom_eq (cur : Half) (s : State) (more i : Nat) :
    ∃ n, n ≤ i + more ∧ (∀ k, i ≤ k → k < n → GoesOn cur s k) ∧ (n = i + more ∨ ¬GoesOn cur s n)
      ∧ walkFrom cur s more i = bestOfFirst cur s (n + 1) := by
  induction more generalizing i with
  | zero => exact ⟨i, Nat.le_refl i, by omega, .inl rfl, walkFrom_zero cur s i⟩
  | succ more ih =>
    by_cases h : GoesOn cur s i
    · obtain ⟨n, hn, before, ends, best⟩ := ih (i + 1)
      rw [Nat.succ_add_eq_add_succ] at hn ends
      refine ⟨n, hn, fun k hik hk => ?_, ends, (walkFrom_succ_of_goesOn more h).trans best⟩
      obtain rfl | hlt := Nat.eq_or_lt_of_le hik
      · exact h
      · exact before k hlt hk
    · exact ⟨i, Nat.le_add_right i _, by omega, .inr h, walkFrom_of_not_goesOn _ h⟩

/-- R180, R182: the whole walk. -/
theorem exists_searchBest_eq (cur : Half) (s : State) :
    ∃ n, n ≤ chainBudget s - 1 ∧ (∀ i, i < n → GoesOn cur s i) ∧ (n = chainBudget s - 1 ∨ ¬GoesOn cur s n)
      ∧ searchBest cur s = bestOfFirst cur s (n + 1) := by
  obtain ⟨n, hn, before, ends, best⟩ := exists_walkFrom_eq cur s (chainBudget s - 1) 0
  rw [Nat.zero_add] at hn ends
  exact ⟨n, hn, fun i => before i (Nat.zero_le i), ends, (searchBest_eq_walkFrom cur s).trans best⟩

/-- R181: a candidate the walk reaches is the first one or above the distance limit. -/
theorem candidate_eq_or_above {cur : Half} {s : State} {n j : Nat} (before : ∀ i, i < n → GoesOn cur s i) (hj : j ≤ n) :
    candidate cur s j = cur ∨ s.regs.strstart.toNat - maxDist s.cfg < (candidate cur s j).toNat := by
  cases j with
  | zero => exact .inl rfl
  | succ i => exact .inr (before i (Nat.lt_of_succ_le hj)).1

/-! ## What a search leaves -/

/-- R180, R187: what the search leaves when its walk examines the candidates 0 to `n`. -/
theorem search_result {cur : Half} {s : State} {n : Nat} (best : searchBest cur s = bestOfFirst cur s (n + 1)) :
    (∃ j, j ≤ n ∧ Beats cur s j ∧ (∀ i, i ≤ n → candidateLen cur s i ≤ candidateLen cur s j)
        ∧ (searchFrom cur s).regs.matchStart = candidate cur s j
        ∧ longestMatch cur s = min (candidateLen cur s j) s.regs.lookahead.toNat)
      ∨ ((∀ i, i ≤ n → candidateLen cur s i ≤ s.regs.prevLength.toNat)
        ∧ (searchFrom cur s).regs.matchStart = s.regs.matchStart
        ∧ longestMatch cur s = min s.regs.prevLength.toNat s.regs.lookahead.toNat) := by
  have longest : ∀ i, i ≤ n → candidateLen cur s i ≤ (searchBest cur s).len := fun i hi =>
    best ▸ candidateLen_le_bestOfFirst (Nat.lt_succ_of_le hi)
  rw [longestMatch_eq, searchFrom_regs]
  obtain ⟨j, hj, beats, found⟩ | nothing := bestOfFirst_cases cur s (n + 1)
  · rw [best.trans found] at longest ⊢
    exact .inl ⟨j, Nat.le_of_lt_succ hj, beats, longest, rfl, rfl⟩
  · rw [best.trans nothing] at longest ⊢
    exact .inr ⟨longest, rfl, rfl⟩

theorem longestMatch_le_258_or (cur : Half) (s : State) :
    longestMatch cur s ≤ 258 ∨ longestMatch cur s ≤ s.regs.prevLength.toNat := by
  obtain ⟨n, -, -, -, best⟩ := exists_searchBest_eq cur s
  obtain ⟨j, -, -, -, -, hlen⟩ | ⟨-, -, hlen⟩ := search_result best <;> rw [hlen]
  · exact .inl ((Nat.min_le_left _ _).trans (matchLenUpTo_le _ maxMatch _ _))
  · exact .inr (Nat.min_le_left _ _)

/-- The 9 bits of `match_length` hold every result. -/
theorem searchFrom_matchLength_toNat (cur : Half) (s : State) :
    (searchFrom cur s).regs.matchLength.toNat = longestMatch cur s := by
  have bound := longestMatch_le_258_or cur s
  have small := s.regs.prevLength.isLt
  exact Nat.mod_eq_of_lt (by omega)

/-- Settles O35: the search leaves the best of the candidates its walk examined (`search_result`). -/
theorem longestMatchFindsATrueMatch : Obligations.LongestMatchFindsATrueMatch := by
  intro cur s
  obtain ⟨n, -, before, -, best⟩ := exists_searchBest_eq cur s
  have hclamp := longestMatch_eq cur s
  have hmax := longestMatch_le_258_or cur s
  have hlength := searchFrom_matchLength_toNat cur s
  obtain ⟨j, hj, ⟨hlong, -⟩, -, hstart, hlen⟩ | ⟨-, hstart, hlen⟩ := search_result best
  · have hfound : candidateLen cur s j ≤ (searchBest cur s).len :=
      best ▸ candidateLen_le_bestOfFirst (Nat.lt_succ_of_le hj)
    have hprefix : longestMatch cur s ≤ candidateLen cur s j := hlen ▸ Nat.min_le_left _ _
    refine ⟨by omega, hmax, fun _ => ?_, by omega, by omega, hlength, rfl⟩
    rw [hstart]
    exact ⟨fun k hk => read_eq_of_lt_matchLenUpTo (hk.trans_le hprefix), candidate_eq_or_above before hj⟩
  · exact ⟨by omega, hmax, by omega, fun _ => hstart, fun _ _ => hstart, hlength, rfl⟩

/-! ## The limits of the walk -/

/-- R182, R185: a nice first candidate, or a budget that allows no other, makes it the only one examined. -/
theorem searchBest_eq_first {cur : Half} {s : State} (h : NiceAt cur s 0 ∨ chainBudget s = 1) :
    searchBest cur s = bestOfFirst cur s 1 := by
  obtain ⟨n, hn, before, -, best⟩ := exists_searchBest_eq cur s
  obtain rfl | hpos := Nat.eq_zero_or_pos n
  · exact best
  · rcases h with nice | once
    · obtain ⟨-, notNice⟩ := before 0 hpos
      exact absurd nice notNice
    · omega

/-- R183: the reduced budget. -/
theorem chainBudget_of_good {s : State} (hshift : s.params.chainReduceShift = 1)
    (h : s.cfg.goodLength.toNat ≤ s.regs.prevLength.toNat) : chainBudget s = s.cfg.maxChainLength.toNat / 2 := by
  rw [chainBudget, if_pos h, hshift, Nat.shiftRight_one]

theorem beats_zero {cur : Half} {s : State} (h : s.regs.prevLength.toNat < candidateLen cur s 0) : Beats cur s 0 :=
  ⟨h, fun _ hi => absurd hi (Nat.not_lt_zero _)⟩

/-- Settles O36: the walk ends where it does not go on (`exists_searchBest_eq`), with the best of what it examined. -/
theorem searchLimitsEndTheWalk : Obligations.SearchLimitsEndTheWalk := by
  intro cur s
  refine ⟨fun hbudget => ?walk, fun hlong hends => ?first, fun hshort once => ?short, chainBudget_of_good,
    fun h => if_neg (Nat.not_le.2 h)⟩
  case walk =>
    obtain ⟨n, hn, before, ends, best⟩ := exists_searchBest_eq cur s
    refine ⟨n, by omega, before, ?_, search_result best⟩
    rcases ends with spent | stops
    · exact .inl (by omega)
    · rw [GoesOn, not_and_or, Nat.not_lt, not_not] at stops
      exact .inr stops
  case first =>
    have beats : Beats cur s 0 := beats_zero hlong
    have best := searchBest_eq_first (hends.imp_left fun nice => ⟨beats, nice⟩)
    rw [longestMatch_eq, searchFrom_regs, best, bestOfFirst_succ_of_beats beats]
    exact ⟨rfl, rfl⟩
  case short =>
    have best := searchBest_eq_first (cur := cur) (.inr once)
    rw [longestMatch_eq, searchFrom_regs, best, bestOfFirst_succ_of_not_beats fun ⟨hlong, _⟩ => Nat.not_le.2 hlong hshort]
    exact ⟨rfl, rfl⟩

end Sys2Proof.Machine

namespace Sys2Proof.Machine

open Sys2Proof.Config

/-! ## The parts of an iteration (R203 to R206, R210, R215) -/

/-- R205: a short lookahead ends the loop with flush None. -/
theorem topFillEnd_eq_needMore {f : Flush} {t : State} (h : t.regs.lookahead.toNat < 262) (hf : f = .noFlush) :
    topFillEnd f t = .needMore := if_pos ⟨h, hf⟩

theorem topFillEnd_eq_leave {f : Flush} {t : State} (h : t.regs.lookahead.toNat = 0) (hf : f ≠ .noFlush) :
    topFillEnd f t = .leave := by
  rw [topFillEnd, if_neg fun e => hf e.2, if_pos h]

theorem topFillEnd_eq_cont {f : Flush} {t : State}
    (h : 262 ≤ t.regs.lookahead.toNat ∨ (f ≠ .noFlush ∧ t.regs.lookahead.toNat ≠ 0)) : topFillEnd f t = .cont := by
  rw [topFillEnd, if_neg (by rw [minLookahead]; grind), if_neg (by omega)]

/-- R204: StoreTop ends on an empty lookahead only. -/
theorem storeTopEnd_of_empty {f : Flush} {t : State} (h : t.regs.lookahead.toNat = 0) :
    storeTopEnd f t = if f = .noFlush then .needMore else .leave := if_pos h

theorem storeTopEnd_eq_cont {f : Flush} {t : State} (h : 0 < t.regs.lookahead.toNat) : storeTopEnd f t = .cont :=
  if_neg (by omega)

theorem storeIter_of_cont {f : Flush} {s : State} (h : storeTopEnd f (storeTopState s) = .cont) :
    storeIter f s = ⟨advance 1 1 (storeTopState s),
      some (literalAt (storeTopState s).regs.strstart.toNat (storeTopState s)), .cont⟩ := by
  simp only [storeIter, h]

theorem storeIter_of_end {f : Flush} {s : State} (h : storeTopEnd f (storeTopState s) ≠ .cont) :
    storeIter f s = ⟨storeTopState s, none, storeTopEnd f (storeTopState s)⟩ := by
  cases e : storeTopEnd f (storeTopState s) with
  | cont => exact absurd e h
  | needMore => simp only [storeIter, e]
  | leave => simp only [storeIter, e]

theorem fastIter_of_cont {f : Flush} {s : State} (h : topFillEnd f (topFillState s) = .cont) :
    fastIter f s = fastEmit (fastSearch (insertCurrent (topFillState s))) := by
  simp only [fastIter, h]

theorem fastIter_of_end {f : Flush} {s : State} (h : topFillEnd f (topFillState s) ≠ .cont) :
    fastIter f s = ⟨topFillState s, none, topFillEnd f (topFillState s)⟩ := by
  cases e : topFillEnd f (topFillState s) with
  | cont => exact absurd e h
  | needMore => simp only [fastIter, e]
  | leave => simp only [fastIter, e]

theorem slowIter_of_cont {f : Flush} {s : State} (h : topFillEnd f (topFillState s) = .cont) :
    slowIter f s = slowEmit (slowSearch (shiftMatch (insertCurrent (topFillState s)))) := by
  simp only [slowIter, h]

theorem slowIter_of_end {f : Flush} {s : State} (h : topFillEnd f (topFillState s) ≠ .cont) :
    slowIter f s = ⟨topFillState s, none, topFillEnd f (topFillState s)⟩ := by
  cases e : topFillEnd f (topFillState s) with
  | cont => exact absurd e h
  | needMore => simp only [slowIter, e]
  | leave => simp only [slowIter, e]

/-- R212: a match of 3 bytes or more is emitted at once. -/
theorem fastEmit_match {s : State} (h : 3 ≤ s.regs.matchLength.toNat) : fastEmit s = ⟨fastAfterMatch s,
    some (.backref s.regs.matchLength.toNat (sub16 s.regs.strstart.toNat s.regs.matchStart.toNat)), .cont⟩ := if_pos h

theorem fastEmit_literal {s : State} (h : s.regs.matchLength.toNat < 3) :
    fastEmit s = ⟨advance 1 1 s, some (literalAt s.regs.strstart.toNat s), .cont⟩ := if_neg (Nat.not_le.2 h)

/-- R219: the previous match is emitted when the current one is not longer. -/
theorem slowEmit_match {s : State} (hlen : 3 ≤ s.regs.prevLength.toNat)
    (hle : s.regs.matchLength.toNat ≤ s.regs.prevLength.toNat) : slowEmit s = ⟨slowAfterMatch s,
      some (.backref s.regs.prevLength.toNat (sub16 (s.regs.strstart.toNat - 1) s.regs.prevMatch.toNat)), .cont⟩ :=
  if_pos ⟨hlen, hle⟩

/-- R220, R221: otherwise the current position becomes the held one, and a byte held before is emitted. -/
theorem slowEmit_defer {s : State}
    (h : s.regs.prevLength.toNat < 3 ∨ s.regs.prevLength.toNat < s.regs.matchLength.toNat) :
    slowEmit s = ⟨hold (advance 1 1 s),
      if s.regs.matchAvailable then some (literalAt (s.regs.strstart.toNat - 1) s) else none, .cont⟩ := by
  rw [slowEmit, if_neg (by rw [minMatch]; omega)]
  cases e : s.regs.matchAvailable with
  | false => rfl
  | true => simp [hold, advance, e]

/-- R203: a token is emitted only by an iteration that goes on. -/
theorem topFillEnd_of_fastIter_token {f : Flush} {s : State} (h : (fastIter f s).token ≠ none) :
    topFillEnd f (topFillState s) = .cont := by
  by_contra e
  exact h (by rw [fastIter_of_end e])

theorem topFillEnd_of_slowIter_token {f : Flush} {s : State} (h : (slowIter f s).token ≠ none) :
    topFillEnd f (topFillState s) = .cont := by
  by_contra e
  exact h (by rw [slowIter_of_end e])

theorem topFillEnd_of_slowIter_cont {f : Flush} {s : State} (h : (slowIter f s).ends = .cont) :
    topFillEnd f (topFillState s) = .cont := by
  by_contra e
  rw [slowIter_of_end e] at h
  exact e h

/-- Settles O40: the two clauses are the two outcomes of R218's test. -/
theorem shortMatchesAreTruncated : Obligations.ShortMatchesAreTruncated := by
  intro s
  have test : truncated s = true ↔ s.regs.matchLength.toNat ≤ 5 ∧ (s.cfg.strategy = .filtered
      ∨ (s.regs.matchLength.toNat = 3 ∧ 4096 < sub16 s.regs.strstart.toNat s.regs.matchStart.toNat)) := by
    simp [truncated]
  refine ⟨fun h => if_pos (test.2 ?_), fun h => if_neg (mt test.1 ?_)⟩
  · obtain ⟨hlen, hfiltered⟩ | ⟨hlen, hfar⟩ := h
    · exact ⟨hlen, .inl hfiltered⟩
    · exact ⟨by omega, .inr ⟨hlen, hfar⟩⟩
  · rintro ⟨hlen, hfiltered | ⟨hthree, hfar⟩⟩
    · obtain hlong | ⟨hother, -⟩ := h
      · omega
      · exact hother hfiltered
    · omega

/-- Settles O42: `slowEmit_defer`, with the updates written out. -/
theorem slowDefersALiteral : Obligations.SlowDefersALiteral := fun _ h => slowEmit_defer h

/-- R166: with nothing to read and no slide due, FILL changes nothing. -/
theorem fill_of_empty {s : State} (hin : s.inFifo = []) (hslide : slideDue s = false) : fill s = s := by
  have stay : slideIfDue s = s := if_neg (by simp [hslide])
  rw [fill, fillLoop, stay, if_pos (by simp [hin])]

/-- R203 to R205: how TopFill ends is how a Fast or Slow iteration ends, with nothing emitted. -/
theorem iter_eq_of_topFillEnd {f : Flush} {s : State} {e : IterEnd} (he : topFillEnd f (topFillState s) = e) (hne : e ≠ .cont)
    {r : IterResult} (hr : r = fastIter f s ∨ r = slowIter f s) : r = ⟨topFillState s, none, e⟩ := by
  subst he
  rwa [fastIter_of_end hne, slowIter_of_end hne, or_self] at hr

theorem storeIter_of_empty {f : Flush} {s : State} (h : (storeTopState s).regs.lookahead.toNat = 0) :
    storeIter f s = ⟨storeTopState s, none, if f = .noFlush then .needMore else .leave⟩ := by
  have e := storeTopEnd_of_empty (f := f) h
  rw [storeIter_of_end (by rw [e]; split <;> nofun), e]

/-- Settles O37: the flavours' iterations by how their top ends, in the state the top leaves. -/
theorem iterationEndsWhenInputRunsOut : Obligations.IterationEndsWhenInputRunsOut := by
  intro f s
  refine ⟨fun hin hslide hempty r hr => ?nothing, fun hin hslide hshort hf r hr => ?idle,
    fun t ht r hr => ?top, fun t ht => ?store⟩
  case nothing =>
    have top : topFillState s = s := by rw [topFillState, fill_of_empty hin hslide, ite_self]
    have topStore : storeTopState s = s := by rw [storeTopState, fill_of_empty hin hslide, ite_self]
    have ends : topFillEnd f (topFillState s) = if f = .noFlush then .needMore else .leave := by
      rw [top]
      split
      · exact topFillEnd_eq_needMore (by omega) ‹_›
      · exact topFillEnd_eq_leave hempty ‹_›
    obtain rfl | hr := hr
    · rw [storeIter_of_empty (by rwa [topStore]), topStore]
    · rw [iter_eq_of_topFillEnd ends (by split <;> nofun) hr, top]
  case idle =>
    have top : topFillState s = s := by rw [topFillState, fill_of_empty hin hslide, ite_self]
    rw [iter_eq_of_topFillEnd (topFillEnd_eq_needMore (by rwa [top]) hf) nofun hr, top]
  case top =>
    obtain rfl : t = topFillState s := ht
    exact ⟨fun hshort hf => iter_eq_of_topFillEnd (topFillEnd_eq_needMore hshort hf) nofun hr,
      fun hempty hf => iter_eq_of_topFillEnd (topFillEnd_eq_leave hempty hf) nofun hr⟩
  case store =>
    obtain rfl : t = storeTopState s := ht
    exact ⟨storeIter_of_empty, fun hbyte => storeIter_of_cont (storeTopEnd_eq_cont hbyte)⟩

/-! ## The registers the parts of an iteration keep -/

theorem slideIfDue_regs (s : State) : (slideIfDue s).regs = { s.regs with
    strstart := (slideIfDue s).regs.strstart, matchStart := (slideIfDue s).regs.matchStart } := by
  rw [slideIfDue]; split <;> rfl

/-- R166, R167: FILL writes no register but `strstart`, `lookahead` and `match_start`. -/
theorem fillLoop_regs (k : Nat) (s : State) : (fillLoop k s).regs = { s.regs with
    strstart := (fillLoop k s).regs.strstart
    lookahead := (fillLoop k s).regs.lookahead
    matchStart := (fillLoop k s).regs.matchStart } := by
  induction k generalizing s with
  | zero => rfl
  | succ k ih =>
    rw [fillLoop]
    split
    · rw [slideIfDue_regs]
    · dsimp only
      split
      · refine (ih _).trans ?_
        rw [takeInput_regs, slideIfDue_regs]
      · rw [takeInput_regs, slideIfDue_regs]

theorem topFillState_regs (s : State) : (topFillState s).regs = { s.regs with
    strstart := (topFillState s).regs.strstart
    lookahead := (topFillState s).regs.lookahead
    matchStart := (topFillState s).regs.matchStart } := by
  rw [topFillState]
  split
  · rw [fill]; exact fillLoop_regs _ s
  · rfl

@[simp] theorem topFillState_matchLength (s : State) : (topFillState s).regs.matchLength = s.regs.matchLength := by
  rw [topFillState_regs]
@[simp] theorem topFillState_prevLength (s : State) : (topFillState s).regs.prevLength = s.regs.prevLength := by
  rw [topFillState_regs]
@[simp] theorem topFillState_matchAvailable (s : State) : (topFillState s).regs.matchAvailable = s.regs.matchAvailable := by
  rw [topFillState_regs]

/-- R162: an insertion writes the chains and `hash_head`. -/
theorem insertCurrent_frame (s : State) : insertCurrent s = { s with
    regs := { s.regs with hashHead := (insertCurrent s).regs.hashHead }
    head := (insertCurrent s).head
    prev := (insertCurrent s).prev } := by
  rw [insertCurrent]; split <;> rfl

@[simp] theorem insertCurrent_matchLength (s : State) : (insertCurrent s).regs.matchLength = s.regs.matchLength := by
  rw [insertCurrent_frame]
@[simp] theorem insertCurrent_prevLength (s : State) : (insertCurrent s).regs.prevLength = s.regs.prevLength := by
  rw [insertCurrent_frame]
@[simp] theorem insertCurrent_matchStart (s : State) : (insertCurrent s).regs.matchStart = s.regs.matchStart := by
  rw [insertCurrent_frame]
@[simp] theorem insertCurrent_matchAvailable (s : State) : (insertCurrent s).regs.matchAvailable = s.regs.matchAvailable := by
  rw [insertCurrent_frame]
@[simp] theorem insertCurrent_strstart (s : State) : (insertCurrent s).regs.strstart = s.regs.strstart := by
  rw [insertCurrent_frame]
@[simp] theorem insertCurrent_window (s : State) : (insertCurrent s).window = s.window := by
  rw [insertCurrent_frame]

/-- R218: the truncation writes `match_length` only. -/
theorem truncate_frame (s : State) :
    truncate s = { s with regs := { s.regs with matchLength := (truncate s).regs.matchLength } } := by
  rw [truncate]; split <;> rfl

/-- R216 to R218: a Slow search, with its truncation, writes `match_length` and `match_start`. -/
theorem slowSearch_frame (s : State) : slowSearch s = { s with
    regs := { s.regs with
      matchLength := (slowSearch s).regs.matchLength
      matchStart := (slowSearch s).regs.matchStart } } := by
  rw [slowSearch]
  split
  · rw [truncate_frame]
    split <;> rfl
  · rfl

@[simp] theorem slowSearch_strstart (s : State) : (slowSearch s).regs.strstart = s.regs.strstart := by
  rw [slowSearch_frame]
@[simp] theorem slowSearch_prevLength (s : State) : (slowSearch s).regs.prevLength = s.regs.prevLength := by
  rw [slowSearch_frame]
@[simp] theorem slowSearch_prevMatch (s : State) : (slowSearch s).regs.prevMatch = s.regs.prevMatch := by
  rw [slowSearch_frame]
@[simp] theorem slowSearch_matchAvailable (s : State) : (slowSearch s).regs.matchAvailable = s.regs.matchAvailable := by
  rw [slowSearch_frame]

/-! ## The search of an iteration -/

theorem candidateInReach_eq_true {s : State} : candidateInReach s = true ↔
    s.regs.hashHead ≠ 0#16 ∧ sub16 s.regs.strstart.toNat s.regs.hashHead.toNat ≤ maxDist s.cfg := by
  simp [candidateInReach]

/-- R211: the Fast flavour searches from a candidate in reach, but with HuffmanOnly. -/
theorem fastSearch_of_runs {s : State} (hc : candidateInReach s = true) (hs : s.cfg.strategy ≠ .huffmanOnly) :
    fastSearch s = searchFrom s.regs.hashHead s := if_pos ⟨hc, hs⟩

theorem fastSearch_of_skips {s : State} (h : ¬(candidateInReach s = true ∧ s.cfg.strategy ≠ .huffmanOnly)) :
    fastSearch s = s := if_neg h

/-- R216: the Slow flavour does so only while the previous match is shorter than `MaxLazy`. -/
theorem slowSearch_of_runs {s : State} (hc : candidateInReach s = true)
    (hlazy : s.regs.prevLength.toNat < s.cfg.maxLazy.toNat) (hs : s.cfg.strategy ≠ .huffmanOnly) :
    slowSearch s = truncate (searchFrom s.regs.hashHead s) := by
  rw [slowSearch, if_pos ⟨hc, hlazy⟩, if_pos hs]

/-- R216, R218: with HuffmanOnly only the truncation is left. -/
theorem slowSearch_of_huffmanOnly {s : State} (hs : s.cfg.strategy = .huffmanOnly) :
    slowSearch s = s ∨ slowSearch s = truncate s := by
  rw [slowSearch]
  split
  · exact .inr (by rw [if_neg (not_not_intro hs)])
  · exact .inl rfl

theorem slowSearch_of_skips {s : State}
    (h : ¬(candidateInReach s = true ∧ s.regs.prevLength.toNat < s.cfg.maxLazy.toNat)) : slowSearch s = s := if_neg h

/-- Settles O38: the tests of the searches, and the parts of an iteration that goes on. -/
theorem searchConditions : Obligations.SearchConditions := by
  refine ⟨fun s => ⟨fun hhead hnear hs => ?runs, fun h => ?outOfReach, fun hs => ?huffmanOnly, fun hlazy => ?lazy,
    fun h => if_pos h, fun h => if_neg (Nat.not_le.2 h)⟩, fun f s t ht hgo => ?parts⟩
  case runs =>
    have hc := candidateInReach_eq_true.2 ⟨hhead, hnear⟩
    exact ⟨fastSearch_of_runs hc hs, fun hlazy => slowSearch_of_runs hc hlazy hs⟩
  case outOfReach =>
    have hc : ¬candidateInReach s = true := by
      rw [candidateInReach_eq_true]
      rintro ⟨hhead, hnear⟩
      exact h.elim hhead (Nat.not_lt.2 hnear)
    exact ⟨fastSearch_of_skips fun e => hc e.1, slowSearch_of_skips fun e => hc e.1⟩
  case huffmanOnly => exact ⟨fastSearch_of_skips fun e => e.2 hs, slowSearch_of_huffmanOnly hs⟩
  case lazy => exact slowSearch_of_skips fun e => Nat.not_lt.2 hlazy e.2
  case parts =>
    obtain rfl : t = topFillState s := ht
    have goes := topFillEnd_eq_cont hgo
    rw [← insertCurrent_matchLength, ← insertCurrent_matchStart]
    exact ⟨fastIter_of_cont goes, slowIter_of_cont goes⟩

end Sys2Proof.Machine

namespace Sys2Proof.Machine

open Sys2Proof.Config

/-! ## Where the span of a match goes -/

theorem advance_strstart {n k : Nat} {s : State} (h : s.regs.strstart.toNat + n < 2 ^ 17) :
    (advance n k s).regs.strstart.toNat = s.regs.strstart.toNat + n := by
  rw [advance_regs, BitVec.toNat_add, BitVec.toNat_ofNat]
  omega

theorem insertSpan_strstart (n : Nat) {t : State} (h : t.regs.strstart.toNat + n < 2 ^ 17) :
    (insertSpan n t).regs.strstart.toNat = t.regs.strstart.toNat + n := by
  induction n generalizing t with
  | zero => rfl
  | succ n ih =>
    have moved := advance_one_strstart h
    refine (ih ?_).trans ?_ <;> rw [insertHashHead_regs, moved] <;> omega

theorem insertSpanUpTo_strstart (bound n : Nat) {t : State} (h : t.regs.strstart.toNat + n < 2 ^ 17) :
    (insertSpanUpTo bound n t).regs.strstart.toNat = t.regs.strstart.toNat + n := by
  induction n generalizing t with
  | zero => rfl
  | succ n ih =>
    have moved := advance_one_strstart h
    rw [insertSpanUpTo]
    split <;> refine (ih ?_).trans ?_ <;> simp only [insertHashHead_regs, moved] <;> omega

/-! ## After the match of a Fast iteration -/

/-- R213: what the end of a Fast match writes. -/
theorem fastAfterMatch_frame (s : State) : fastAfterMatch s = { s with
    regs := { s.regs with
      strstart := (fastAfterMatch s).regs.strstart
      lookahead := (fastAfterMatch s).regs.lookahead
      hashHead := (fastAfterMatch s).regs.hashHead
      matchLength := 0 }
    head := (fastAfterMatch s).head
    prev := (fastAfterMatch s).prev
    history := s.history + s.regs.matchLength.toNat } := by
  rw [fastAfterMatch]
  split
  · rw [insertSpan_frame]; rfl
  · rfl

/-- R213: the span is used up, inserted or not. -/
theorem fastAfterMatch_lookahead {s : State} (hle : s.regs.matchLength.toNat ≤ s.regs.lookahead.toNat) :
    (fastAfterMatch s).regs.lookahead.toNat = s.regs.lookahead.toNat - s.regs.matchLength.toNat := by
  rw [← advance_lookahead 0 hle, fastAfterMatch]
  split
  · rw [insertSpan_frame]; simp
  · simp

theorem fastAfterMatch_strstart {s : State} (hlen : 3 ≤ s.regs.matchLength.toNat)
    (hfit : s.regs.strstart.toNat + s.regs.matchLength.toNat < 2 ^ 17) :
    (fastAfterMatch s).regs.strstart.toNat = s.regs.strstart.toNat + s.regs.matchLength.toNat := by
  have hstart := advance_zero_strstart s.regs.matchLength.toNat s
  rw [fastAfterMatch]
  split
  · have span := insertSpan_strstart (s.regs.matchLength.toNat - 1) (t := advance 0 s.regs.matchLength.toNat s)
      (by rw [hstart]; omega)
    rw [hstart] at span
    rw [setMatchLength_regs, advance_strstart (by omega), span]
    omega
  · rw [setMatchLength_regs, advance_strstart (by rw [hstart]; omega), hstart]

/-- R213: `hash_head` ends as the link of the last position of an inserted span. -/
theorem hashHead_fastAfterMatch {s : State} (hm : MemoriesWf s) (hw : 9 ≤ s.cfg.wbits.toNat)
    (hfit : s.regs.strstart.toNat + s.regs.lookahead.toNat ≤ 65536) (hlen : 3 ≤ s.regs.matchLength.toNat)
    (hlazy : s.regs.matchLength.toNat ≤ s.cfg.maxLazy.toNat)
    (hleft : s.regs.matchLength.toNat + 3 ≤ s.regs.lookahead.toNat) :
    (fastAfterMatch s).regs.hashHead = Memory.read (fastAfterMatch s).prev
      ((s.regs.strstart.toNat + s.regs.matchLength.toNat - 1) % 2 ^ s.cfg.wbits.toNat) := by
  have hwin := le_windowSize hw
  have hsmall := s.regs.matchLength.isLt
  have hstart := advance_zero_strstart s.regs.matchLength.toNat s
  have short : s.regs.matchLength.toNat ≤ s.cfg.maxLazy.toNat
      ∧ minMatch ≤ (advance 0 s.regs.matchLength.toNat s).regs.lookahead.toNat := by
    rw [advance_lookahead 0 (by omega), minMatch]
    omega
  obtain ⟨-, -, link⟩ := inserted_insertSpan (s.regs.matchLength.toNat - 1) (s := s)
    (t := advance 0 s.regs.matchLength.toNat s) (inserted_none _ rfl rfl) hm (Nat.le_refl _)
    (Nat.add_le_add_left (by rw [advance_cfg, ← windowSize]; omega) _) (by rw [hstart]; omega)
  rw [hstart, ← Nat.add_sub_assoc (by omega)] at link
  rw [fastAfterMatch, if_pos short]
  exact link (by omega)

/-- Settles O39: a Fast iteration emits its match (`fastEmit_match`) and uses up its span, or emits a literal. -/
theorem fastEmitsGreedily : Obligations.FastEmitsGreedily := by
  intro s hle hfit
  refine ⟨fun hlen => ?matched, fun hshort _ => ?literal⟩
  case matched =>
    have hsmall := s.regs.matchLength.isLt
    rw [fastEmit_match hlen]
    refine ⟨rfl, rfl, fastAfterMatch_strstart hlen (by omega), fastAfterMatch_lookahead hle, fastAfterMatch_frame s,
      fun hlazy hleft hm hw => ⟨inserted_fastAfterMatch hm hw hfit hlen hlazy hleft,
        hashHead_fastAfterMatch hm hw hfit hlen hlazy hleft⟩, fun hskip => ?_⟩
    rw [fastAfterMatch_skipped hle hskip]
    exact ⟨rfl, rfl, rfl⟩
  case literal =>
    rw [fastEmit_literal hshort]
    exact ⟨rfl, rfl, rfl⟩

/-! ## After the match of a Slow iteration -/

/-- R219: what the end of a Slow match writes. -/
theorem slowAfterMatch_frame (s : State) : slowAfterMatch s = { s with
    regs := { s.regs with
      strstart := (slowAfterMatch s).regs.strstart
      lookahead := (slowAfterMatch s).regs.lookahead
      hashHead := (slowAfterMatch s).regs.hashHead
      prevLength := 0
      matchLength := 2
      matchAvailable := false }
    head := (slowAfterMatch s).head
    prev := (slowAfterMatch s).prev
    history := s.history + (s.regs.prevLength.toNat - 1) } := by
  rw [slowAfterMatch]
  rw [insertSpanUpTo_frame]
  rfl

theorem slowAfterMatch_lookahead {s : State} (hle : s.regs.prevLength.toNat - 1 ≤ s.regs.lookahead.toNat) :
    (slowAfterMatch s).regs.lookahead.toNat = s.regs.lookahead.toNat - (s.regs.prevLength.toNat - 1) := by
  rw [← advance_lookahead 0 hle, slowAfterMatch]
  rw [insertSpanUpTo_frame]
  simp

theorem slowAfterMatch_strstart {s : State} (hlen : 3 ≤ s.regs.prevLength.toNat)
    (hfit : s.regs.strstart.toNat + s.regs.prevLength.toNat ≤ 2 ^ 17) :
    (slowAfterMatch s).regs.strstart.toNat = s.regs.strstart.toNat + s.regs.prevLength.toNat - 1 := by
  have hstart := advance_zero_strstart (s.regs.prevLength.toNat - 1) s
  have span := insertSpanUpTo_strstart (s.regs.strstart.toNat + s.regs.lookahead.toNat) (s.regs.prevLength.toNat - 2)
    (t := advance 0 (s.regs.prevLength.toNat - 1) s) (by rw [hstart]; omega)
  rw [hstart] at span
  rw [slowAfterMatch, advance_strstart] <;> rw [endSlowMatch_regs] <;> dsimp only <;> omega

/-- R219: past `max_insert` the end of a Slow match leaves the chains and `hash_head`. -/
theorem slowAfterMatch_none {s : State} (hfit : s.regs.strstart.toNat + s.regs.lookahead.toNat ≤ 65536)
    (hshort : s.regs.lookahead.toNat < 4) : (slowAfterMatch s).regs.hashHead = s.regs.hashHead
      ∧ (slowAfterMatch s).head = s.head ∧ (slowAfterMatch s).prev = s.prev := by
  have hsmall := s.regs.prevLength.isLt
  have hstart := advance_zero_strstart (s.regs.prevLength.toNat - 1) s
  obtain ⟨head, prev, hashHead⟩ := insertSpanUpTo_none (s.regs.strstart.toNat + s.regs.lookahead.toNat)
    (s.regs.prevLength.toNat - 2) (t := advance 0 (s.regs.prevLength.toNat - 1) s) (by rw [hstart]; omega)
    (by rw [hstart]; omega)
  exact ⟨hashHead, head, prev⟩

/-- R219: `hash_head` ends as the link of the last position inserted. -/
theorem hashHead_slowAfterMatch {s : State} (hm : MemoriesWf s) (hw : 9 ≤ s.cfg.wbits.toNat)
    (hfit : s.regs.strstart.toNat + s.regs.lookahead.toNat ≤ 65536) (hlen : 3 ≤ s.regs.prevLength.toNat)
    (hlong : 4 ≤ s.regs.lookahead.toNat) :
    (slowAfterMatch s).regs.hashHead = Memory.read (slowAfterMatch s).prev
      ((s.regs.strstart.toNat + min (s.regs.prevLength.toNat - 2) (s.regs.lookahead.toNat - 3)) % 2 ^ s.cfg.wbits.toNat) := by
  have hwin := le_windowSize hw
  have hsmall := s.regs.prevLength.isLt
  have hstart := advance_zero_strstart (s.regs.prevLength.toNat - 1) s
  obtain ⟨-, -, link⟩ := inserted_insertSpanUpTo (s.regs.strstart.toNat + s.regs.lookahead.toNat)
    (s.regs.prevLength.toNat - 2) (s := s) (t := advance 0 (s.regs.prevLength.toNat - 1) s)
    (lo := s.regs.strstart.toNat + 1) (inserted_of_le (by rw [hstart]; omega) rfl rfl) hm (by rw [hstart]; omega)
    (by rw [hstart]; exact Nat.add_le_add_left (by rw [advance_cfg, ← windowSize]; omega) _) hfit (by rw [hstart]; omega)
  rw [hstart, Nat.add_sub_assoc (by omega), Nat.add_min_add_left] at link
  exact link (by omega) (by omega)

/-- Settles O41: `slowEmit_match`, and what the end of a Slow match leaves. -/
theorem slowEmitsThePreviousMatch : Obligations.SlowEmitsThePreviousMatch := by
  intro s hlen hle hspan hfit
  have hsmall := s.regs.prevLength.isLt
  rw [slowEmit_match hlen hle]
  refine ⟨rfl, rfl, slowAfterMatch_strstart hlen (by omega), ?_, slowAfterMatch_frame s,
    fun hlong hm hw => hashHead_slowAfterMatch hm hw hfit hlen hlong, slowAfterMatch_none hfit⟩
  rw [slowAfterMatch_lookahead (by omega)]
  omega

end Sys2Proof.Machine

namespace Sys2Proof.Machine

open Sys2Proof.Config

/-! ## The token of a step (R203, R222, R223) -/

/-- R212: a Fast iteration that encodes emits a match or a literal. -/
theorem fastEmit_token (s : State) :
    (∃ len dist, (fastEmit s).token = some (.backref len dist)) ∨ ∃ b, (fastEmit s).token = some (.lit b) := by
  rcases Nat.lt_or_ge s.regs.matchLength.toNat 3 with hshort | hlong
  · rw [fastEmit_literal hshort]; exact .inr ⟨_, rfl⟩
  · rw [fastEmit_match hlong]; exact .inl ⟨_, _, rfl⟩

/-- R219 to R221: a Slow iteration that encodes emits a match or a literal, or nothing when no byte was held. -/
theorem slowEmit_token (s : State) :
    (∃ len dist, (slowEmit s).token = some (.backref len dist)) ∨ (∃ b, (slowEmit s).token = some (.lit b))
      ∨ ((slowEmit s).token = none ∧ s.regs.matchAvailable = false) := by
  by_cases h : 3 ≤ s.regs.prevLength.toNat ∧ s.regs.matchLength.toNat ≤ s.regs.prevLength.toNat
  · rw [slowEmit_match h.1 h.2]; exact .inl ⟨_, _, rfl⟩
  · rw [slowEmit_defer (by omega)]
    cases e : s.regs.matchAvailable with
    | true => exact .inr (.inl ⟨_, rfl⟩)
    | false => exact .inr (.inr ⟨rfl, rfl⟩)

/-- R203: an iteration emits a match or a literal, or nothing: when it ends the loop, or when a Slow one defers its byte with none held. -/
theorem flavourIter_token (f : Flush) (s : State) :
    (∃ len dist, (flavourIter f s).token = some (.backref len dist)) ∨ (∃ b, (flavourIter f s).token = some (.lit b))
      ∨ ((flavourIter f s).token = none
        ∧ ((flavourIter f s).ends ≠ .cont ∨ (s.cfg.flavour = .slow ∧ s.regs.matchAvailable = false))) := by
  unfold flavourIter
  cases s.cfg.flavour with
  | store =>
    by_cases goes : storeTopEnd f (storeTopState s) = .cont
    · rw [storeIter_of_cont goes]; exact .inr (.inl ⟨_, rfl⟩)
    · rw [storeIter_of_end goes]; exact .inr (.inr ⟨rfl, .inl goes⟩)
  | fast =>
    by_cases goes : topFillEnd f (topFillState s) = .cont
    · rw [fastIter_of_cont goes]; exact (fastEmit_token _).imp_right .inl
    · rw [fastIter_of_end goes]; exact .inr (.inr ⟨rfl, .inl goes⟩)
  | slow =>
    by_cases goes : topFillEnd f (topFillState s) = .cont
    · rw [slowIter_of_cont goes]
      refine (slowEmit_token _).imp_right (.imp_right fun ⟨silent, held⟩ => ⟨silent, .inr ⟨rfl, ?_⟩⟩)
      simpa using held
    · rw [slowIter_of_end goes]; exact .inr (.inr ⟨rfl, .inl goes⟩)

theorem runIter_token (s : State) : (runIter s).token = (flavourIter s.cmd.flush s).token := by
  unfold runIter; dsimp only; split <;> rfl

/-- R222: the tail emits a literal or nothing. -/
theorem runTail_token_ne_mark (s : State) (g : Flush) : (runTail s).token ≠ some (.mark g) := by
  unfold runTail; split <;> nofun

/-- R223: only RUN_MARK emits a marker, that of its flush, which is never None. -/
theorem attempt_token_ne_mark_noFlush {s : State} (h : ControlOk s) : (attempt s).token ≠ some (.mark .noFlush) := by
  unfold attempt
  cases hp : s.phase with
  | runIter =>
    rw [runIter_token]
    obtain ⟨_, _, e⟩ | ⟨_, e⟩ | ⟨e, -⟩ := flavourIter_token s.cmd.flush s <;> simp [e]
  | runTail => exact runTail_token_ne_mark s _
  | runMark =>
    obtain ⟨hflush, -⟩ := h.runTail (.inr hp)
    exact fun e => hflush (Token.mark.inj (Option.some.inj e))
  | _ => nofun

/-! ## What a step does to the token FIFO before its own token -/

/-- The token FIFO and the configuration that bounds its tokens are the same. -/
def KeepsTokens (s t : State) : Prop := t.tokFifo = s.tokFifo ∧ t.cfg = s.cfg

theorem keepsTokens_dictPop (s : State) : KeepsTokens s (dictPop s) := by
  unfold dictPop; split <;> exact ⟨rfl, rfl⟩

theorem keepsTokens_dictCommit (s : State) : KeepsTokens s (dictCommit s) := by
  rcases Nat.lt_or_ge s.cmd.dictTotal.toNat 3 with hshort | hlong
  · rw [dictCommit_short hshort]; exact ⟨rfl, rfl⟩
  · obtain ⟨_, _, e⟩ := dictCommit_long_frame hlong
    rw [e]; exact ⟨rfl, rfl⟩

theorem keepsTokens_runStart (s : State) : KeepsTokens s (runStart s) := by
  unfold runStart; split_ifs <;> exact ⟨rfl, rfl⟩

theorem keepsTokens_runIter (s : State) : KeepsTokens s (runIter s).state := by
  have k := keepsControl_flavourIter s.cmd.flush s
  unfold runIter; dsimp only; split <;> exact ⟨k.tokFifo, k.cfg⟩

theorem keepsTokens_runTail (s : State) : KeepsTokens s (runTail s).state := by
  unfold runTail; split <;> exact ⟨rfl, rfl⟩

theorem keepsTokens_runMark (s : State) : KeepsTokens s (runMark s).state := by
  unfold runMark; dsimp only; split_ifs <;> exact ⟨rfl, rfl⟩

/-- R124: INIT, RESET and END empty the token FIFO; but for its own token, every other step leaves it and the configuration. -/
theorem attempt_tokFifo (s : State) : (attempt s).state.tokFifo = [] ∨ KeepsTokens s (attempt s).state := by
  unfold attempt
  cases s.phase with
  | idle => exact .inr ⟨rfl, rfl⟩
  | initOp => exact .inl rfl
  | resetOp => exact .inl rfl
  | endOp => exact .inl rfl
  | dictPop => exact .inr (keepsTokens_dictPop s)
  | dictCommit => exact .inr (keepsTokens_dictCommit s)
  | runStart => exact .inr (keepsTokens_runStart s)
  | runIter => exact .inr (keepsTokens_runIter s)
  | runTail => exact .inr (keepsTokens_runTail s)
  | runMark => exact .inr (keepsTokens_runMark s)
  | faulted => exact .inr ⟨rfl, rfl⟩

/-! ## The tokens in the FIFO stay in bounds -/

theorem TokenFifoOk.congr {s t : State} (h : TokenFifoOk s) (e : KeepsTokens s t) : TokenFifoOk t := by
  obtain ⟨htok, hcfg⟩ := e
  rwa [TokenFifoOk, htok, hcfg]

theorem tokenFifoOk_of_nil {t : State} (h : t.tokFifo = []) : TokenFifoOk t := by
  rw [TokenFifoOk, h]; nofun

/-- R142: an access takes tokens away only. -/
theorem TokenFifoOk.exec {i : Instr} {s t : State} (h : TokenFifoOk s) (hx : exec i s = .next t) : TokenFifoOk t := by
  obtain hk | ⟨-, ha⟩ := exec_cases hx
  · rw [TokenFifoOk, hk.cfg]
    obtain e | e := hk.tokFifo <;> rw [e]
    · exact h
    · exact fun k hmem => h k (List.mem_of_mem_tail hmem)
  · obtain ⟨_, _, _, -, -, rfl⟩ | ⟨_, -, rfl⟩ | ⟨_, -, rfl⟩ | ⟨-, rfl⟩ | ⟨-, rfl⟩ := ha <;> exact h.congr ⟨rfl, rfl⟩

/-- A token in bounds joins tokens in bounds. -/
theorem TokenFifoOk.emitOpt {s : State} {k : Option Token} (h : TokenFifoOk s)
    (hk : ∀ t, k = some t → tokenInBounds s.cfg t = true ∧ t ≠ .mark .noFlush) : TokenFifoOk (emitOpt k s) := by
  cases k with
  | none => exact h
  | some k =>
    intro t hmem
    obtain hold | hnew := List.mem_append.1 hmem
    · exact h t hold
    · obtain rfl := List.mem_singleton.1 hnew
      exact hk t rfl

/-- R226: the engine checks the bounds of a token before it emits it. -/
theorem TokenFifoOk.engineStep {s : State} (h : TokenFifoOk s) (hc : ControlOk s) : TokenFifoOk (engineStep s) := by
  obtain ⟨-, e⟩ | ⟨-, hb, e⟩ | ⟨-, n, -, e⟩ := engineStep_cases s
  · rwa [e]
  · have before : TokenFifoOk (attempt s).state := (attempt_tokFifo s).elim tokenFifoOk_of_nil h.congr
    obtain ⟨-, bounds⟩ := (firstBroken_eq_none _ _).1 hb
    rw [e]
    refine before.emitOpt fun t ht => ⟨?_, ?_⟩
    · obtain ⟨inBounds, -⟩ := bounds t ht
      rwa [ht] at inBounds
    · rintro rfl
      exact attempt_token_ne_mark_noFlush hc ht
  · rw [e]
    exact h.congr ⟨rfl, rfl⟩

/-- Settles O59: an access only takes tokens away, and an engine step adds one token, whose bounds it has checked (R226) and whose
marker code is that of a flush other than None (`ControlOk`). -/
theorem stepsKeepTokensInBounds : Obligations.StepsKeepTokensInBounds := fun _ _ hc h hstep =>
  (step_keeps (P := fun s => ControlOk s ∧ TokenFifoOk s)
    (fun _ _ h => ⟨h.1.congr rfl, h.2⟩)
    (fun _ h => ⟨h.1.engineStep, h.2.engineStep h.1⟩)
    (fun _ _ => ⟨controlOk_of_reset rfl rfl rfl, tokenFifoOk_of_nil rfl⟩)
    (fun _ _ _ h hx => ⟨h.1.exec hx, h.2.exec hx⟩) ⟨hc, h⟩ hstep).2

/-! ## The steps of a RUN -/

/-- R250: an enabled step that breaks nothing performs its effects. -/
theorem engineStep_of_nothingBroken {s : State} (he : enabled s = true) (h : NothingBroken s) :
    engineStep s = wouldLeave s := by
  obtain ⟨⟨session, fifos⟩, bounds⟩ := h
  have hnone : firstBroken (wouldLeave s) (attempt s).token = none := by
    refine (firstBroken_eq_none _ _).2 ⟨fun hs => ?_, bounds⟩
    obtain ⟨window, heads, held, lengths⟩ := session hs
    exact ⟨window, heads, held, lengths, fifos⟩
  obtain ⟨hoff, -⟩ | ⟨-, -, e⟩ | ⟨-, n, hsome, -⟩ := engineStep_cases s
  · simp [he] at hoff
  · exact e
  · rw [wouldLeave, hsome] at hnone
    cases hnone

theorem engineStep_runStart {s : State} (hb : s.busy = true) (hp : s.phase = .runStart)
    (h : SpecInvariants (runStart s)) : engineStep s = runStart s :=
  engineStep_of_silent (by simp [enabled_iff, hb, hp]) (by rw [attempt, hp]) h

/-- R201, R202: RUN_START writes nothing the invariants of R54 speak of. -/
theorem specInvariants_runStart {s : State} (h : SpecInvariants s) (hs : inSession s = true) :
    SpecInvariants (runStart s) := by
  obtain ⟨session, fifos⟩ := h
  unfold runStart
  split_ifs <;> exact ⟨fun _ => session hs, fifos⟩

theorem noProgress_eq_true {s : State} : noProgress s = true ↔ s.inFifo = []
    ∧ (flushCode s.cmd.flush).toNat ≤ (flushCode s.regs.lastFlush).toNat ∧ s.cmd.flush ≠ .finish := by
  simp [noProgress, and_assoc]

/-- Settles O44: RUN_START's three branches, none of which breaks an invariant. -/
theorem runStartAppliesTheNoProgressRule : Obligations.RunStartAppliesTheNoProgressRule := by
  intro s hb hp hinv
  have start : inSession s = true → engineStep s = runStart s := fun hs =>
    engineStep_runStart hb hp (specInvariants_runStart hinv hs)
  refine ⟨fun hfin => ?finished, fun hfin hun hfault hin hflush hnot => ?stops,
    fun hfin hun hfault hwork => ?proceeds⟩
  case finished =>
    rw [start (by simp [hfin]), runStart, if_pos hfin]
    rfl
  case stops =>
    rw [start (inSession_eq_true.2 ⟨hun, hfault⟩), runStart, if_neg hfin, if_pos (noProgress_eq_true.2 ⟨hin, hflush, hnot⟩),
      enterStream, if_neg hnot]
    rfl
  case proceeds =>
    have works : ¬noProgress s = true := by
      rw [noProgress_eq_true]
      rintro ⟨hin, hflush, hnot⟩
      obtain hbytes | hstronger | hfinish := hwork
      · exact hbytes hin
      · omega
      · exact hnot hfinish
    rw [start (inSession_eq_true.2 ⟨hun, hfault⟩), runStart, if_neg hfin, if_neg works]
    rfl

/-- R280: what enables the steps past RUN_START. -/
theorem enabled_of_room {s : State} (hb : s.busy = true) (hp : s.phase = .runIter ∨ s.phase = .runTail ∨ s.phase = .runMark)
    (hroom : s.tokFifo.length < s.params.tokFifoDepth) : enabled s = true := by
  obtain e | e | e := hp <;> simp [enabled_iff, hb, e, hroom]

/-- R54 item 5: where there is room for a token, one may be emitted. -/
theorem fifosFit_emitOpt {s : State} (k : Option Token) (h : fifosFit s = true)
    (hroom : s.tokFifo.length < s.params.tokFifoDepth) : fifosFit (emitOpt k s) = true := by
  rw [fifosFit_eq_true] at h ⊢
  obtain ⟨htok, hin⟩ := h
  cases k with
  | none => exact ⟨htok, hin⟩
  | some k => exact ⟨by simpa [emitOpt] using hroom, hin⟩

/-- R223, R224: RUN_MARK with its two choices in their fields. -/
theorem runMark_eq (s : State) : runMark s = ⟨{ s with
    busy := false, phase := .idle, done := true
    bstate := if s.cmd.flush = .finish then .finishDone else .blockDone
    session := if s.cmd.flush = .finish then .finished else s.session
    head := if s.cmd.flush = .fullFlush then [] else s.head
    history := if s.cmd.flush = .fullFlush then 0 else s.history }, some (.mark s.cmd.flush)⟩ := by
  rw [runMark]
  cases s.cmd.flush <;> rfl

section TailAndMark

variable {s : State} (hb : s.busy = true) (hinv : SpecInvariants s) (hs : inSession s = true)
  (hroom : s.tokFifo.length < s.params.tokFifoDepth)
include hb hinv hs hroom

/-- R222: RUN_TAIL breaks nothing. -/
theorem engineStep_runTail (hp : s.phase = .runTail) : engineStep s = emitOpt (runTail s).token (runTail s).state := by
  obtain ⟨session, fifos⟩ := hinv
  obtain ⟨window, heads, held, lengths⟩ := session hs
  have ha : attempt s = runTail s := by rw [attempt, hp]
  rw [← ha]
  refine engineStep_of_nothingBroken (enabled_of_room hb (.inr (.inl hp)) hroom) ?_
  rw [NothingBroken, wouldLeave, ha, runTail]
  split
  · exact ⟨⟨fun _ => ⟨window, heads, rfl, lengths⟩, fifosFit_emitOpt _ fifos hroom⟩, fun t e => by
      obtain rfl := Option.some.inj e
      exact ⟨rfl, rfl⟩⟩
  · exact ⟨⟨fun _ => ⟨window, heads, held, lengths⟩, fifos⟩, nofun⟩

/-- R223, R224: RUN_MARK breaks nothing. -/
theorem engineStep_runMark (hp : s.phase = .runMark) : engineStep s = emitOpt (runMark s).token (runMark s).state := by
  obtain ⟨session, fifos⟩ := hinv
  obtain ⟨window, heads, held, lengths⟩ := session hs
  have ha : attempt s = runMark s := by rw [attempt, hp]
  rw [← ha]
  refine engineStep_of_nothingBroken (enabled_of_room hb (.inr (.inr hp)) hroom) ?_
  rw [NothingBroken, wouldLeave, ha, runMark_eq]
  refine ⟨⟨fun _ => ⟨window, ?_, held, lengths⟩, fifosFit_emitOpt (some (.mark s.cmd.flush)) fifos hroom⟩, fun t e => ?_⟩
  · by_cases hfull : s.cmd.flush = .fullFlush
    · simp [headsInserted, emitOpt, emit, hfull]
    · simpa [headsInserted, emitOpt, emit, hfull] using heads
  · obtain rfl := Option.some.inj e
    exact ⟨rfl, rfl⟩

end TailAndMark

/-- Settles O45: the two steps break nothing, so they do what they would. -/
theorem runTailAndMarkEndTheRun : Obligations.RunTailAndMarkEndTheRun := by
  intro s hb hinv hs hroom
  refine ⟨fun hp hslow hheld => ?emits, fun hp hnone => ?silent, fun hp => ?mark⟩
  case emits =>
    rw [engineStep_runTail hb hinv hs hroom hp, runTail, if_pos (by simp [holdsByte, hslow, hheld])]
    rfl
  case silent =>
    have nothing : ¬holdsByte s = true := by
      obtain hflavour | hheld := hnone
      · simp [holdsByte, hflavour]
      · simp [holdsByte, hheld]
    rw [engineStep_runTail hb hinv hs hroom hp, runTail, if_neg nothing]
    rfl
  case mark =>
    rw [engineStep_runMark hb hinv hs hroom hp, runMark_eq]
    rfl

/-- Settles O46: the iteration's end decides what `runIter` adds to it, and `KeepsControl` what it left alone. -/
theorem runIterFollowsTheIteration : Obligations.RunIterFollowsTheIteration := by
  rintro s r rfl
  obtain ⟨needMore, leave⟩ := flavourIter_ends s.cmd.flush s
  have k := keepsControl_flavourIter s.cmd.flush s
  refine ⟨needMore, fun hend => ?leaves, fun hend hnone => ?deferral, fun hb hp hroom hgood => ?step⟩
  case leaves =>
    obtain ⟨hflush, hnone, -⟩ := leave hend
    exact ⟨hflush, hnone⟩
  case deferral =>
    obtain ⟨_, _, e⟩ | ⟨_, e⟩ | ⟨-, hdone | hheld⟩ := flavourIter_token s.cmd.flush s
    · simp [e] at hnone
    · simp [e] at hnone
    · exact absurd hend hdone
    · exact hheld
  case step =>
    have step : engineStep s = emitOpt (runIter s).token (runIter s).state := by
      rw [engineStep_of_nothingBroken (enabled_of_room hb (.inl hp) hroom) hgood, wouldLeave, attempt, hp]
    have goesOn : (flavourIter s.cmd.flush s).ends = .cont →
        engineStep s = emitOpt (flavourIter s.cmd.flush s).token (flavourIter s.cmd.flush s).state := fun hend => by
      rw [step, runIter]
      simp only [hend]
    refine ⟨fun hend => ?_, fun hend => ?_, fun hend hnone => ?_, fun t hend htoken => ?_, fun hend => ?_⟩
    · obtain ⟨-, hnone⟩ := needMore hend
      rw [step, runIter]
      simp only [hend, hnone]
      rfl
    · obtain ⟨-, hnone, -⟩ := leave hend
      rw [step, runIter]
      simp only [hend, hnone]
      rfl
    · rw [goesOn hend, hnone]
      rfl
    · rw [goesOn hend, htoken, ← k.tokFifo, ← k.totalTok]
      rfl
    · rw [goesOn hend]
      cases (flavourIter s.cmd.flush s).token <;> exact ⟨k.phase.trans hp, k.busy.trans hb⟩

end Sys2Proof.Machine

namespace Sys2Proof.Machine

open Sys2Proof.Config

/-! ## A search that finds a match of 3 bytes or more -/

/-- R211: a Fast match comes from the search. -/
theorem fastSearch_eq_searchFrom {s : State} (hbefore : s.regs.matchLength.toNat ≤ 2)
    (hafter : 3 ≤ (fastSearch s).regs.matchLength.toNat) : fastSearch s = searchFrom s.regs.hashHead s := by
  by_cases runs : candidateInReach s = true ∧ s.cfg.strategy ≠ .huffmanOnly
  · exact fastSearch_of_runs runs.1 runs.2
  · rw [fastSearch_of_skips runs] at hafter
    omega

/-- R218: what the truncation leaves with 3 bytes or more it did not touch. -/
theorem truncate_eq_self {s : State} (h : 3 ≤ (truncate s).regs.matchLength.toNat) : truncate s = s := by
  rw [truncate] at h ⊢
  split at h
  case isTrue => exact absurd h (show ¬3 ≤ (2#9).toNat by decide)
  case isFalse hkept => exact if_neg hkept

/-- R216 to R218: and so does a Slow match, which the truncation has left alone. -/
theorem slowSearch_eq_searchFrom {s : State} (hbefore : s.regs.matchLength.toNat ≤ 2)
    (hafter : 3 ≤ (slowSearch s).regs.matchLength.toNat) : slowSearch s = searchFrom s.regs.hashHead s := by
  by_cases runs : candidateInReach s = true ∧ s.regs.prevLength.toNat < s.cfg.maxLazy.toNat
  · obtain ⟨hc, hlazy⟩ := runs
    by_cases hs : s.cfg.strategy = .huffmanOnly
    · obtain e | e := slowSearch_of_huffmanOnly hs <;> rw [e] at hafter
      · omega
      · rw [truncate_eq_self hafter] at hafter
        omega
    · rw [slowSearch_of_runs hc hlazy hs] at hafter ⊢
      exact truncate_eq_self hafter
  · rw [slowSearch_of_skips runs] at hafter
    omega

/-- R180, R184: a result above `prev_length` is a true match of the current position, at most 258 bytes long. -/
theorem searchFrom_matches {cur : Half} {s : State} (h : s.regs.prevLength.toNat < (searchFrom cur s).regs.matchLength.toNat) :
    (searchFrom cur s).regs.matchLength.toNat ≤ 258
      ∧ ∀ k, k < (searchFrom cur s).regs.matchLength.toNat →
        Memory.read s.window ((searchFrom cur s).regs.matchStart.toNat + k)
          = Memory.read s.window (s.regs.strstart.toNat + k) := by
  obtain ⟨-, hmax, found, -⟩ := longestMatchFindsATrueMatch cur s
  rw [searchFrom_matchLength_toNat] at h ⊢
  obtain ⟨agree, -⟩ := found h
  exact ⟨by omega, agree⟩

/-- D26: within 16 bits the distance leads back from the position to the start. -/
theorem add_sub16 {a b : Nat} (hb : 1 ≤ b) (hlt : b < a) (ha : a ≤ 65536) : b + sub16 a b = a := by
  rw [sub16, BitVec.toNat_sub, BitVec.toNat_ofNat, BitVec.toNat_ofNat]
  omega

/-- R212: the match a Fast iteration emits is the one its search found, and nothing after the search writes the window. -/
theorem fastEmit_matches {s : State} {len dist : Nat} (hlength : s.regs.matchLength.toNat ≤ 2)
    (hprev : s.regs.prevLength.toNat = 2) (htoken : (fastEmit (fastSearch s)).token = some (.backref len dist)) :
    ∃ start : Half, 3 ≤ len ∧ len ≤ 258 ∧ dist = sub16 s.regs.strstart.toNat start.toNat
      ∧ (fastEmit (fastSearch s)).state.window = s.window
      ∧ ∀ k, k < len → Memory.read s.window (s.regs.strstart.toNat + k) = Memory.read s.window (start.toNat + k) := by
  rcases Nat.lt_or_ge (fastSearch s).regs.matchLength.toNat 3 with hshort | hlong
  · rw [fastEmit_literal hshort] at htoken
    cases htoken
  · have search := fastSearch_eq_searchFrom hlength hlong
    rw [fastEmit_match hlong] at htoken ⊢
    rw [search] at hlong htoken ⊢
    obtain ⟨rfl, rfl⟩ := Token.backref.inj (Option.some.inj htoken)
    obtain ⟨hmax, found⟩ := searchFrom_matches (cur := s.regs.hashHead) (s := s) (by omega)
    exact ⟨_, hlong, hmax, rfl, by rw [fastAfterMatch_frame]; rfl, fun k hk => (found k hk).symm⟩

/-- Settles O50: a Fast match comes from its own search (`fastEmit_matches`), and the insertion before it keeps the window. -/
theorem fastMatchesReproduceTheInput : Obligations.FastMatchesReproduceTheInput := by
  intro f s len dist hlength hprev htoken
  have goes := topFillEnd_of_fastIter_token (by rw [htoken]; nofun)
  rw [fastIter_of_cont goes] at htoken ⊢
  obtain ⟨start, hmin, hmax, hdist, hwindow, found⟩ :=
    fastEmit_matches (by simpa using hlength) (by simpa using hprev) htoken
  rw [hwindow]
  simp only [insertCurrent_strstart, insertCurrent_window] at hdist found ⊢
  exact ⟨start, hmin, hmax, hdist, fun hpos hlt hfit => hdist ▸ add_sub16 hpos hlt hfit, found⟩

/-! ## The held match across a slide -/

section HeldMatch

variable {s : State} (hw : 9 ≤ s.cfg.wbits.toNat)
include hw

/-- R168: a slide moves `strstart` and `match_start` alike, so the 16-bit distance of the held match stays. -/
theorem slideIfDue_heldDistance : sub16 ((slideIfDue s).regs.strstart.toNat - 1) (slideIfDue s).regs.matchStart.toNat
    = sub16 (s.regs.strstart.toNat - 1) s.regs.matchStart.toNat := by
  rw [slideIfDue]
  split
  case isFalse => rfl
  case isTrue hd =>
    have hmin := le_windowSize hw
    have hstart := (slideDue_eq_true hw).1 hd
    have moved : BitVec.ofNat 16 (s.regs.strstart.toNat - windowSize s.cfg - 1)
        = BitVec.ofNat 16 (s.regs.strstart.toNat - 1) - BitVec.ofNat 16 (windowSize s.cfg) := by
      rw [eq_sub_iff_add_eq, ← BitVec.ofNat_add]
      exact congrArg (BitVec.ofNat 16) (by omega)
    rw [slide_strstart (by omega), slide_regs]
    simp only [sub16, BitVec.ofNat_toNat, BitVec.setWidth_eq]
    rw [moved, sub_sub_sub_cancel_right]

variable (hfit : windowFits s = true)
include hfit

theorem topFillState_heldDistance :
    sub16 ((topFillState s).regs.strstart.toNat - 1) (topFillState s).regs.matchStart.toNat
      = sub16 (s.regs.strstart.toNat - 1) s.regs.matchStart.toNat := by
  rw [topFillState]
  split
  · rw [fill_eq hw hfit]
    simpa only [takeInput_regs] using slideIfDue_heldDistance hw
  · rfl

/-- R54 item 1: `strstart` is within the window before TopFill, and a slide only moves it down. -/
theorem topFillState_strstart_le : (topFillState s).regs.strstart.toNat ≤ 65536 := by
  have fits : s.regs.strstart.toNat + s.regs.lookahead.toNat ≤ 2 * windowSize s.cfg := of_decide_eq_true hfit
  have hwin := windowSize_le s.cfg
  rw [topFillState]
  split
  · rw [fill_eq hw hfit, takeInput_strstart, slideIfDue_strstart hw]
    omega
  · omega

end HeldMatch

/-- R220, R228: a Slow iteration that ends with a match held found it in its own search, at the position that becomes the held one. -/
theorem heldMatchTrue_slowEmit {s : State} (hstart : s.regs.strstart.toNat ≤ 65536) (hlength : s.regs.matchLength.toNat ≤ 2)
    (hlong : 3 ≤ (slowEmit (slowSearch s)).state.regs.matchLength.toNat) :
    HeldMatchTrue (slowEmit (slowSearch s)).state := by
  by_cases emits : 3 ≤ (slowSearch s).regs.prevLength.toNat
      ∧ (slowSearch s).regs.matchLength.toNat ≤ (slowSearch s).regs.prevLength.toNat
  · rw [slowEmit_match emits.1 emits.2, slowAfterMatch_frame] at hlong
    exact absurd hlong (show ¬3 ≤ (2#9).toNat by decide)
  · have defers := slowEmit_defer (s := slowSearch s) (by omega)
    rw [defers] at hlong ⊢
    have search := slowSearch_eq_searchFrom hlength hlong
    have moved : (hold (advance 1 1 (slowSearch s))).regs.strstart.toNat = s.regs.strstart.toNat + 1 :=
      (advance_strstart (k := 1) (by rw [slowSearch_strstart]; omega)).trans (by rw [slowSearch_strstart])
    rw [slowSearch_prevLength] at emits
    rw [search] at hlong emits moved ⊢
    change 3 ≤ (searchFrom s.regs.hashHead s).regs.matchLength.toNat at hlong
    obtain ⟨-, found⟩ := searchFrom_matches (cur := s.regs.hashHead) (s := s) (by omega)
    intro k hk
    rw [moved, Nat.add_sub_cancel]
    exact found k hk

/-- R219: the match a Slow iteration emits is the one shifted into `prev_length` and `prev_match`. -/
theorem slowEmit_matches {s : State} {len dist : Nat} (h : (slowEmit (slowSearch s)).token = some (.backref len dist)) :
    len = s.regs.prevLength.toNat ∧ dist = sub16 (s.regs.strstart.toNat - 1) s.regs.prevMatch.toNat := by
  by_cases emits : 3 ≤ (slowSearch s).regs.prevLength.toNat
      ∧ (slowSearch s).regs.matchLength.toNat ≤ (slowSearch s).regs.prevLength.toNat
  · rw [slowEmit_match emits.1 emits.2] at h
    obtain ⟨rfl, rfl⟩ := Token.backref.inj (Option.some.inj h)
    simp
  · rw [slowEmit_defer (by omega)] at h
    split at h <;> cases h

/-- Settles O51: the held match comes from the iteration's own search (`heldMatchTrue_slowEmit`), and the emitted one is the match held
before (`slowEmit_matches`), whose distance a slide keeps (`topFillState_heldDistance`). -/
theorem slowMatchesReproduceTheInput : Obligations.SlowMatchesReproduceTheInput := by
  intro f s hw hfit
  refine ⟨fun hlong hend => ?held, fun len dist htoken => ?emitted⟩
  case held =>
    rw [slowIter_of_cont (topFillEnd_of_slowIter_cont hend)] at hlong ⊢
    refine heldMatchTrue_slowEmit ?_ (show (2#9).toNat ≤ 2 by decide) hlong
    simpa using topFillState_strstart_le hw hfit
  case emitted =>
    rw [slowIter_of_cont (topFillEnd_of_slowIter_token (by rw [htoken]; nofun))] at htoken
    rw [← topFillState_heldDistance hw hfit]
    simpa using slowEmit_matches htoken

end Sys2Proof.Machine

namespace Sys2Proof.Machine

open Sys2Proof.Config

/-! ## The internal fault (R250, R256) -/

/-- R250: an enabled step one of whose checks fails is an internal fault with the number of the first that fails. -/
theorem engineStep_of_firstBroken {s : State} {n : Nat} (he : enabled s = true)
    (h : firstBroken (wouldLeave s) (attempt s).token = some n) : engineStep s = internalFault n s := by
  rw [engineStep, if_pos he, commit]
  split
  · rename_i hnone
    rw [wouldLeave, hnone] at h
    cases h
  · rename_i m hsome
    rw [wouldLeave, hsome] at h
    rw [Option.some.inj h]

/-- Settles O53: each clause names the first check of `firstBroken` that fails. -/
theorem brokenInvariantRaisesInternalFault : Obligations.BrokenInvariantRaisesInternalFault := by
  intro s u he hu hs n h
  have first : firstBroken u (attempt s).token = some n := by
    unfold firstBroken
    obtain ⟨rfl, window⟩ | ⟨rfl, window, heads⟩ | ⟨rfl, window, heads, held⟩ | ⟨rfl, window, heads, held, lengths⟩
      | ⟨rfl, window, heads, held, lengths, fifos⟩ | ⟨rfl, window, heads, held, lengths, fifos, t, htoken, bounds⟩ := h
    · simp [hs, window]
    · simp [hs, window, heads]
    · simp [hs, window, heads, held]
    · simp [hs, window, heads, held, lengths]
    · simp [hs, window, heads, held, lengths, fifos]
    · obtain hbound | hhistory := bounds
      · simp [window, heads, held, lengths, fifos, htoken, hbound]
      · simp [window, heads, held, lengths, fifos, htoken, hhistory]
  rw [hu] at first
  exact engineStep_of_firstBroken he first

/-! ## FAULTED (R121, R145, R250) -/

/-- R121: no command is accepted in FAULTED. -/
theorem not_accepted_of_faulted {s t : State} (hs : s.session = .faulted) : ¬Accepted s t := by
  rintro (⟨_, _, _, h, -, -⟩ | ⟨_, h, -⟩ | ⟨_, h, -⟩ | ⟨h, -⟩ | ⟨h, -⟩)
  · exact (initAllowed_eq_true.1 h).2 hs
  · simp [hs] at h
  · simp [hs] at h
  · simp [hs] at h
  · simp [hs] at h

/-- R141: no byte is pushed in FAULTED. -/
theorem not_pushAllowed_of_faulted {s : State} (hs : s.session = .faulted) : ¬pushAllowed s = true := by
  simp [pushAllowed, hs]

/-- R245, R250: the record keeps its error, and `INT_STATUS.ERR` is up. -/
def KeepsFault (s t : State) : Prop := t.err.code = s.err.code ∧ t.err.info = s.err.info ∧ t.errFlag = true

theorem keepsFault_of_eq {s t : State} (herr : t.err = s.err) (hflag : t.errFlag = true) : KeepsFault s t :=
  ⟨by rw [herr], by rw [herr], hflag⟩

/-- R245: a usage error after another sets `MULTI` only. -/
theorem keepsFault_usageError (k : ErrKind) (info : Word) (w : Bool) (z : Size) (o : BitVec 12) {s : State}
    (h : s.err.code ≠ .none) : KeepsFault s (usageError k info w z o s) := by
  obtain e | e := keepsFirstError_usageError k info w z o s h
  · exact keepsFault_of_eq e rfl
  · exact ⟨by rw [e], by rw [e], rfl⟩

theorem CommandOutcome.keepsFault {s t : State} (h : CommandOutcome s t) (hs : s.session = .faulted)
    (herr : s.err.code ≠ .none) (hflag : s.errFlag = true) : KeepsFault s t := by
  obtain rfl | ⟨k, v, rfl⟩ | ⟨-, ha⟩ := h
  · exact keepsFault_of_eq rfl hflag
  · exact keepsFault_usageError _ _ _ _ _ herr
  · exact absurd ha (not_accepted_of_faulted hs)

/-- R145, R245, R250: no access clears the record of an internal fault. -/
theorem exec_keepsFault {i : Instr} {s t : State} (hx : exec i s = .next t) (hs : s.session = .faulted)
    (herr : s.err.code ≠ .none) (hflag : s.errFlag = true) : KeepsFault s t := by
  by_cases hc : commandRow i = true
  · exact (command_cases hc hx).keepsFault hs herr hflag
  · cases i with
    | push v =>
      obtain ⟨k, rfl⟩ | ⟨hpush, -, -⟩ := push_cases hx
      · exact keepsFault_usageError _ _ _ _ _ herr
      · exact absurd hpush (not_pushAllowed_of_faulted hs)
    | pop => obtain rfl := Host.Outcome.next.inj hx; exact keepsFault_of_eq rfl hflag
    | rd offset => obtain rfl := Host.Outcome.next.inj hx; exact keepsFault_of_eq rfl hflag
    | wrIntEnable v => obtain rfl := Host.Outcome.next.inj hx; exact keepsFault_of_eq rfl hflag
    | wrIntStatus v =>
      obtain rfl := Host.Outcome.next.inj hx
      exact keepsFault_of_eq (by simp [hs]) (by simp [hs, hflag])
    | badAccess w z o v => obtain rfl := Host.Outcome.next.inj hx; exact keepsFault_usageError _ _ _ _ _ herr
    | _ => exact absurd rfl hc

/-- R141: in FAULTED no access writes the input FIFO. -/
theorem exec_inFifo_of_faulted {i : Instr} {s t : State} (hx : exec i s = .next t) (hs : s.session = .faulted) :
    t.inFifo = s.inFifo := by
  by_cases hpush : ∃ v, i = .push v
  · obtain ⟨v, rfl⟩ := hpush
    obtain ⟨k, rfl⟩ | ⟨hallowed, -, -⟩ := push_cases hx
    · rfl
    · exact absurd hallowed (not_pushAllowed_of_faulted hs)
  · exact (exec_frame hx).inFifo fun v e => hpush ⟨v, e⟩

/-- What stays for inspection in FAULTED, and all that can happen to the tokens (R250). -/
structure StaysFrozen (s t : State) : Prop where
  frozen : Frozen t
  regs : t.regs = s.regs
  cfg : t.cfg = s.cfg
  info : t.err.info = s.err.info
  inFifo : t.inFifo = s.inFifo
  window : t.window = s.window
  head : t.head = s.head
  prev : t.prev = s.prev
  tokFifo : t.tokFifo = s.tokFifo ∨ t.tokFifo = s.tokFifo.tail

/-- R250: an access in FAULTED is no accepted command, and clears nothing but `DONE`. -/
theorem Frozen.exec {i : Instr} {s t : State} (h : Frozen s) (hx : exec i s = .next t) : StaysFrozen s t := by
  obtain ⟨hs, hp, hb, hcode, hflag⟩ := h
  have hk : KeepsEngine s t := (exec_cases hx).resolve_right fun ⟨_, ha⟩ => not_accepted_of_faulted hs ha
  obtain ⟨code, info, flag⟩ := exec_keepsFault hx hs (by simp [hcode]) hflag
  have engine := (exec_frame hx).engine
  simp only [engineView, Prod.mk.injEq] at engine
  obtain ⟨window, head, prev, -⟩ := engine
  exact ⟨⟨hk.session.trans hs, hk.phase.trans hp, hk.busy.trans hb, code.trans hcode, flag⟩, hk.regs, hk.cfg, info,
    exec_inFifo_of_faulted hx hs, window, head, prev, hk.tokFifo⟩

/-- R280: FAULTED enables no engine step. -/
theorem Frozen.engineStep {s : State} (h : Frozen s) : engineStep s = s := by
  obtain ⟨-, hp, -, -, -⟩ := h
  have off : ¬enabled s = true := by simp [enabled_iff, hp]
  exact if_neg off

theorem Frozen.staysFrozen_of_step {s t : State} (h : Frozen s) (hstep : step s = .next t)
    (hno : ∀ rest, s.schedule ≠ .hardReset :: rest) : StaysFrozen s t := by
  have turn : ∀ rest, Frozen { s with schedule := rest } := fun _ => h
  obtain ⟨-, ⟨-, rfl⟩ | ⟨rest, -, rfl⟩ | ⟨rest, e, -⟩ | ⟨a, rest, i, -, -, hx⟩⟩ := step_cases hstep
  · rw [h.engineStep]
    exact ⟨h, rfl, rfl, rfl, rfl, rfl, rfl, rfl, .inl rfl⟩
  · rw [(turn rest).engineStep]
    exact ⟨h, rfl, rfl, rfl, rfl, rfl, rfl, rfl, .inl rfl⟩
  · exact absurd e (hno rest)
  · obtain ⟨frozen, regs, cfg, info, inFifo, window, head, prev, tokFifo⟩ := (turn rest).exec hx
    exact ⟨frozen, regs, cfg, info, inFifo, window, head, prev, tokFifo⟩

/-- Settles O54: the engine has no step in FAULTED, and no access is accepted or clears the record (`Frozen.exec`). -/
theorem faultedIsLeftOnlyByHardwareReset : Obligations.FaultedIsLeftOnlyByHardwareReset := by
  intro s t h hstep hno
  obtain ⟨frozen, regs, cfg, info, inFifo, window, head, prev, tokFifo⟩ := h.staysFrozen_of_step hstep hno
  exact ⟨frozen, regs, cfg, info, inFifo, fun _ => by rw [window], fun _ => by rw [head], fun _ => by rw [prev], tokFifo⟩

end Sys2Proof.Machine

namespace Sys2Proof.Machine.Memory

variable {w : Nat}

/-- The canonical form lists no 0. -/
theorem ne_zero_of_mem_from {e : Nat × BitVec w} : ∀ {lo : Nat} {m : Cells w}, wfFrom lo m = true → e ∈ m → e.2 ≠ 0#w
  | lo, (k, v) :: rest, hm, he => by
    simp only [wfFrom, Bool.and_eq_true, decide_eq_true_eq] at hm
    obtain ⟨⟨-, hv⟩, hrest⟩ := hm
    obtain rfl | hmem := List.mem_cons.1 he
    · exact hv
    · exact ne_zero_of_mem_from hrest hmem

theorem ne_zero_of_mem {e : Nat × BitVec w} {m : Cells w} (hm : wf m = true) (he : e ∈ m) : e.2 ≠ 0#w :=
  ne_zero_of_mem_from hm he

end Sys2Proof.Machine.Memory

namespace Sys2Proof.Machine

open Sys2Proof.Config

/-! ## The chains hold inserted positions only (R162, R170) -/

/-- R162, R170: the chains over a set `L` of inserted positions, each at `lo` or above and below `top`: every head is `NIL` or
one of them, and so is the link of every position whose prev entry no later one has taken, which leads to a smaller position.
What the prev table holds at other indexes, from a draw, a dead chain or before a Full flush, no chain reaches. -/
structure ChainsOver (L : Nat → Prop) (lo : Int) (top : Nat) (W : Nat) (head prev : Cells 16) : Prop where
  lower : ∀ p, L p → lo ≤ p
  upper : ∀ p, L p → p < top
  head : ∀ h, Memory.read head h ≠ 0#16 → L (Memory.read head h).toNat
  link : ∀ p, L p → top ≤ p + W → Memory.read prev (p % W) ≠ 0#16 →
    L (Memory.read prev (p % W)).toNat ∧ (Memory.read prev (p % W)).toNat < p

/-- R226 (log 21): the first position of the session's history: `strstart` less the bytes counted. -/
def historyStart (s : State) : Int := (s.regs.strstart.toNat : Int) - s.history

/-- An empty head table reaches no position (R124, R224). -/
theorem chainsOver_none (lo : Int) (top W : Nat) (prev : Cells 16) : ChainsOver (fun _ => False) lo top W [] prev :=
  ⟨nofun, nofun, fun _ h => absurd rfl h, nofun⟩

theorem ChainsOver.mono {L : Nat → Prop} {lo : Int} {top top' W : Nat} {head prev : Cells 16}
    (h : ChainsOver L lo top W head prev) (hle : top ≤ top') : ChainsOver L lo top' W head prev :=
  ⟨h.lower, fun p hp => (h.upper p hp).trans_le hle, h.head, fun p hp hw => h.link p hp (hle.trans hw)⟩

/-- R54 item 2: the heads of a canonical table are positions of the chains. -/
theorem ChainsOver.head_lt_of_mem {L : Nat → Prop} {lo : Int} {top W : Nat} {head prev : Cells 16}
    (h : ChainsOver L lo top W head prev) (hm : Memory.wf head = true) {e : Nat × Half} (he : e ∈ head) (hne : e.2 ≠ 0#16) :
    e.2.toNat < top := by
  rw [← Memory.read_eq_of_mem hm he] at hne ⊢
  exact h.upper _ (h.head _ hne)

/-- No two positions less than `W` apart share a prev entry (R170). -/
theorem mod_ne_mod_of_lt {p q W : Nat} (hlt : p < q) (hnear : q < p + W) : q % W ≠ p % W := by
  intro e
  have hdvd : W ∣ q - p := (Nat.modEq_iff_dvd' hlt.le).1 e.symm
  have := Nat.le_of_dvd (by omega) hdvd
  omega

/-- R162: insertions of the positions `a` to `b - 1`, none below `top`, add them to the chains. -/
theorem ChainsOver.inserted {L : Nat → Prop} {lo : Int} {top top' a b : Nat} {s t : State}
    (h : ChainsOver L lo top (windowSize s.cfg) s.head s.prev) (i : Inserted s t a b) (hcfg : t.cfg = s.cfg) (hlo : lo ≤ a)
    (hta : top ≤ a) (htop : top ≤ top') (hb : b ≤ top') :
    ChainsOver (fun p => L p ∨ (a ≤ p ∧ p < b)) lo top' (windowSize t.cfg) t.head t.prev := by
  have hW : 2 ^ t.cfg.wbits.toNat = windowSize t.cfg := rfl
  refine ⟨fun p hp => ?lower, fun p hp => ?upper, fun k hk => ?head, fun p hp hnear hne => ?link⟩
  case lower =>
    obtain hold | ⟨ha, -⟩ := hp
    · exact h.lower p hold
    · omega
  case upper =>
    obtain hold | ⟨-, hb⟩ := hp
    · exact (h.upper p hold).trans_le htop
    · omega
  case head =>
    obtain e | hnew := i.head_eq_or k
    · rw [e] at hk ⊢
      exact .inl (h.head k hk)
    · exact .inr hnew
  case link =>
    obtain hold | ⟨hpa, hpb⟩ := hp
    · have hpt := h.upper p hold
      have other := i.prevOther (p % windowSize t.cfg) fun q hqa hqb => mod_ne_mod_of_lt (by omega) (by rw [hW]; omega)
      rw [other, hcfg] at hne ⊢
      rw [hcfg] at hnear
      obtain ⟨hL, hlt⟩ := h.link p hold (htop.trans hnear) hne
      exact ⟨.inl hL, hlt⟩
    · by_cases later : ∃ q, a ≤ q ∧ q < p ∧ hashAt t.window q = hashAt t.window p
      · obtain ⟨q, hqa, hqp, hash⟩ := later
        obtain ⟨hle, hlt, -⟩ := i.prevLast p q hqa hqp hpb hash
        rw [hW] at hle hlt
        exact ⟨.inr ⟨by omega, by omega⟩, hlt⟩
      · have first := i.prevFirst p hpa hpb fun q hqa hqp e => later ⟨q, hqa, hqp, e⟩
        rw [hW] at first
        rw [first] at hne ⊢
        have hL := h.head _ hne
        exact ⟨.inl hL, (h.upper _ hL).trans_le (hta.trans hpa)⟩

/-- R167: a slide moves the chains down by `W` and drops the positions up to `W`. -/
theorem ChainsOver.rebase {L : Nat → Prop} {lo : Int} {top W : Nat} {head prev : Cells 16}
    (h : ChainsOver L lo top W head prev) (hhead : Memory.wf head = true) (hprev : Memory.wf prev = true) :
    ChainsOver (fun p => L (p + W) ∧ 0 < p) (lo - W) (top - W) W (Memory.rebase W head) (Memory.rebase W prev) := by
  have back : ∀ x : Half, Memory.rebasePos W x ≠ 0#16 →
      x ≠ 0#16 ∧ (Memory.rebasePos W x).toNat + W = x.toNat ∧ 0 < (Memory.rebasePos W x).toNat := by
    intro x hx
    have hne : (Memory.rebasePos W x).toNat ≠ 0 := fun e => hx (BitVec.eq_of_toNat_eq e)
    have hval := Memory.toNat_rebasePos W x
    exact ⟨by rintro rfl; exact hx Memory.rebasePos_zero, by omega, by omega⟩
  refine ⟨fun p hp => ?lower, fun p hp => ?upper, fun k hk => ?head, fun p hp hnear hne => ?link⟩
  case lower =>
    have := h.lower _ hp.1
    omega
  case upper =>
    have := h.upper _ hp.1
    omega
  case head =>
    rw [Memory.read_rebase W k hhead] at hk ⊢
    obtain ⟨hne, hsum, hpos⟩ := back _ hk
    exact ⟨hsum ▸ h.head k hne, hpos⟩
  case link =>
    rw [Memory.read_rebase W _ hprev, ← Nat.add_mod_right p W] at hne ⊢
    obtain ⟨hold, hsum, hpos⟩ := back _ hne
    obtain ⟨hL, hlt⟩ := h.link _ hp.1 (by omega) hold
    exact ⟨⟨hsum ▸ hL, hpos⟩, by omega⟩

/-! ## What a session keeps -/

/-- R226: a match at `pos` with `bytes` bytes before it may start at `start`: the 16-bit distance (D26, log 19) is at least 1,
at most `MAX_DIST`, and reaches none but those bytes. -/
def InReach (c : SessionConfig) (bytes pos : Nat) (start : Half) : Prop :=
  1 ≤ sub16 pos start.toNat ∧ sub16 pos start.toNat ≤ maxDist c ∧ sub16 pos start.toNat ≤ bytes

/-- R54, R226: the invariants of an open session, with what keeps them: chains of inserted positions in the history, and a match
held between two iterations (by the Slow flavour only) that the position before `strstart` may use. -/
structure StreamOk (s : State) : Prop where
  window : s.regs.strstart.toNat + s.regs.lookahead.toNat ≤ 2 * windowSize s.cfg
  chains : ∃ L, ChainsOver L (historyStart s) s.regs.strstart.toNat (windowSize s.cfg) s.head s.prev
  heldByte : s.regs.matchAvailable = true → s.cfg.flavour = .slow ∧ 1 ≤ s.regs.strstart.toNat
  lengths : s.regs.prevLength.toNat ≤ 258 ∧ s.regs.matchLength.toNat ≤ 258
  notSlow : s.cfg.flavour ≠ .slow → s.regs.prevLength.toNat ≤ 2 ∧ s.regs.matchLength.toNat ≤ 2
  heldMatch : 3 ≤ s.regs.matchLength.toNat → s.regs.matchLength.toNat ≤ s.regs.lookahead.toNat + 1
    ∧ InReach s.cfg (s.history - 1) (s.regs.strstart.toNat - 1) s.regs.matchStart

/-- R124: a cleared session keeps all of it. -/
theorem streamOk_of_cleared {t : State} (hr : t.regs = EngineRegs.cleared) (hh : t.head = []) : StreamOk t := by
  refine ⟨?_, ?chains, ?_, ?_, fun _ => ?_, ?_⟩
  case chains => rw [hh]; exact ⟨_, chainsOver_none _ _ _ _⟩
  all_goals simp [hr, EngineRegs.cleared]

/-- R54 in terms of `StreamOk`. -/
theorem StreamOk.specInvariants {s : State} (h : StreamOk s) (hm : MemoriesWf s) (hf : fifosFit s = true) :
    SpecInvariants s := by
  obtain ⟨window, ⟨L, chains⟩, heldByte, ⟨prevLength, matchLength⟩, -, -⟩ := h
  obtain ⟨-, head, -⟩ := hm
  refine ⟨fun _ => ⟨decide_eq_true window, List.all_eq_true.2 fun e he => decide_eq_true ?heads, ?held, ?lengths⟩, hf⟩
  case heads => exact chains.head_lt_of_mem head he (Memory.ne_zero_of_mem head he)
  case held => cases e : s.regs.matchAvailable <;> simp_all [heldByteOk]
  case lengths => simp [lengthsOk, prevLength, matchLength]

/-! ## FILL keeps it -/

section Fill

variable {s : State} (h : StreamOk s) (hm : MemoriesWf s) (hw : 9 ≤ s.cfg.wbits.toNat)
include h hm hw

/-- R167, R168: a slide moves every position alike. -/
theorem streamOk_slide (hd : slideDue s = true) : StreamOk (slide s) := by
  obtain ⟨window, ⟨L, chains⟩, heldByte, lengths, notSlow, heldMatch⟩ := h
  obtain ⟨-, head, prev⟩ := hm
  have hmin := le_windowSize hw
  have hstart := (slideDue_eq_true hw).1 hd
  have moved : (slide s).regs.strstart.toNat = s.regs.strstart.toNat - windowSize s.cfg := slide_strstart (by omega)
  have hdist := slideIfDue_heldDistance hw
  rw [slideIfDue, if_pos hd] at hdist
  refine ⟨?window, ?chains, fun hheld => ⟨(heldByte hheld).1, ?byte⟩, lengths, notSlow, fun hlong => ?held⟩
  case window =>
    change (slide s).regs.strstart.toNat + s.regs.lookahead.toNat ≤ 2 * windowSize s.cfg
    omega
  case chains =>
    have rebased := chains.rebase head prev
    rw [← moved] at rebased
    have base : historyStart (slide s) = historyStart s - windowSize s.cfg := by
      simp only [historyStart, moved, slide_history]
      omega
    rw [base]
    exact ⟨_, rebased⟩
  case byte => omega
  case held =>
    rw [InReach, hdist]
    exact heldMatch hlong

theorem streamOk_slideIfDue : StreamOk (slideIfDue s) := by
  rw [slideIfDue]
  split
  · exact streamOk_slide h hm hw ‹_›
  · exact h

omit hm hw in
/-- R166: bytes taken into the room after the lookahead. -/
theorem streamOk_takeInput {n : Nat} (hroom : s.regs.strstart.toNat + s.regs.lookahead.toNat + n ≤ 2 * windowSize s.cfg) :
    StreamOk (takeInput n s) := by
  obtain ⟨window, chains, heldByte, lengths, notSlow, heldMatch⟩ := h
  have hwin := windowSize_le s.cfg
  have look : (takeInput n s).regs.lookahead.toNat = s.regs.lookahead.toNat + n := by
    rw [takeInput_regs, BitVec.toNat_add, BitVec.toNat_ofNat]
    omega
  refine ⟨?_, chains, heldByte, lengths, notSlow, fun hlong => ?_⟩
  · rw [look, ← Nat.add_assoc]
    exact hroom
  · obtain ⟨span, reach⟩ := heldMatch hlong
    rw [look]
    exact ⟨span.trans (by omega), reach⟩

theorem streamOk_fill : StreamOk (fill s) := by
  have hfit : windowFits s = true := decide_eq_true h.window
  obtain ⟨full, -⟩ := strstart_add_room hw hfit
  rw [fill_eq hw hfit]
  refine streamOk_takeInput (streamOk_slideIfDue h hm hw) ?_
  rw [slideIfDue_lookahead, slideIfDue_cfg]
  omega

theorem streamOk_topFillState : StreamOk (topFillState s) := by
  rw [topFillState]
  split
  · exact streamOk_fill h hm hw
  · exact h

theorem streamOk_storeTopState : StreamOk (storeTopState s) := by
  rw [storeTopState]
  split
  · exact streamOk_fill h hm hw
  · exact h

end Fill

/-! ## The search stays in the history (R180, R181) -/

/-- R210, R215: the chains with the current position inserted, if it has 3 bytes; then `hash_head`, the candidate of the search,
is one of the earlier positions. With fewer bytes it may be a stale one (log 22), whose search finds less than 3 bytes. -/
def CurrentInserted (s : State) : Prop :=
  ∃ L, ChainsOver L (historyStart s) (s.regs.strstart.toNat + 1) (windowSize s.cfg) s.head s.prev
    ∧ (3 ≤ s.regs.lookahead.toNat → s.regs.hashHead ≠ 0#16 →
      L s.regs.hashHead.toNat ∧ s.regs.hashHead.toNat < s.regs.strstart.toNat)

/-- R162, R210, R215: `InsertString` of the current position answers with a head from before it. -/
theorem currentInserted_insertCurrent {s : State} (h : StreamOk s) (hm : MemoriesWf s) : CurrentInserted (insertCurrent s) := by
  have hwin := windowSize_le s.cfg
  have window := h.window
  obtain ⟨L, chains⟩ := h.chains
  rw [insertCurrent]
  split
  case isTrue hlong =>
    have hlong' : 3 ≤ s.regs.lookahead.toNat := hlong
    have one : Inserted s (insertHashHead s.regs.strstart.toNat s) s.regs.strstart.toNat (s.regs.strstart.toNat + 1) :=
      ((inserted_none (s := s) (t := s) _ rfl rfl).insertString hm (Nat.le_refl _)
        (Nat.add_le_add_left (Nat.one_le_two_pow) _) (by omega)).congr rfl rfl rfl rfl
    refine ⟨_, chains.inserted one rfl (by simp only [historyStart]; omega) (Nat.le_refl _) (Nat.le_succ _) (Nat.le_refl _),
      fun _ hne => ?_⟩
    have old := chains.head _ hne
    exact ⟨.inl old, chains.upper _ old⟩
  case isFalse hshort => exact ⟨L, chains.mono (Nat.le_succ _), fun hlong => absurd hlong hshort⟩

/-- D26: within 16 bits the distance back to an earlier position is the plain one. -/
theorem sub16_eq_sub {a b : Nat} (hb : 1 ≤ b) (hlt : b < a) (ha : a ≤ 65536) : sub16 a b = a - b := by
  have := add_sub16 hb hlt ha
  omega

/-- R180, R181: every candidate the walk reaches is an inserted position within `MAX_DIST`. -/
theorem candidate_inserted {cur : Half} {s : State} {L : Nat → Prop} {lo : Int} {n : Nat} (hw : 9 ≤ s.cfg.wbits.toNat)
    (chains : ChainsOver L lo (s.regs.strstart.toNat + 1) (windowSize s.cfg) s.head s.prev)
    (hcur : L cur.toNat ∧ 1 ≤ cur.toNat ∧ cur.toNat < s.regs.strstart.toNat
      ∧ s.regs.strstart.toNat ≤ cur.toNat + maxDist s.cfg)
    (before : ∀ i, i < n → GoesOn cur s i) (j : Nat) (hj : j ≤ n) :
    L (candidate cur s j).toNat ∧ 1 ≤ (candidate cur s j).toNat ∧ (candidate cur s j).toNat < s.regs.strstart.toNat
      ∧ s.regs.strstart.toNat ≤ (candidate cur s j).toNat + maxDist s.cfg := by
  induction j with
  | zero => exact hcur
  | succ j ih =>
    obtain ⟨hL, -, hlt, hnear⟩ := ih (by omega)
    obtain ⟨above, -⟩ := before j hj
    have hmin := le_windowSize hw
    have hdist : maxDist s.cfg = windowSize s.cfg - 262 := rfl
    have hne : Memory.read s.prev ((candidate cur s j).toNat % windowSize s.cfg) ≠ 0#16 := fun e => by
      have zero : candidate cur s (j + 1) = 0#16 := e
      rw [zero] at above
      exact absurd above (Nat.not_lt_zero _)
    obtain ⟨hL', hlt'⟩ := chains.link _ hL (by omega) hne
    have next : Memory.read s.prev ((candidate cur s j).toNat % windowSize s.cfg) = candidate cur s (j + 1) := rfl
    rw [next] at hL' hlt'
    exact ⟨hL', by omega, by omega, by omega⟩

/-- R211, R219: a match found at the current position: no longer than the lookahead and from a start in the history. -/
def FoundMatch (s : State) : Prop :=
  s.regs.matchLength.toNat ≤ s.regs.lookahead.toNat ∧ s.regs.matchLength.toNat ≤ 258
    ∧ InReach s.cfg s.history s.regs.strstart.toNat s.regs.matchStart

/-- R180, R181, R187: a search that beats `prev_length` with 3 bytes or more has found a match in the history. -/
theorem foundMatch_searchFrom {s : State} (h : CurrentInserted s) (hw : 9 ≤ s.cfg.wbits.toNat)
    (hstart : s.regs.strstart.toNat ≤ 65536) (hc : candidateInReach s = true)
    (hlong : 3 ≤ (searchFrom s.regs.hashHead s).regs.matchLength.toNat)
    (hbeats : s.regs.prevLength.toNat < (searchFrom s.regs.hashHead s).regs.matchLength.toNat) :
    FoundMatch (searchFrom s.regs.hashHead s) := by
  obtain ⟨L, chains, candidates⟩ := h
  obtain ⟨hne, hnear⟩ := candidateInReach_eq_true.1 hc
  have hlen := searchFrom_matchLength_toNat s.regs.hashHead s
  have hmax := longestMatch_le_258_or s.regs.hashHead s
  have hclamp := longestMatch_eq s.regs.hashHead s
  obtain ⟨hL, hlt⟩ := candidates (by omega) hne
  have hpos : 1 ≤ s.regs.hashHead.toNat := Nat.one_le_iff_ne_zero.2 fun e => hne (BitVec.eq_of_toNat_eq e)
  rw [sub16_eq_sub hpos hlt hstart] at hnear
  obtain ⟨n, -, before, -, best⟩ := exists_searchBest_eq s.regs.hashHead s
  obtain ⟨j, hj, -, -, hfound, -⟩ | ⟨-, -, hnone⟩ := search_result best
  · obtain ⟨hLj, hposj, hltj, hnearj⟩ := candidate_inserted hw chains ⟨hL, hpos, hlt, by omega⟩ before j hj
    have hlower := chains.lower _ hLj
    rw [historyStart] at hlower
    refine ⟨by rw [hlen]; exact hclamp ▸ Nat.min_le_right _ _, by omega, ?_⟩
    rw [InReach, hfound]
    change 1 ≤ sub16 s.regs.strstart.toNat _ ∧ sub16 s.regs.strstart.toNat _ ≤ maxDist s.cfg
      ∧ sub16 s.regs.strstart.toNat _ ≤ s.history
    rw [sub16_eq_sub hposj hltj hstart]
    omega
  · omega

/-! ## The emission of an iteration -/

/-- What an iteration that encodes a byte has before its emission, whatever its flavour. -/
structure Encoding (s : State) : Prop where
  memories : MemoriesWf s
  wbits : 9 ≤ s.cfg.wbits.toNat
  window : s.regs.strstart.toNat + s.regs.lookahead.toNat ≤ 2 * windowSize s.cfg
  byte : 1 ≤ s.regs.lookahead.toNat
  chains : ∃ L, ChainsOver L (historyStart s) (s.regs.strstart.toNat + 1) (windowSize s.cfg) s.head s.prev
  heldByte : s.regs.matchAvailable = true → s.cfg.flavour = .slow ∧ 1 ≤ s.regs.strstart.toNat
  lengths : s.regs.prevLength.toNat ≤ 258 ∧ s.regs.matchLength.toNat ≤ 258
  found : 3 ≤ s.regs.matchLength.toNat → s.regs.prevLength.toNat < s.regs.matchLength.toNat → FoundMatch s

/-- R203, R226: an iteration leaves a good session, and its token is in all three bounds. -/
def IterOk (r : IterResult) : Prop :=
  StreamOk r.state ∧ ∀ t, r.token = some t → tokenInBounds r.state.cfg t = true ∧ tokenInHistory r.state.history t = true

theorem tokenInBounds_of_inReach {c : SessionConfig} {bytes pos history len : Nat} {start : Half} (h : InReach c bytes pos start)
    (hmin : 3 ≤ len) (hmax : len ≤ 258) (hhist : bytes + len ≤ history) :
    tokenInBounds c (.backref len (sub16 pos start.toNat)) = true
      ∧ tokenInHistory history (.backref len (sub16 pos start.toNat)) = true := by
  obtain ⟨hpos, hnear, hbytes⟩ := h
  simp only [tokenInBounds, tokenInHistory, minMatch, maxMatch, Bool.and_eq_true, decide_eq_true_eq]
  omega

/-- R221: the position just passed is held. -/
theorem streamOk_hold {t : State} (ht : StreamOk t) (hflavour : t.cfg.flavour = .slow) (hstart : 1 ≤ t.regs.strstart.toNat) :
    StreamOk (hold t) :=
  ⟨ht.window, ht.chains, fun _ => ⟨hflavour, hstart⟩, ht.lengths, ht.notSlow, ht.heldMatch⟩

section Emission

variable {s : State} (h : Encoding s)
include h

theorem Encoding.fits : s.regs.strstart.toNat + s.regs.lookahead.toNat ≤ 65536 := by
  have hwin := windowSize_le s.cfg
  have := h.window
  omega

/-- R206, R212, R220, R221: a literal, emitted or held, moves on by one position, and a match found there is held. -/
theorem Encoding.streamOk_advance_one
    (hslow : s.cfg.flavour ≠ .slow → s.regs.prevLength.toNat ≤ 2 ∧ s.regs.matchLength.toNat ≤ 2)
    (hfound : 3 ≤ s.regs.matchLength.toNat → FoundMatch s) : StreamOk (advance 1 1 s) := by
  have fits := h.fits
  have byte := h.byte
  have window := h.window
  have start : (advance 1 1 s).regs.strstart.toNat = s.regs.strstart.toNat + 1 := advance_strstart (by omega)
  have look : (advance 1 1 s).regs.lookahead.toNat = s.regs.lookahead.toNat - 1 := advance_lookahead 1 byte
  refine ⟨?_, ?_, fun held => ⟨(h.heldByte held).1, by omega⟩, h.lengths, hslow, fun hlong => ?_⟩
  · rw [start, look, advance_cfg]
    omega
  · rw [historyStart, start, advance_history, Nat.cast_add, Nat.cast_add, add_sub_add_right_eq_sub]
    exact h.chains
  · obtain ⟨hle, -, reach⟩ := hfound hlong
    rw [start, look]
    exact ⟨hle.trans (by omega), reach⟩

/-- R213: after a Fast match the chains hold the inserted part of its span. -/
theorem Encoding.chains_fastAfterMatch (hlen : 3 ≤ s.regs.matchLength.toNat)
    (hle : s.regs.matchLength.toNat ≤ s.regs.lookahead.toNat) :
    ∃ L, ChainsOver L (historyStart s) (s.regs.strstart.toNat + s.regs.matchLength.toNat) (windowSize s.cfg)
      (fastAfterMatch s).head (fastAfterMatch s).prev := by
  obtain ⟨L, chains⟩ := h.chains
  by_cases short : s.regs.matchLength.toNat ≤ s.cfg.maxLazy.toNat
    ∧ s.regs.matchLength.toNat + 3 ≤ s.regs.lookahead.toNat
  · obtain ⟨hlazy, hleft⟩ := short
    have span := inserted_fastAfterMatch h.memories h.wbits h.fits hlen hlazy hleft
    have cfg := (keepsControl_fastAfterMatch s).cfg
    have after := chains.inserted span cfg (by simp only [historyStart]; omega) (Nat.le_refl _) (by omega) (Nat.le_refl _)
    rw [cfg] at after
    exact ⟨_, after⟩
  · rw [fastAfterMatch_skipped hle (by omega)]
    exact ⟨L, chains.mono (by omega)⟩

/-- R213: the end of a Fast match leaves `match_length` 0 and its span behind. -/
theorem Encoding.streamOk_fastAfterMatch (hprev : s.regs.prevLength.toNat ≤ 2) (hlong : 3 ≤ s.regs.matchLength.toNat)
    (hle : s.regs.matchLength.toNat ≤ s.regs.lookahead.toNat) : StreamOk (fastAfterMatch s) := by
  have fits := h.fits
  have window := h.window
  have start := fastAfterMatch_strstart hlong (by omega)
  have look := fastAfterMatch_lookahead hle
  have chains := h.chains_fastAfterMatch hlong hle
  have frame := fastAfterMatch_frame s
  have cfg : (fastAfterMatch s).cfg = s.cfg := (keepsControl_fastAfterMatch s).cfg
  have history : (fastAfterMatch s).history = s.history + s.regs.matchLength.toNat := by rw [frame]
  have matchLength : (fastAfterMatch s).regs.matchLength = 0 := by rw [frame]
  have prevLength : (fastAfterMatch s).regs.prevLength = s.regs.prevLength := by rw [frame]
  have held : (fastAfterMatch s).regs.matchAvailable = s.regs.matchAvailable := by rw [frame]
  refine ⟨?_, ?_, fun e => ?_, ?_, fun _ => ?_, fun e => ?_⟩
  · rw [start, look, cfg]
    omega
  · rw [historyStart, start, history, Nat.cast_add, Nat.cast_add, add_sub_add_right_eq_sub, cfg]
    exact chains
  · rw [held] at e
    rw [cfg, start]
    exact ⟨(h.heldByte e).1, by omega⟩
  · rw [matchLength, prevLength]
    exact ⟨h.lengths.1, Nat.zero_le _⟩
  · rw [matchLength, prevLength]
    exact ⟨hprev, Nat.zero_le _⟩
  · rw [matchLength] at e
    exact absurd e (Nat.not_succ_le_zero 2)

/-- R210, R212, R213: a Fast emission. -/
theorem Encoding.iterOk_fastEmit (hprev : s.regs.prevLength.toNat ≤ 2) : IterOk (fastEmit s) := by
  rcases Nat.lt_or_ge s.regs.matchLength.toNat 3 with hshort | hlong
  · rw [fastEmit_literal hshort]
    refine ⟨h.streamOk_advance_one (fun _ => ⟨hprev, Nat.le_of_lt_succ hshort⟩) (by omega), fun t e => ?_⟩
    obtain rfl := Option.some.inj e
    exact ⟨rfl, rfl⟩
  · obtain ⟨hle, hmax, reach⟩ := h.found hlong (by omega)
    rw [fastEmit_match hlong]
    refine ⟨h.streamOk_fastAfterMatch hprev hlong hle, fun t e => ?_⟩
    obtain rfl := Option.some.inj e
    rw [fastAfterMatch_frame]
    exact tokenInBounds_of_inReach reach hlong hmax (Nat.le_refl _)

/-! ## The emission of the Slow flavour -/

/-- R219: the end of a Slow match leaves no match and no byte held, and its span behind. -/
theorem Encoding.streamOk_slowAfterMatch (hflavour : s.cfg.flavour = .slow) (hlong : 3 ≤ s.regs.prevLength.toNat)
    (hspan : s.regs.prevLength.toNat ≤ s.regs.lookahead.toNat + 1) : StreamOk (slowAfterMatch s) := by
  have fits := h.fits
  have window := h.window
  obtain ⟨L, chains⟩ := h.chains
  have start := slowAfterMatch_strstart hlong (by omega)
  have look := slowAfterMatch_lookahead (s := s) (by omega)
  have frame := slowAfterMatch_frame s
  have cfg : (slowAfterMatch s).cfg = s.cfg := (keepsControl_slowAfterMatch s).cfg
  have history : (slowAfterMatch s).history = s.history + (s.regs.prevLength.toNat - 1) := by rw [frame]
  have matchLength : (slowAfterMatch s).regs.matchLength = 2 := by rw [frame]
  have prevLength : (slowAfterMatch s).regs.prevLength = 0 := by rw [frame]
  have held : (slowAfterMatch s).regs.matchAvailable = false := by rw [frame]
  refine ⟨?_, ?_, fun e => ?_, ?_, fun e => ?_, fun e => ?_⟩
  · rw [start, look, cfg]
    omega
  · have base : historyStart (slowAfterMatch s) = historyStart s := by
      simp only [historyStart, start, history]
      omega
    rw [base, start]
    exact ⟨_, chains.inserted (inserted_slowAfterMatch h.memories h.wbits fits hlong) cfg
      (by simp only [historyStart]; omega) (Nat.le_refl _) (by omega) (Nat.min_le_left _ _)⟩
  · simp [held] at e
  · simp [matchLength, prevLength]
  · exact absurd (cfg ▸ hflavour) e
  · simp [matchLength] at e

/-- R219 to R221: a Slow emission, of the match held before or of a literal. -/
theorem Encoding.iterOk_slowEmit (hflavour : s.cfg.flavour = .slow)
    (hheld : 3 ≤ s.regs.prevLength.toNat → s.regs.prevLength.toNat ≤ s.regs.lookahead.toNat + 1
      ∧ InReach s.cfg (s.history - 1) (s.regs.strstart.toNat - 1) s.regs.prevMatch) : IterOk (slowEmit s) := by
  by_cases emits : 3 ≤ s.regs.prevLength.toNat ∧ s.regs.matchLength.toNat ≤ s.regs.prevLength.toNat
  · obtain ⟨hlong, hle⟩ := emits
    obtain ⟨hspan, reach⟩ := hheld hlong
    have hmax := h.lengths.1
    rw [slowEmit_match hlong hle]
    refine ⟨h.streamOk_slowAfterMatch hflavour hlong hspan, fun t e => ?_⟩
    obtain rfl := Option.some.inj e
    rw [slowAfterMatch_frame]
    refine tokenInBounds_of_inReach reach hlong hmax ?_
    obtain ⟨hpos, -, hbytes⟩ := reach
    change s.history - 1 + s.regs.prevLength.toNat ≤ s.history + (s.regs.prevLength.toNat - 1)
    omega
  · have fits := h.fits
    have byte := h.byte
    have start : (advance 1 1 s).regs.strstart.toNat = s.regs.strstart.toNat + 1 := advance_strstart (by omega)
    rw [slowEmit_defer (by omega)]
    refine ⟨streamOk_hold (h.streamOk_advance_one (fun e => absurd hflavour e) fun hlong => h.found hlong (by omega)) hflavour
      (by omega), fun t e => ?_⟩
    split at e
    · obtain rfl := Option.some.inj e
      exact ⟨rfl, rfl⟩
    · cases e

end Emission

/-! ## An iteration (R203) -/

@[simp] theorem insertCurrent_lookahead (s : State) : (insertCurrent s).regs.lookahead = s.regs.lookahead := by
  rw [insertCurrent_frame]
@[simp] theorem insertCurrent_history (s : State) : (insertCurrent s).history = s.history := by
  rw [insertCurrent_frame]
@[simp] theorem insertCurrent_cfg (s : State) : (insertCurrent s).cfg = s.cfg := (keepsControl_insertCurrent s).cfg
@[simp] theorem slowSearch_lookahead (s : State) : (slowSearch s).regs.lookahead = s.regs.lookahead := by
  rw [slowSearch_frame]
@[simp] theorem slowSearch_history (s : State) : (slowSearch s).history = s.history := by
  rw [slowSearch_frame]
@[simp] theorem slowSearch_cfg (s : State) : (slowSearch s).cfg = s.cfg := (keepsControl_slowSearch s).cfg

/-- R211: a Fast search writes `match_length` and `match_start`. -/
theorem fastSearch_frame (s : State) : fastSearch s = { s with
    regs := { s.regs with
      matchLength := (fastSearch s).regs.matchLength
      matchStart := (fastSearch s).regs.matchStart } } := by
  rw [fastSearch]; split <;> rfl

theorem topFillEnd_cont_lookahead {f : Flush} {t : State} (h : topFillEnd f t = .cont) : 1 ≤ t.regs.lookahead.toNat := by
  by_contra hempty
  have none : t.regs.lookahead.toNat = 0 := by omega
  by_cases hf : f = .noFlush
  · rw [topFillEnd_eq_needMore (by omega) hf] at h
    cases h
  · rw [topFillEnd_eq_leave none hf] at h
    cases h

theorem storeTopEnd_cont_lookahead {f : Flush} {t : State} (h : storeTopEnd f t = .cont) : 1 ≤ t.regs.lookahead.toNat := by
  by_contra hempty
  rw [storeTopEnd_of_empty (by omega)] at h
  split at h <;> cases h

/-- R186: a search never finds more than 258 bytes. -/
theorem searchFrom_matchLength_le {cur : Half} {s : State} (h : s.regs.prevLength.toNat ≤ 258) :
    (searchFrom cur s).regs.matchLength.toNat ≤ 258 := by
  have := longestMatch_le_258_or cur s
  rw [searchFrom_matchLength_toNat]
  omega

/-- R211: a Fast search that leaves 3 bytes or more had a candidate in reach. -/
theorem candidateInReach_of_fastSearch {s : State} (hbefore : s.regs.matchLength.toNat ≤ 2)
    (hafter : 3 ≤ (fastSearch s).regs.matchLength.toNat) : candidateInReach s = true := by
  by_contra hno
  rw [fastSearch_of_skips fun e => hno e.1] at hafter
  omega

/-- R216: and so had a Slow one. -/
theorem candidateInReach_of_slowSearch {s : State} (hbefore : s.regs.matchLength.toNat ≤ 2)
    (hafter : 3 ≤ (slowSearch s).regs.matchLength.toNat) : candidateInReach s = true := by
  by_contra hno
  rw [slowSearch_of_skips fun e => hno e.1] at hafter
  omega

/-- R210, R215: after the insertion of the current position and a search, which writes `match_length` and `match_start` only and
leaves 3 bytes or more only if it ran, an iteration is ready to emit. -/
theorem encoding_of_search {u w : State} (hc : CurrentInserted u) (hm : MemoriesWf u) (hw : 9 ≤ u.cfg.wbits.toNat)
    (window : u.regs.strstart.toNat + u.regs.lookahead.toNat ≤ 2 * windowSize u.cfg) (byte : 1 ≤ u.regs.lookahead.toNat)
    (held : u.regs.matchAvailable = true → u.cfg.flavour = .slow ∧ 1 ≤ u.regs.strstart.toNat)
    (hprev : u.regs.prevLength.toNat ≤ 258)
    (frame : w = { u with
      regs := { u.regs with matchLength := w.regs.matchLength, matchStart := w.regs.matchStart } })
    (ran : 3 ≤ w.regs.matchLength.toNat → candidateInReach u = true ∧ w = searchFrom u.regs.hashHead u) : Encoding w := by
  have hwin := windowSize_le u.cfg
  have found : 3 ≤ w.regs.matchLength.toNat → u.regs.prevLength.toNat < w.regs.matchLength.toNat → FoundMatch w :=
    fun hlong hbeats => by
      obtain ⟨reach, rfl⟩ := ran hlong
      exact foundMatch_searchFrom hc hw (by omega) reach hlong hbeats
  have length : w.regs.matchLength.toNat ≤ 258 := by
    rcases Nat.lt_or_ge w.regs.matchLength.toNat 3 with hshort | hlong
    · omega
    · obtain ⟨-, rfl⟩ := ran hlong
      exact searchFrom_matchLength_le hprev
  clear ran
  obtain ⟨L, chains, -⟩ := hc
  generalize w.regs.matchLength = n, w.regs.matchStart = m at frame
  subst frame
  exact ⟨hm, hw, window, byte, ⟨L, chains⟩, held, ⟨hprev, length⟩, found⟩

section Iteration

variable {s : State} (h : StreamOk s) (hm : MemoriesWf s) (hw : 9 ≤ s.cfg.wbits.toNat)
include h hm hw

/-- R206: a Store iteration. -/
theorem iterOk_storeIter (f : Flush) (hflavour : s.cfg.flavour = .store) : IterOk (storeIter f s) := by
  have top := streamOk_storeTopState h hm hw
  have cfg := (keepsControl_storeTopState s).cfg
  by_cases goes : storeTopEnd f (storeTopState s) = .cont
  · obtain ⟨L, chains⟩ := top.chains
    have short := top.notSlow (by simp [cfg, hflavour])
    have enc : Encoding (storeTopState s) := ⟨memoriesWf_storeTopState hm, by rwa [cfg], top.window,
      storeTopEnd_cont_lookahead goes, ⟨L, chains.mono (Nat.le_succ _)⟩, top.heldByte, top.lengths, by omega⟩
    rw [storeIter_of_cont goes]
    refine ⟨enc.streamOk_advance_one (fun _ => short) (by omega), fun t e => ?_⟩
    obtain rfl := Option.some.inj e
    exact ⟨rfl, rfl⟩
  · rw [storeIter_of_end goes]
    exact ⟨top, nofun⟩

/-- R210: a Fast iteration. -/
theorem iterOk_fastIter (f : Flush) (hflavour : s.cfg.flavour = .fast) : IterOk (fastIter f s) := by
  have top := streamOk_topFillState h hm hw
  have hmt := memoriesWf_topFillState hm
  have cfg := (keepsControl_topFillState s).cfg
  by_cases goes : topFillEnd f (topFillState s) = .cont
  · obtain ⟨hprev, hlength⟩ := top.notSlow (by simp [cfg, hflavour])
    have hc := currentInserted_insertCurrent top hmt
    rw [← insertCurrent_matchLength] at hlength
    rw [← insertCurrent_prevLength] at hprev
    have enc : Encoding (fastSearch (insertCurrent (topFillState s))) :=
      encoding_of_search hc (memoriesWf_insertCurrent hmt) (by rwa [insertCurrent_cfg, cfg]) (by simpa using top.window)
        (by simpa using topFillEnd_cont_lookahead goes) (by simpa using top.heldByte) (by omega) (fastSearch_frame _)
        fun hlong => ⟨candidateInReach_of_fastSearch hlength hlong, fastSearch_eq_searchFrom hlength hlong⟩
    rw [fastIter_of_cont goes]
    refine enc.iterOk_fastEmit ?_
    rw [fastSearch_frame]
    exact hprev
  · rw [fastIter_of_end goes]
    exact ⟨top, nofun⟩

/-- R215: a Slow iteration. -/
theorem iterOk_slowIter (f : Flush) (hflavour : s.cfg.flavour = .slow) : IterOk (slowIter f s) := by
  have top := streamOk_topFillState h hm hw
  have hmt := memoriesWf_topFillState hm
  have cfg := (keepsControl_topFillState s).cfg
  by_cases goes : topFillEnd f (topFillState s) = .cont
  · have hc : CurrentInserted (shiftMatch (insertCurrent (topFillState s))) := currentInserted_insertCurrent top hmt
    have two : (shiftMatch (insertCurrent (topFillState s))).regs.matchLength.toNat ≤ 2 := Nat.le_refl 2
    have enc : Encoding (slowSearch (shiftMatch (insertCurrent (topFillState s)))) :=
      encoding_of_search hc (memoriesWf_insertCurrent hmt) (by rwa [shiftMatch_cfg, insertCurrent_cfg, cfg])
        (by simpa using top.window) (by simpa using topFillEnd_cont_lookahead goes) (by simpa using top.heldByte)
        (by simpa using top.lengths.2) (slowSearch_frame _)
        fun hlong => ⟨candidateInReach_of_slowSearch two hlong, slowSearch_eq_searchFrom two hlong⟩
    rw [slowIter_of_cont goes]
    exact enc.iterOk_slowEmit (by simpa [cfg] using hflavour) (by simpa using top.heldMatch)
  · rw [slowIter_of_end goes]
    exact ⟨top, nofun⟩

/-- R203: an iteration of the session's flavour. -/
theorem iterOk_flavourIter (f : Flush) : IterOk (flavourIter f s) := by
  unfold flavourIter
  split
  · exact iterOk_storeIter h hm hw f ‹_›
  · exact iterOk_fastIter h hm hw f ‹_›
  · exact iterOk_slowIter h hm hw f ‹_›

end Iteration

/-! ## The engine's steps break nothing -/

/-- The fields `StreamOk` reads. -/
def streamView (s : State) := (s.regs, s.cfg, s.head, s.prev, s.history)

theorem StreamOk.congr {s t : State} (h : StreamOk s) (e : streamView t = streamView s) : StreamOk t := by
  simp only [streamView, Prod.mk.injEq] at e
  obtain ⟨regs, cfg, head, prev, history⟩ := e
  obtain ⟨_, _, _, _, _, _⟩ := h
  constructor <;> simpa only [historyStart, regs, cfg, head, prev, history]

/-- R124 to R129: what a new session has before its first RUN or dictionary, and a bound on the dictionary while it comes in. -/
structure SetupOk (s : State) : Prop where
  fresh : s.session = .ready → s.dictLoaded = false → s.regs = EngineRegs.cleared ∧ s.head = []
  dict : s.phase = .dictPop ∨ s.phase = .dictCommit → s.cmd.dictBuf.length ≤ maxDist s.cfg

theorem setupOk_of_not_ready {s : State} (hc : ControlOk s) (hs : s.session ≠ .ready) : SetupOk s :=
  ⟨fun e => absurd e hs, fun hp => hp.elim (fun e => absurd (hc.dictPop e).1 hs) fun e => absurd (hc.dictCommit e).1 hs⟩

theorem setupOk_of_phase {s : State}
    (fresh : s.session = .ready → s.dictLoaded = false → s.regs = EngineRegs.cleared ∧ s.head = [])
    (hp : s.phase ≠ .dictPop) (hc : s.phase ≠ .dictCommit) : SetupOk s :=
  ⟨fresh, fun e => (e.elim hp hc).elim⟩

/-- A state no internal fault has reached (R250), with what keeps the next one away. -/
structure Sound (s : State) : Prop where
  memories : MemoriesWf s
  control : ControlOk s
  invariants : SpecInvariants s
  alive : s.session ≠ .faulted
  stream : inSession s = true → StreamOk s
  setup : SetupOk s

/-- What the step of a phase would leave, its token apart, and the bounds of that token (R226). -/
structure AttemptOk (a : Attempt) : Prop where
  fifos : fifosFit (emitOpt a.token a.state) = true
  stream : inSession a.state = true → StreamOk a.state
  setup : SetupOk a.state
  token : ∀ t, a.token = some t → tokenInBounds a.state.cfg t = true ∧ tokenInHistory a.state.history t = true

theorem attemptOk_silent {t : State} (fifos : fifosFit t = true) (stream : inSession t = true → StreamOk t)
    (setup : SetupOk t) : AttemptOk (silent t) :=
  ⟨fifos, stream, setup, nofun⟩

/-- R54 item 5: a step that takes input bytes and no more keeps the FIFOs in their depths. -/
theorem fifosFit_of_drop {s t : State} (h : fifosFit s = true) (hp : t.params = s.params) (htok : t.tokFifo = s.tokFifo)
    (hin : ∃ n, t.inFifo = s.inFifo.drop n) : fifosFit t = true := by
  obtain ⟨n, hin⟩ := hin
  rw [fifosFit_eq_true] at h ⊢
  rw [hp, htok, hin, List.length_drop]
  omega

/-- R128: the dictionary buffer holds at most `MAX_DIST` bytes. -/
theorem length_pushDict_le {limit : Nat} {buf : List Byte} (b : Byte) (h : buf.length ≤ limit) :
    (pushDict limit buf b).length ≤ limit := by
  rw [pushDict]
  split
  · simpa using h
  · omega

/-- R125, R131: INIT and RESET leave a cleared session. -/
theorem attemptOk_of_cleared {t : State} (hr : t.regs = EngineRegs.cleared) (hh : t.head = []) (hin : t.inFifo = [])
    (htok : t.tokFifo = []) (hp : t.phase = .idle) : AttemptOk (silent t) :=
  attemptOk_silent (specInvariants_of_cleared hr hh hin htok).2 (fun _ => streamOk_of_cleared hr hh)
    (setupOk_of_phase (fun _ _ => ⟨hr, hh⟩) (by simp [hp]) (by simp [hp]))

/-- R133: END leaves no session. -/
theorem attemptOk_endOp (s : State) : AttemptOk (silent (endOp s)) :=
  attemptOk_silent (specInvariants_endOp s).2 nofun (setupOk_of_phase nofun nofun nofun)

/-- R201, R203, R222, R223: the session of a RUN past its first step is not READY. -/
theorem not_ready_of_loopSession {s t : State} (hs : loopSession s) (e : t.session = s.session ∨ t.session = .finished) :
    t.session ≠ .ready := by
  rw [loopSession] at hs
  obtain e | e := e <;> rw [e]
  · rw [hs]; split <;> nofun
  · nofun

/-- R203: RUN_ITER adds to its iteration only how it ends. -/
theorem runIter_view (s : State) : streamView (runIter s).state = streamView (flavourIter s.cmd.flush s).state
    ∧ (runIter s).state.params = s.params ∧ (runIter s).state.tokFifo = s.tokFifo
    ∧ ∃ n, (runIter s).state.inFifo = s.inFifo.drop n := by
  have k := keepsControl_flavourIter s.cmd.flush s
  unfold runIter
  dsimp only
  split <;> exact ⟨rfl, k.params, k.tokFifo, k.inFifo⟩

section Phases

variable {s : State} (h : Sound s) (he : enabled s = true)
include h

/-- R128: a pop writes the dictionary buffer. -/
theorem Sound.attemptOk_dictPop (hp : s.phase = .dictPop) : AttemptOk (silent (dictPop s)) := by
  obtain ⟨fresh, dict⟩ := h.setup
  have hs := (h.control.dictPop hp).1
  have room := dict (.inl hp)
  unfold dictPop
  split
  · exact attemptOk_silent h.invariants.2 h.stream h.setup
  · refine attemptOk_silent (fifosFit_of_drop h.invariants.2 rfl rfl ⟨1, List.drop_one.symm⟩) (fun hs => ?_)
      ⟨fresh, fun _ => length_pushDict_le _ room⟩
    exact (h.stream hs).congr rfl

/-- R129: the chains of a loaded dictionary hold its positions. -/
theorem Sound.streamOk_dictCommit (hp : s.phase = .dictCommit) (htotal : 3 ≤ s.cmd.dictTotal.toNat) :
    StreamOk (dictCommit s) := by
  obtain ⟨fresh, dict⟩ := h.setup
  obtain ⟨hs, hd⟩ := h.control.dictCommit hp
  obtain ⟨hr, hh⟩ := fresh hs hd
  have hmax := dict (.inr hp)
  have hwin := windowSize_le s.cfg
  have hfit : s.cmd.dictBuf.length ≤ windowSize s.cfg - 262 := hmax
  have hstart : (BitVec.ofNat 17 s.cmd.dictBuf.length).toNat = s.cmd.dictBuf.length := Nat.mod_eq_of_lt (by omega)
  have ins := inserted_dictCommit htotal h.memories hmax
  obtain ⟨-, -, -, cfg⟩ := dictCommit_control s
  have empty : ChainsOver (fun _ => False) 0 0 (windowSize s.cfg) s.head s.prev := hh ▸ chainsOver_none _ _ _ _
  have chains := empty.inserted ins cfg (Int.le_refl 0) (Nat.le_refl 0) (Nat.zero_le s.cmd.dictBuf.length) (Nat.sub_le _ 2)
  obtain ⟨entries, links, frame⟩ := dictCommit_long_frame htotal
  have regs : (dictCommit s).regs
      = { EngineRegs.cleared with strstart := BitVec.ofNat 17 s.cmd.dictBuf.length } := by rw [frame, ← hr]; rfl
  have history : (dictCommit s).history = s.cmd.dictBuf.length := by rw [frame]; rfl
  have start : (dictCommit s).regs.strstart.toNat = s.cmd.dictBuf.length := by rw [regs]; exact hstart
  refine ⟨?_, ?chains, ?_, ?_, fun _ => ?_, ?_⟩
  case chains =>
    rw [historyStart, start, history, Int.sub_self]
    exact ⟨_, chains⟩
  · rw [start, regs, cfg]
    change s.cmd.dictBuf.length + 0 ≤ 2 * windowSize s.cfg
    omega
  all_goals
    rw [regs]
    simp [EngineRegs.cleared]

/-- R129: DICT_COMMIT. -/
theorem Sound.attemptOk_dictCommit (hp : s.phase = .dictCommit) : AttemptOk (silent (dictCommit s)) := by
  obtain ⟨fresh, dict⟩ := h.setup
  rcases Nat.lt_or_ge s.cmd.dictTotal.toNat 3 with hshort | hlong
  · rw [dictCommit_short hshort]
    exact attemptOk_silent h.invariants.2 (fun hs => (h.stream hs).congr rfl) (setupOk_of_phase nofun nofun nofun)
  · have stream := h.streamOk_dictCommit hp hlong
    obtain ⟨entries, links, frame⟩ := dictCommit_long_frame hlong
    rw [frame] at stream ⊢
    exact attemptOk_silent h.invariants.2 (fun _ => stream) (setupOk_of_phase nofun nofun nofun)

include he

/-- R201: RUN_START writes `last_flush` and `hash_head`, and leaves READY. -/
theorem Sound.attemptOk_runStart (hp : s.phase = .runStart) : AttemptOk (silent (runStart s)) := by
  have hs := h.control.inSession_of_enabled he (by simp [hp]) (by simp [hp])
  obtain ⟨window, chains, heldByte, lengths, notSlow, heldMatch⟩ := h.stream hs
  refine attemptOk_silent (specInvariants_runStart h.invariants hs).2 (fun _ => ?stream)
    (setupOk_of_not_ready (controlOk_runStart h.control he hp) ?session)
  case stream =>
    unfold runStart
    split_ifs <;> exact ⟨window, chains, heldByte, lengths, notSlow, heldMatch⟩
  case session =>
    obtain ⟨finish, -⟩ := h.control.runStart hp
    have entered : (enterStream s).session ≠ .ready := by
      rw [enterStream_session]
      split
      · obtain e | e := finish ‹_› <;> simp [e]
      · nofun
    unfold runStart
    split_ifs with hdone
    · simp [hdone]
    · exact entered
    · exact entered

theorem Sound.attemptOk_runIter (hp : s.phase = .runIter) : AttemptOk (runIter s) := by
  have hs := h.control.inSession_of_enabled he (by simp [hp]) (by simp [hp])
  obtain ⟨hw, -, -⟩ := h.control.config hs
  obtain ⟨stream, token⟩ := iterOk_flavourIter (h.stream hs) h.memories hw s.cmd.flush
  obtain ⟨view, params, tokFifo, inFifo⟩ := runIter_view s
  obtain ⟨-, -, -, -, room⟩ := (enabled_iff s).1 he
  refine ⟨fifosFit_emitOpt _ (fifosFit_of_drop h.invariants.2 params tokFifo inFifo) ?_, fun _ => stream.congr view,
    setupOk_of_not_ready (controlOk_runIter h.control he hp)
      (not_ready_of_loopSession (h.control.runLoop (.inl hp)) (.inl (runIter_session s))), fun t e => ?_⟩
  · rw [tokFifo, params]
    exact room (.inl hp)
  · simp only [streamView, Prod.mk.injEq] at view
    obtain ⟨-, cfg, -, -, history⟩ := view
    rw [cfg, history]
    exact token t ((runIter_token s).symm.trans e)

/-- R222: RUN_TAIL lets the held byte go. -/
theorem Sound.attemptOk_runTail (hp : s.phase = .runTail) : AttemptOk (runTail s) := by
  have hs := h.control.inSession_of_enabled he (by simp [hp]) (by simp [hp])
  obtain ⟨window, chains, heldByte, lengths, notSlow, heldMatch⟩ := h.stream hs
  obtain ⟨-, -, -, -, room⟩ := (enabled_iff s).1 he
  have setup := setupOk_of_not_ready (controlOk_runTail h.control he hp)
    (not_ready_of_loopSession (h.control.runLoop (.inr (.inl hp))) (.inl (runTail_session s)))
  unfold runTail at setup ⊢
  split at setup
  case isTrue held =>
    rw [if_pos held]
    refine ⟨fifosFit_emitOpt _ h.invariants.2 (room (.inr (.inl hp))),
      fun _ => ⟨window, chains, nofun, lengths, notSlow, heldMatch⟩, setup, fun t e => ?_⟩
    obtain rfl := Option.some.inj e
    exact ⟨rfl, rfl⟩
  case isFalse held =>
    rw [if_neg held]
    exact ⟨h.invariants.2, fun _ => ⟨window, chains, heldByte, lengths, notSlow, heldMatch⟩, setup, nofun⟩

/-- R223, R224: RUN_MARK; a Full flush forgets the chains and the history, with no match held then. -/
theorem Sound.attemptOk_runMark (hp : s.phase = .runMark) : AttemptOk (runMark s) := by
  have hs := h.control.inSession_of_enabled he (by simp [hp]) (by simp [hp])
  obtain ⟨window, ⟨L, chains⟩, heldByte, lengths, notSlow, heldMatch⟩ := h.stream hs
  obtain ⟨-, -, -, -, room⟩ := (enabled_iff s).1 he
  obtain ⟨-, empty⟩ := h.control.runTail (.inr hp)
  have nothing : s.regs.matchLength.toNat ≤ 2 := by
    by_contra hlong
    have := (heldMatch (by omega)).1
    omega
  have setup := setupOk_of_not_ready (controlOk_runMark h.control he hp)
    (not_ready_of_loopSession (h.control.runLoop (.inr (.inr hp))) (runMark_session s))
  rw [runMark_eq] at setup ⊢
  refine ⟨fifosFit_emitOpt _ h.invariants.2 (room (.inr (.inr hp))), fun _ => ⟨window, ?_, heldByte, lengths, notSlow,
    fun hlong => absurd hlong (Nat.not_le_of_lt (Nat.lt_succ_of_le nothing))⟩, setup, fun t e => ?_⟩
  · by_cases hfull : s.cmd.flush = .fullFlush
    · simp only [if_pos hfull]
      exact ⟨_, chainsOver_none _ _ _ _⟩
    · simp only [if_neg hfull]
      exact ⟨L, chains⟩
  · obtain rfl := Option.some.inj e
    exact ⟨rfl, rfl⟩

/-- R280: the step of every phase. -/
theorem Sound.attemptOk : AttemptOk (attempt s) := by
  obtain ⟨-, hidle, hfault, -, -⟩ := (enabled_iff s).1 he
  unfold attempt
  cases hp : s.phase with
  | idle => exact absurd hp hidle
  | initOp => exact attemptOk_of_cleared rfl rfl rfl rfl rfl
  | resetOp => exact attemptOk_of_cleared rfl rfl rfl rfl rfl
  | endOp => exact attemptOk_endOp s
  | dictPop => exact h.attemptOk_dictPop hp
  | dictCommit => exact h.attemptOk_dictCommit hp
  | runStart => exact h.attemptOk_runStart he hp
  | runIter => exact h.attemptOk_runIter he hp
  | runTail => exact h.attemptOk_runTail he hp
  | runMark => exact h.attemptOk_runMark he hp
  | faulted => exact absurd hp hfault

end Phases

/-! ## Every turn keeps a state sound -/

/-- R280: the step of a phase is no internal fault by itself. -/
theorem attempt_session_ne_faulted {s : State} (hs : s.session ≠ .faulted) : (attempt s).state.session ≠ .faulted := by
  by_cases hend : s.phase = .endOp
  · simp only [attempt, hend]
    nofun
  · obtain ⟨e, -⟩ | e | e | e := attempt_session hend
    · rwa [e]
    all_goals simp [e]

/-- R226, R54: a token joins the FIFO where there is room. -/
theorem sound_emitOpt {t : State} (k : Option Token) (memories : MemoriesWf t) (control : ControlOk t)
    (alive : t.session ≠ .faulted) (stream : inSession t = true → StreamOk t) (setup : SetupOk t)
    (fifos : fifosFit (emitOpt k t) = true) : Sound (emitOpt k t) := by
  obtain ⟨fresh, dict⟩ := setup
  have after : inSession (emitOpt k t) = true → StreamOk (emitOpt k t) := by
    cases k <;> exact fun hs => (stream hs).congr rfl
  have wf := memoriesWf_emitOpt k memories
  refine ⟨wf, control.congr (controlView_emitOpt k t), ?_, ?_, after, ?_⟩
  · cases hs : inSession (emitOpt k t) with
    | true => exact (after hs).specInvariants wf fifos
    | false => exact specInvariants_of_not_inSession hs fifos
  · cases k <;> exact alive
  · cases k <;> exact ⟨fresh, dict⟩

theorem Sound.wouldLeave {s : State} (h : Sound s) (he : enabled s = true) : Sound (wouldLeave s) := by
  obtain ⟨fifos, stream, setup, -⟩ := h.attemptOk he
  exact sound_emitOpt _ (memoriesWf_attempt h.memories) (controlOk_attempt h.control he)
    (attempt_session_ne_faulted h.alive) stream setup fifos

/-- R250: no check of an enabled step fails. -/
theorem Sound.nothingBroken {s : State} (h : Sound s) (he : enabled s = true) : NothingBroken s := by
  obtain ⟨-, -, -, token⟩ := h.attemptOk he
  refine ⟨(h.wouldLeave he).invariants, fun t e => ?_⟩
  rw [Machine.wouldLeave, e]
  exact token t e

theorem Sound.engineStep {s : State} (h : Sound s) : Sound (engineStep s) := by
  cases he : enabled s with
  | true =>
    rw [engineStep_of_nothingBroken he (h.nothingBroken he)]
    exact h.wouldLeave he
  | false =>
    rw [Machine.engineStep, he]
    exact h

/-- R270: after hardware reset there is no session to keep. -/
theorem sound_of_reset {t : State} (memories : MemoriesWf t) (hb : t.busy = false) (hp : t.phase = .idle)
    (hs : t.session = .uninit) (htok : t.tokFifo = []) (hin : t.inFifo = []) : Sound t :=
  ⟨memories, controlOk_of_reset hb hp hs, specInvariants_of_reset hs htok hin, by simp [hs], by simp [hs],
    setupOk_of_phase (by simp [hs]) (by simp [hp]) (by simp [hp])⟩

/-- The fields beside those of `StreamOk` that `SetupOk` reads. -/
theorem SetupOk.congr {s t : State} (h : SetupOk s) (view : streamView t = streamView s) (session : t.session = s.session)
    (dictLoaded : t.dictLoaded = s.dictLoaded) (phase : t.phase = s.phase) (cmd : t.cmd = s.cmd) : SetupOk t := by
  simp only [streamView, Prod.mk.injEq] at view
  obtain ⟨regs, cfg, head, -, -⟩ := view
  obtain ⟨_, _⟩ := h
  constructor <;> simpa only [regs, cfg, head, session, dictLoaded, phase, cmd]

/-- R124 to R135: an accepted command only starts its phase; SET_DICT starts with an empty buffer. -/
theorem SetupOk.accepted {s t : State} (h : SetupOk s) (ha : Accepted s t) : SetupOk t := by
  obtain ⟨fresh, -⟩ := h
  obtain ⟨_, _, _, -, -, rfl⟩ | ⟨n, -, rfl⟩ | ⟨f, -, rfl⟩ | ⟨-, rfl⟩ | ⟨-, rfl⟩ := ha
  · exact setupOk_of_phase fresh nofun nofun
  · exact ⟨fresh, fun _ => Nat.zero_le _⟩
  · refine setupOk_of_phase (fun hs => fresh ?_) nofun nofun
    rw [acceptRun_session] at hs
    split at hs
    · cases hs
    · exact hs
  · exact setupOk_of_phase fresh nofun nofun
  · exact setupOk_of_phase fresh nofun nofun

/-- R121: a command is accepted into an open session only if the session was open. -/
theorem inSession_of_accepted {s t : State} (ha : Accepted s t) (hs : inSession t = true) : inSession s = true := by
  obtain ⟨_, _, _, -, -, rfl⟩ | ⟨n, -, rfl⟩ | ⟨f, hrun, rfl⟩ | ⟨-, rfl⟩ | ⟨-, rfl⟩ := ha
  · exact hs
  · exact hs
  · obtain e | e | ⟨e, -⟩ := runAllowed_eq_true.1 hrun <;> simp [e]
  · exact hs
  · exact hs

theorem Sound.exec {i : Instr} {s t : State} (h : Sound s) (hx : exec i s = .next t) : Sound t := by
  obtain ⟨memories, control, invariants, alive, stream, setup⟩ := h
  have view : streamView t = streamView s := by
    have engine := (exec_frame hx).engine
    simp only [engineView, Prod.mk.injEq] at engine
    obtain ⟨-, head, prev, cfg, regs, -, -, history, -⟩ := engine
    rw [streamView, regs, cfg, head, prev, history]
    rfl
  refine ⟨memoriesWf_exec memories hx, control.exec hx, invariants.exec hx, ?alive, fun hs => ?stream, ?setup⟩
  case alive =>
    obtain e | e := (exec_frame hx).session <;> rw [e]
    · exact alive
    · nofun
  all_goals obtain hk | ⟨-, ha⟩ := exec_cases hx
  · rw [inSession_eq_true, hk.session, ← inSession_eq_true] at hs
    exact (stream hs).congr view
  · exact (stream (inSession_of_accepted ha hs)).congr view
  · exact setup.congr view hk.session hk.dictLoaded hk.phase hk.cmd
  · exact setup.accepted ha

/-- Taking a turn off the schedule changes nothing the engine has. -/
theorem Sound.schedule {s : State} (h : Sound s) (rest : List Turn) : Sound { s with schedule := rest } := by
  obtain ⟨memories, control, invariants, alive, stream, setup⟩ := h
  exact ⟨memories, control.congr rfl, invariants, alive, fun hs => (stream hs).congr rfl, setup.congr rfl rfl rfl rfl rfl⟩

theorem Sound.step {s t : State} (h : Sound s) (hstep : step s = .next t) : Sound t :=
  step_keeps (P := Sound) (fun _ rest h => h.schedule rest) (fun _ => Sound.engineStep)
    (fun _ _ => sound_of_reset (memoriesWf_scrambleMemories _) rfl rfl rfl rfl rfl) (fun _ _ _ => Sound.exec) h hstep

/-! ## Runs -/

/-- R69: what every step keeps, every run keeps. -/
theorem run_keeps {M : Host.Core} {P : M.State → Prop} (keeps : ∀ s t, P s → M.step s = .next t → P t) {k : Nat}
    {s t : M.State} (h : P s) (hrun : M.run k s = .next t) : P t := by
  induction k generalizing s with
  | zero =>
    obtain rfl := Host.Outcome.next.inj hrun
    exact h
  | succ k ih =>
    rw [Host.Core.run] at hrun
    split at hrun
    next s' hstep => exact ih (keeps s s' h hstep) hrun
    next => cases hrun
    next => cases hrun

/-- Settles O60: hardware reset is sound and every turn keeps that (`Sound.step`), because no check of a sound state's step fails
(`Sound.nothingBroken`); a sound state is not FAULTED. -/
theorem noExecutionReachesAnInternalFault : Obligations.NoExecutionReachesAnInternalFault := by
  rintro p s - ⟨k, schedule, draws, hrun⟩
  have start : Sound { State.resetWith p with schedule := schedule, draws := draws } :=
    sound_of_reset ⟨rfl, rfl, rfl⟩ rfl rfl rfl rfl rfl
  have sound : Sound s := run_keeps (M := Sys2Proof.core) (P := Sound) (fun _ _ => Sound.step) start hrun
  exact sound.alive

end Sys2Proof.Machine

namespace Sys2Proof.Machine

open Sys2Proof.Config

/-! ## The reset table (R270) -/

/-- R270: the memories a hardware reset draws, the schedule and the read data are behind no register. -/
theorem registerValue_hardReset (s : State) (r : Reg) :
    registerValue (hardReset s) r = registerValue (State.resetWith s.params) r := by
  cases r <;> rfl

/-- R21, R270: the table, at the default parameters. -/
theorem registerValue_reset (r : Reg) : registerValue State.reset r = resetRegister r := by
  cases r <;> decide

/-- R25, R34, R270: with both FIFOs of depth 1 or more the empty ones are not full, which is all a register shows of the parameters. -/
theorem registerValue_resetWith {p : Params} (hp : p.ok = true) (r : Reg) :
    registerValue (State.resetWith p) r = registerValue State.reset r := by
  simp only [Params.ok, Bool.and_eq_true, decide_eq_true_eq] at hp
  obtain ⟨⟨⟨⟨⟨⟨hin, -⟩, htok⟩, -⟩, -⟩, -⟩, -⟩ := hp
  have notFull : inFull (State.resetWith p) = false := decide_eq_false (show ¬0 = p.inFifoDepth by omega)
  have notTokFull : tokFull (State.resetWith p) = false := decide_eq_false (show ¬0 = p.tokFifoDepth by omega)
  have space : inSpace (State.resetWith p) = true := decide_eq_true (show 0 < p.inFifoDepth from hin)
  cases r with
  | status =>
    rw [registerValue, statusWord, notFull, notTokFull]
    rfl
  | intStatus =>
    rw [registerValue, intStatusBits, space]
    rfl
  | _ => rfl

/-- R255, R270: with no enable set nothing is pending under one. -/
theorem irq_resetWith (p : Params) : irq (State.resetWith p) = false :=
  decide_eq_false (not_not_intro BitVec.and_zero)

/-- Settles O8: the reset turn leaves `hardReset`, whose registers are those of `State.resetWith`. -/
theorem hardwareResetGivesTheResetTable : Obligations.HardwareResetGivesTheResetTable := by
  have table : ∀ p : Params, p.ok = true → ∀ r, registerValue (State.resetWith p) r = resetRegister r := fun p hp r =>
    (registerValue_resetWith hp r).trans (registerValue_reset r)
  refine ⟨fun s rest hp hs => ⟨_, step_of_reset_turn hp hs, fun r => ?_, irq_resetWith s.params, rfl, rfl, rfl, rfl, rfl,
    rfl, rfl, rfl, rfl, rfl, rfl, rfl, rfl, rfl, rfl, rfl, rfl⟩, fun p hp => ⟨table p hp, irq_resetWith p⟩⟩
  exact (registerValue_hardReset _ r).trans (table _ hp r)

/-! ## Stalls (R280, R283) -/

theorem engineStep_of_not_enabled {s : State} (h : ¬enabled s = true) : engineStep s = s := if_neg h

/-- Settles O47: in each of these states a condition of R280 fails. -/
theorem stalledEngineChangesNothing : Obligations.StalledEngineChangesNothing := by
  refine fun s => ⟨fun hp hfull => ?full, fun hp hin => ?waits, fun hidle => ?idle⟩
  all_goals
    refine engineStep_of_not_enabled fun he => ?_
    obtain ⟨busy, notIdle, notFaulted, input, room⟩ := (enabled_iff s).1 he
  case full => exact Nat.not_lt.2 hfull (room hp)
  case waits => exact input hp hin
  case idle =>
    obtain hb | hp | hp := hidle
    · simp [busy] at hb
    · exact notIdle hp
    · exact notFaulted hp

/-! ## The frame of an engine step (R280, R287) -/

/-- What no engine step writes before its token, but an internal fault. -/
def hostOwned (s : State) := (s.intEnable, s.readData, s.params, s.schedule, s.err, s.errFlag)

/-- What every step but those of INIT, RESET and END keeps before its own token: beside `hostOwned`, the token FIFO, its counter and
the configuration; the input FIFO only loses its oldest bytes. -/
structure StepFrame (s t : State) : Prop where
  host : hostOwned t = hostOwned s
  tokens : KeepsTokens s t
  totalTok : t.totalTok = s.totalTok
  inFifo : ∃ n, t.inFifo = s.inFifo.drop n

theorem StepFrame.refl (s : State) : StepFrame s s := ⟨rfl, ⟨rfl, rfl⟩, rfl, 0, rfl⟩

theorem stepFrame_of_keepsControl {s t : State} (k : KeepsControl s t) : StepFrame s t :=
  ⟨by rw [hostOwned, k.intEnable, k.readData, k.params, k.schedule, k.err, k.errFlag]; rfl, ⟨k.tokFifo, k.cfg⟩, k.totalTok,
    k.inFifo⟩

/-- R128: a pop takes the oldest byte. -/
theorem stepFrame_dictPop (s : State) : StepFrame s (dictPop s) := by
  unfold dictPop
  split
  · exact .refl s
  · exact ⟨rfl, ⟨rfl, rfl⟩, rfl, 1, List.drop_one.symm⟩

theorem stepFrame_dictCommit (s : State) : StepFrame s (dictCommit s) := by
  rcases Nat.lt_or_ge s.cmd.dictTotal.toNat 3 with hshort | hlong
  · rw [dictCommit_short hshort]
    exact ⟨rfl, ⟨rfl, rfl⟩, rfl, 0, rfl⟩
  · obtain ⟨_, _, e⟩ := dictCommit_long_frame hlong
    rw [e]
    exact ⟨rfl, ⟨rfl, rfl⟩, rfl, 0, rfl⟩

theorem stepFrame_runStart (s : State) : StepFrame s (runStart s) := by
  unfold runStart; split_ifs <;> exact ⟨rfl, ⟨rfl, rfl⟩, rfl, 0, rfl⟩

/-- R203: RUN_ITER adds to its iteration only how it ends. -/
theorem stepFrame_runIter (s : State) : StepFrame s (runIter s).state := by
  obtain ⟨host, tokens, totalTok, inFifo⟩ := stepFrame_of_keepsControl (keepsControl_flavourIter s.cmd.flush s)
  unfold runIter
  dsimp only
  split <;> exact ⟨host, tokens, totalTok, inFifo⟩

theorem stepFrame_runTail (s : State) : StepFrame s (runTail s).state := by
  unfold runTail; split <;> exact ⟨rfl, ⟨rfl, rfl⟩, rfl, 0, rfl⟩

theorem stepFrame_runMark (s : State) : StepFrame s (runMark s).state := by
  rw [runMark_eq]; exact ⟨rfl, ⟨rfl, rfl⟩, rfl, 0, rfl⟩

theorem stepFrame_attempt {s : State} (hinit : s.phase ≠ .initOp) (hreset : s.phase ≠ .resetOp) (hend : s.phase ≠ .endOp) :
    StepFrame s (attempt s).state := by
  unfold attempt
  cases hp : s.phase with
  | idle => exact .refl s
  | initOp => exact absurd hp hinit
  | resetOp => exact absurd hp hreset
  | endOp => exact absurd hp hend
  | dictPop => exact stepFrame_dictPop s
  | dictCommit => exact stepFrame_dictCommit s
  | runStart => exact stepFrame_runStart s
  | runIter => exact stepFrame_runIter s
  | runTail => exact stepFrame_runTail s
  | runMark => exact stepFrame_runMark s
  | faulted => exact .refl s

/-- R125, R131, R133: INIT, RESET and END leave the host's side alone too. -/
theorem hostOwned_attempt (s : State) : hostOwned (attempt s).state = hostOwned s := by
  by_cases h : s.phase = .initOp ∨ s.phase = .resetOp ∨ s.phase = .endOp
  · obtain e | e | e := h <;> rw [attempt, e] <;> rfl
  · obtain ⟨hinit, hreset, hend⟩ : s.phase ≠ .initOp ∧ s.phase ≠ .resetOp ∧ s.phase ≠ .endOp := by simpa using h
    exact (stepFrame_attempt hinit hreset hend).host

/-- R26, R271: RESET keeps the configuration, so only INIT and END change it. -/
theorem attempt_cfg {s : State} (hinit : s.phase ≠ .initOp) (hend : s.phase ≠ .endOp) :
    (attempt s).state.cfg = s.cfg := by
  by_cases hreset : s.phase = .resetOp
  · rw [attempt, hreset]
    rfl
  · obtain ⟨-, ⟨-, cfg⟩, -, -⟩ := stepFrame_attempt hinit hreset hend
    exact cfg

/-- R12: a step's token joins the end of the FIFO, and nothing else of the frame changes. -/
theorem emitOpt_frame (k : Option Token) (t : State) :
    hostOwned (emitOpt k t) = hostOwned t ∧ (emitOpt k t).cfg = t.cfg ∧ (emitOpt k t).inFifo = t.inFifo
      ∧ (((emitOpt k t).tokFifo = t.tokFifo ∧ (emitOpt k t).totalTok = t.totalTok)
        ∨ ∃ u, (emitOpt k t).tokFifo = t.tokFifo ++ [u] ∧ (emitOpt k t).totalTok = t.totalTok + 1) := by
  cases k with
  | none => exact ⟨rfl, rfl, rfl, .inl ⟨rfl, rfl⟩⟩
  | some u => exact ⟨rfl, rfl, rfl, .inr ⟨u, rfl, rfl⟩⟩

/-- Settles O48: a step that does nothing or faults moves no data (R250), and any other is its attempt (`stepFrame_attempt`,
`hostOwned_attempt`) with its token appended (`emitOpt_frame`). -/
theorem engineStepsOnlyAppendTokens : Obligations.EngineStepsOnlyAppendTokens := by
  intro s
  obtain ⟨-, e⟩ | ⟨-, -, e⟩ | ⟨-, n, -, e⟩ := engineStep_cases s <;> rw [e]
  · exact ⟨fun _ _ _ => ⟨.inl ⟨rfl, rfl⟩, 0, rfl⟩, rfl, rfl, rfl, rfl, fun _ _ => rfl, .inl ⟨rfl, rfl⟩⟩
  · obtain ⟨host, cfg, input, tokens⟩ := emitOpt_frame (attempt s).token (attempt s).state
    rw [hostOwned_attempt] at host
    simp only [hostOwned, Prod.mk.injEq] at host
    obtain ⟨intEnable, readData, params, schedule, err, errFlag⟩ := host
    refine ⟨fun hinit hreset hend => ?_, intEnable, readData, params, schedule, fun hinit hend => ?_, .inl ⟨err, errFlag⟩⟩
    · obtain ⟨-, ⟨tokFifo, -⟩, totalTok, inFifo⟩ := stepFrame_attempt hinit hreset hend
      rw [tokFifo, totalTok] at tokens
      rw [input]
      exact ⟨tokens, inFifo⟩
    · rw [cfg, attempt_cfg hinit hend]
  · exact ⟨fun _ _ _ => ⟨.inl ⟨rfl, rfl⟩, 0, rfl⟩, rfl, rfl, rfl, rfl, fun _ _ => rfl, .inr rfl⟩

end Sys2Proof.Machine

namespace Sys2Proof.Machine

open Sys2Proof.Config

/-! ## What an iteration uses up (R281) -/

/-- R281: the bytes taken in and not yet encoded, and those still in the input FIFO. -/
def buffered (s : State) : Nat := s.regs.lookahead.toNat + s.inFifo.length

/-- R166: what FILL takes from the FIFO it adds to the lookahead. -/
theorem buffered_fill {s : State} (hw : 9 ≤ s.cfg.wbits.toNat) (hfit : windowFits s = true) :
    buffered (fill s) = buffered s ∧ s.regs.lookahead.toNat ≤ (fill s).regs.lookahead.toNat := by
  have hlook := toNat_lookahead_add hw hfit (Nat.min_le_left (refillRoom (slideIfDue s)) s.inFifo.length)
  rw [buffered, fill_eq hw hfit, takeInput_regs, takeInput_inFifo, List.length_drop, slideIfDue_inFifo,
    slideIfDue_lookahead, hlook, buffered]
  omega

theorem buffered_topFillState {s : State} (hw : 9 ≤ s.cfg.wbits.toNat) (hfit : windowFits s = true) :
    buffered (topFillState s) = buffered s ∧ s.regs.lookahead.toNat ≤ (topFillState s).regs.lookahead.toNat := by
  rw [topFillState]
  split
  · exact buffered_fill hw hfit
  · exact ⟨rfl, Nat.le_refl _⟩

theorem buffered_storeTopState {s : State} (hw : 9 ≤ s.cfg.wbits.toNat) (hfit : windowFits s = true) :
    buffered (storeTopState s) = buffered s := by
  rw [storeTopState]
  split
  · obtain ⟨kept, -⟩ := buffered_fill hw hfit
    exact kept
  · rfl

/-- An iteration that encodes takes nothing more from the FIFO, so what leaves the lookahead is used up. -/
theorem buffered_lt_of_lookahead_lt {s t : State} (k : KeepsControl s t)
    (h : t.regs.lookahead.toNat < s.regs.lookahead.toNat) : buffered t < buffered s := by
  obtain ⟨n, e⟩ := k.inFifo
  rw [buffered, buffered, e, List.length_drop]
  omega

/-- R186: a search finds no more than the lookahead. -/
theorem searchFrom_matchLength_le_lookahead (cur : Half) (s : State) :
    (searchFrom cur s).regs.matchLength.toNat ≤ s.regs.lookahead.toNat := by
  rw [searchFrom_matchLength_toNat, longestMatch]
  split <;> omega

/-- R211: so does a Fast search, if it finds a match at all. -/
theorem fastSearch_matchLength {s : State} (h : s.regs.matchLength.toNat ≤ 2) :
    (fastSearch s).regs.matchLength.toNat ≤ 2
      ∨ (fastSearch s).regs.matchLength.toNat ≤ (fastSearch s).regs.lookahead.toNat := by
  rcases Nat.lt_or_ge (fastSearch s).regs.matchLength.toNat 3 with hshort | hlong
  · exact .inl (by omega)
  · rw [fastSearch_eq_searchFrom h hlong]
    exact .inr (searchFrom_matchLength_le_lookahead _ s)

/-- R212, R213: a Fast iteration encodes its match, or one byte. -/
theorem fastEmit_lookahead_lt {s : State} (hbyte : 1 ≤ s.regs.lookahead.toNat)
    (h : s.regs.matchLength.toNat ≤ 2 ∨ s.regs.matchLength.toNat ≤ s.regs.lookahead.toNat) :
    (fastEmit s).state.regs.lookahead.toNat < s.regs.lookahead.toNat := by
  rcases Nat.lt_or_ge s.regs.matchLength.toNat 3 with hshort | hlong
  · rw [fastEmit_literal hshort, advance_lookahead 1 hbyte]
    omega
  · rw [fastEmit_match hlong, fastAfterMatch_lookahead (by omega)]
    omega

/-- R219 to R221: a Slow iteration encodes what is left of the held match, its first byte being taken, or one byte. -/
theorem slowEmit_lookahead_lt {s : State} (hbyte : 1 ≤ s.regs.lookahead.toNat)
    (h : s.regs.prevLength.toNat ≤ 2 ∨ s.regs.prevLength.toNat ≤ s.regs.lookahead.toNat + 1) :
    (slowEmit s).state.regs.lookahead.toNat < s.regs.lookahead.toNat := by
  by_cases emits : 3 ≤ s.regs.prevLength.toNat ∧ s.regs.matchLength.toNat ≤ s.regs.prevLength.toNat
  · rw [slowEmit_match emits.1 emits.2, slowAfterMatch_lookahead (by omega)]
    omega
  · rw [slowEmit_defer (by omega), hold_regs, advance_lookahead 1 hbyte]
    omega

theorem storeTopEnd_of_storeIter_cont {f : Flush} {s : State} (h : (storeIter f s).ends = .cont) :
    storeTopEnd f (storeTopState s) = .cont := by
  by_contra e
  rw [storeIter_of_end e] at h
  exact e h

theorem topFillEnd_of_fastIter_cont {f : Flush} {s : State} (h : (fastIter f s).ends = .cont) :
    topFillEnd f (topFillState s) = .cont := by
  by_contra e
  rw [fastIter_of_end e] at h
  exact e h

section Iteration

variable {f : Flush} {s : State} (hw : 9 ≤ s.cfg.wbits.toNat) (hfit : windowFits s = true)
include hw hfit

theorem buffered_storeIter_lt (h : (storeIter f s).ends = .cont) : buffered (storeIter f s).state < buffered s := by
  have goes := storeTopEnd_of_storeIter_cont h
  have hbyte := storeTopEnd_cont_lookahead goes
  rw [storeIter_of_cont goes, ← buffered_storeTopState hw hfit]
  refine buffered_lt_of_lookahead_lt (keepsControl_advance 1 1 _) ?_
  rw [advance_lookahead 1 hbyte]
  omega

theorem buffered_fastIter_lt (hlength : s.regs.matchLength.toNat ≤ 2) (h : (fastIter f s).ends = .cont) :
    buffered (fastIter f s).state < buffered s := by
  have goes := topFillEnd_of_fastIter_cont h
  have hbyte := topFillEnd_cont_lookahead goes
  obtain ⟨top, -⟩ := buffered_topFillState hw hfit
  have found := fastSearch_matchLength (s := insertCurrent (topFillState s)) (by simpa using hlength)
  have look : (fastSearch (insertCurrent (topFillState s))).regs.lookahead = (topFillState s).regs.lookahead := by
    rw [fastSearch_frame, insertCurrent_lookahead]
  rw [fastIter_of_cont goes, ← top]
  refine buffered_lt_of_lookahead_lt (((keepsControl_insertCurrent _).trans (keepsControl_fastSearch _)).trans
    (keepsControl_fastEmit _)) ?_
  rw [← look] at hbyte ⊢
  exact fastEmit_lookahead_lt hbyte found

theorem buffered_slowIter_lt
    (hheld : s.regs.matchLength.toNat ≤ 2 ∨ s.regs.matchLength.toNat ≤ s.regs.lookahead.toNat + 1)
    (h : (slowIter f s).ends = .cont) : buffered (slowIter f s).state < buffered s := by
  have goes := topFillEnd_of_slowIter_cont h
  have hbyte := topFillEnd_cont_lookahead goes
  obtain ⟨top, grows⟩ := buffered_topFillState hw hfit
  obtain ⟨u, hu⟩ : ∃ u, u = slowSearch (shiftMatch (insertCurrent (topFillState s))) := ⟨_, rfl⟩
  have look : u.regs.lookahead = (topFillState s).regs.lookahead := by simp [hu]
  have prev : u.regs.prevLength = s.regs.matchLength := by simp [hu]
  rw [slowIter_of_cont goes, ← hu, ← top]
  refine buffered_lt_of_lookahead_lt ?_ ?_
  · rw [hu]
    exact (((keepsControl_insertCurrent _).trans (keepsControl_shiftMatch _)).trans (keepsControl_slowSearch _)).trans
      (keepsControl_slowEmit _)
  · rw [← look] at hbyte grows ⊢
    refine slowEmit_lookahead_lt hbyte ?_
    rw [prev]
    omega

end Iteration

/-- Settles O49, flavour by flavour: the top of an iteration keeps what is buffered, and its emission takes from the lookahead. -/
theorem everyIterationUsesUpInput : Obligations.EveryIterationUsesUpInput := by
  intro f s hw hfit hlength _ hend
  change buffered (flavourIter f s).state < buffered s
  unfold flavourIter at hend ⊢
  cases hflavour : s.cfg.flavour with
  | store =>
    rw [hflavour] at hend
    exact buffered_storeIter_lt hw hfit hend
  | fast =>
    rw [hflavour] at hend
    refine buffered_fastIter_lt hw hfit (hlength.resolve_right fun held => ?_) hend
    simp [hflavour] at held
  | slow =>
    rw [hflavour] at hend
    exact buffered_slowIter_lt hw hfit (hlength.imp_right And.right) hend

end Sys2Proof.Machine

namespace Sys2Proof.Machine

open Sys2Proof.Config

/-! ## The bytes a RUN has still to encode (R281) -/

/-- The bytes of the lookahead, in order. -/
def lookaheadBytes (s : State) : List Byte :=
  (List.range s.regs.lookahead.toNat).map fun k => Memory.read s.window (s.regs.strstart.toNat + k)

/-- The bytes a RUN has still to encode: those of the lookahead, then those of the input FIFO. -/
def pendingBytes (s : State) : List Byte := lookaheadBytes s ++ s.inFifo

theorem lookaheadBytes_of_empty {s : State} (h : s.regs.lookahead.toNat = 0) : lookaheadBytes s = [] := by
  rw [lookaheadBytes, h]
  rfl

/-- With nothing left to encode, both places are empty. -/
theorem empty_of_pendingBytes_nil {s : State} (h : pendingBytes s = []) : s.regs.lookahead.toNat = 0 ∧ s.inFifo = [] := by
  simpa [pendingBytes, lookaheadBytes] using h

theorem map_range_getD (l : List Byte) {n : Nat} (h : n ≤ l.length) : (List.range n).map (fun k => l.getD k 0) = l.take n := by
  refine List.ext_getElem (by simpa using h) fun k hk _ => ?_
  have hlt : k < l.length := by simp at hk; omega
  simp [hlt]

/-- R166: bytes taken into an empty lookahead are the first to encode. -/
theorem pendingBytes_takeInput {t : State} {n : Nat} (hm : MemoriesWf t) (hempty : t.regs.lookahead.toNat = 0)
    (hn : n ≤ t.inFifo.length) (hsmall : n < 2 ^ 17) : pendingBytes (takeInput n t) = pendingBytes t := by
  have look : (takeInput n t).regs.lookahead.toNat = n := by
    rw [takeInput_regs, BitVec.toNat_add, BitVec.toNat_ofNat, hempty]
    omega
  have taken : lookaheadBytes (takeInput n t) = t.inFifo.take n := by
    rw [lookaheadBytes, look, takeInput_strstart, ← map_range_getD _ hn]
    refine List.map_congr_left fun k hk => ?_
    have hlt := List.mem_range.1 hk
    rw [read_takeInput_window hm hn, hempty, if_pos (by omega)]
    congr 1
    omega
  rw [pendingBytes, taken, takeInput_inFifo, List.take_append_drop, pendingBytes, lookaheadBytes_of_empty hempty,
    List.nil_append]

/-- R204: the top of a Store iteration moves bytes from the FIFO to an empty lookahead. -/
theorem pendingBytes_storeTopState {s : State} (hm : MemoriesWf s) (hw : 9 ≤ s.cfg.wbits.toNat) (hfit : windowFits s = true) :
    pendingBytes (storeTopState s) = pendingBytes s := by
  rw [storeTopState]
  split
  case isFalse => rfl
  case isTrue hempty =>
    obtain ⟨full, -⟩ := strstart_add_room hw hfit
    have hwin := windowSize_le s.cfg
    have slid : (slideIfDue s).regs.lookahead.toNat = 0 := by rw [slideIfDue_lookahead, hempty]
    rw [fill_eq hw hfit, pendingBytes_takeInput (memoriesWf_slideIfDue hm) slid (by simp) (by omega), pendingBytes,
      pendingBytes, slideIfDue_inFifo, lookaheadBytes_of_empty slid, lookaheadBytes_of_empty hempty]

/-- R206: the byte at `strstart` is the first to encode. -/
theorem pendingBytes_advance_one {s : State} (hbyte : 1 ≤ s.regs.lookahead.toNat) (hfit : windowFits s = true) :
    pendingBytes s = Memory.read s.window s.regs.strstart.toNat :: pendingBytes (advance 1 1 s) := by
  have fits : s.regs.strstart.toNat + s.regs.lookahead.toNat ≤ 2 * windowSize s.cfg := of_decide_eq_true hfit
  have hwin := windowSize_le s.cfg
  obtain ⟨n, hn⟩ : ∃ n, s.regs.lookahead.toNat = n + 1 := ⟨_, (Nat.sub_add_cancel hbyte).symm⟩
  have rest : lookaheadBytes (advance 1 1 s)
      = (List.range n).map fun k => Memory.read s.window (s.regs.strstart.toNat + (k + 1)) := by
    rw [lookaheadBytes, advance_lookahead 1 hbyte, advance_strstart (by omega), hn]
    simp only [advance_window, Nat.add_sub_cancel, Nat.add_assoc, Nat.add_comm 1]
  rw [pendingBytes, pendingBytes, rest, lookaheadBytes, hn, List.range_succ_eq_map]
  simp [Function.comp_def]

/-! ## FILL, a byte encoded and a token keep the invariants of R54 -/

/-- R167: a slide moves the heads down with `strstart`. -/
theorem headsInserted_slide {s : State} (hstart : windowSize s.cfg ≤ s.regs.strstart.toNat) (h : headsInserted s = true) :
    headsInserted (slide s) = true := by
  rw [headsInserted, slide_head, slide_strstart hstart]
  refine List.all_eq_true.2 fun e he => decide_eq_true ?_
  obtain ⟨x, hx, hsome⟩ := List.mem_filterMap.1 he
  have below := of_decide_eq_true (List.all_eq_true.1 h x hx)
  split at hsome
  · cases hsome
  · rename_i hkept
    obtain rfl := Option.some.inj hsome
    have hpos : (Memory.rebasePos (windowSize s.cfg) x.2).toNat ≠ 0 := fun e => hkept (BitVec.eq_of_toNat_eq e)
    rw [Memory.toNat_rebasePos] at hpos ⊢
    omega

theorem headsInserted_slideIfDue {s : State} (hw : 9 ≤ s.cfg.wbits.toNat) (h : headsInserted s = true) :
    headsInserted (slideIfDue s) = true := by
  rw [slideIfDue]
  split
  case isFalse => exact h
  case isTrue hd =>
    have hmin := le_windowSize hw
    have hstart := (slideDue_eq_true hw).1 hd
    exact headsInserted_slide (by omega) h

theorem windowFits_fill {s : State} (hw : 9 ≤ s.cfg.wbits.toNat) (hfit : windowFits s = true) :
    windowFits (fill s) = true := by
  obtain ⟨full, -⟩ := strstart_add_room hw hfit
  have hlook := toNat_lookahead_add hw hfit (Nat.min_le_left (refillRoom (slideIfDue s)) s.inFifo.length)
  rw [fill_eq hw hfit, windowFits, takeInput_strstart, takeInput_regs, takeInput_cfg, slideIfDue_lookahead, slideIfDue_cfg,
    hlook]
  exact decide_eq_true (by omega)

/-- R54, R166: with no byte held, as in every flavour but Slow. -/
theorem specInvariants_fill {s : State} (h : SpecInvariants s) (hs : inSession s = true) (hw : 9 ≤ s.cfg.wbits.toNat)
    (hheld : s.regs.matchAvailable = false) : SpecInvariants (fill s) := by
  obtain ⟨session, fifos⟩ := h
  obtain ⟨window, heads, -, lengths⟩ := session hs
  have k := keepsControl_fill s
  have regs := fillLoop_regs (s.inFifo.length + 1) s
  rw [← fill] at regs
  refine ⟨fun _ => ⟨windowFits_fill hw window, ?heads, ?held, ?lengths⟩, fifosFit_of_drop fifos k.params k.tokFifo k.inFifo⟩
  case heads =>
    have slid := headsInserted_slideIfDue hw heads
    rwa [fill_eq hw window, headsInserted, takeInput_head, takeInput_strstart]
  case held => rw [heldByteOk, regs, hheld]; rfl
  case lengths => rw [lengthsOk, regs]; exact lengths

/-- A token joins the FIFO, which fits it. -/
theorem specInvariants_emit {s : State} (k : Token) (h : SpecInvariants s) (hroom : s.tokFifo.length < s.params.tokFifoDepth) :
    SpecInvariants (emit k s) := by
  obtain ⟨session, fifos⟩ := h
  exact ⟨session, fifosFit_emitOpt (some k) fifos hroom⟩

/-- R206: a byte of the lookahead becomes history. -/
theorem specInvariants_advance_one {s : State} (h : SpecInvariants s) (hs : inSession s = true)
    (hbyte : 1 ≤ s.regs.lookahead.toNat) : SpecInvariants (advance 1 1 s) := by
  obtain ⟨session, fifos⟩ := h
  obtain ⟨window, heads, held, lengths⟩ := session hs
  have fits : s.regs.strstart.toNat + s.regs.lookahead.toNat ≤ 2 * windowSize s.cfg := of_decide_eq_true window
  have hwin := windowSize_le s.cfg
  have start : (advance 1 1 s).regs.strstart.toNat = s.regs.strstart.toNat + 1 := advance_strstart (by omega)
  have look := advance_lookahead 1 hbyte
  refine ⟨fun _ => ⟨decide_eq_true ?window, List.all_eq_true.2 fun e he => decide_eq_true ?heads, ?held, lengths⟩, fifos⟩
  case window =>
    rw [start, look, advance_cfg]
    omega
  case heads =>
    have below := of_decide_eq_true (List.all_eq_true.1 heads e he)
    omega
  case held =>
    rw [heldByteOk, Bool.or_eq_true, Bool.and_eq_true, decide_eq_true_eq, decide_eq_true_eq] at held ⊢
    rw [start]
    exact held.imp id fun ⟨flavour, _⟩ => ⟨flavour, Nat.le_add_left _ _⟩

/-! ## A Store RUN in its loop (R206) -/

/-- A Store RUN in RUN_ITER whose flush is not None, so that it goes on until every byte is encoded. -/
structure StoreLoop (s : State) : Prop where
  phase : s.phase = .runIter
  control : ControlOk s
  invariants : SpecInvariants s
  memories : MemoriesWf s
  flavour : s.cfg.flavour = .store
  flush : s.cmd.flush ≠ .noFlush

namespace StoreLoop

variable {s : State} (h : StoreLoop s)
include h

theorem busy : s.busy = true := h.control.busyPhase.2 (by simp [h.phase])

theorem session : s.session = if s.cmd.flush = .finish then .finishing else .streaming := h.control.runLoop (.inl h.phase)

theorem inSession : inSession s = true := by
  rw [inSession_eq_true, h.session]
  split <;> simp

theorem wbits : 9 ≤ s.cfg.wbits.toNat := by
  obtain ⟨hw, -, -⟩ := h.control.config h.inSession
  exact hw

theorem windowFits : windowFits s = true := by
  obtain ⟨session, -⟩ := h.invariants
  obtain ⟨window, -, -, -⟩ := session h.inSession
  exact window

/-- R54 item 3: Store holds no byte. -/
theorem holdsNone : s.regs.matchAvailable = false := by
  obtain ⟨session, -⟩ := h.invariants
  obtain ⟨-, -, held, -⟩ := session h.inSession
  simpa [heldByteOk, h.flavour] using held

theorem specInvariants_storeTopState : SpecInvariants (storeTopState s) := by
  rw [storeTopState]
  split
  · exact specInvariants_fill h.invariants h.inSession h.wbits h.holdsNone
  · exact h.invariants

theorem inSession_storeTopState : Machine.inSession (storeTopState s) = true := by
  rw [inSession_eq_true, (keepsControl_storeTopState s).session, ← inSession_eq_true]
  exact h.inSession

/-- R204: FILL reads what there is, so the lookahead is empty only when no byte is left. -/
theorem lookahead_storeTopState (hbytes : pendingBytes s ≠ []) : 1 ≤ (storeTopState s).regs.lookahead.toNat := by
  rw [storeTopState]
  split
  case isFalse hbyte => omega
  case isTrue hempty =>
    have hin : s.inFifo ≠ [] := by simpa [pendingBytes, lookaheadBytes_of_empty hempty] using hbytes
    have hlen := List.length_pos_iff.2 hin
    obtain ⟨-, room⟩ := strstart_add_room h.wbits h.windowFits
    have hlook := toNat_lookahead_add h.wbits h.windowFits
      (Nat.min_le_left (refillRoom (slideIfDue s)) s.inFifo.length)
    rw [fill_eq h.wbits h.windowFits, takeInput_regs, slideIfDue_lookahead, hlook]
    omega

/-- R30, R166: each byte read from the FIFO is counted. -/
theorem totalIn_storeTopState : (storeTopState s).totalIn + BitVec.ofNat 32 (storeTopState s).inFifo.length
    = s.totalIn + BitVec.ofNat 32 s.inFifo.length := by
  rw [storeTopState]
  split
  case isFalse => rfl
  case isTrue =>
    rw [fill_eq h.wbits h.windowFits, takeInput_totalIn, takeInput_inFifo, slideIfDue_totalIn, slideIfDue_inFifo,
      List.length_drop, BitVec.add_assoc, ← BitVec.ofNat_add, Nat.add_sub_cancel' (Nat.min_le_right _ _)]

/-! ### One step -/

/-- R206: while a byte is left, the step encodes one. -/
theorem attempt_of_byte (hbyte : 1 ≤ (storeTopState s).regs.lookahead.toNat) : attempt s = ⟨advance 1 1 (storeTopState s),
    some (literalAt (storeTopState s).regs.strstart.toNat (storeTopState s))⟩ := by
  simp only [attempt, h.phase, runIter, flavourIter, h.flavour, storeIter_of_cont (storeTopEnd_eq_cont hbyte)]

/-- R204: when none is left, it leaves the loop. -/
theorem attempt_of_empty (hempty : (storeTopState s).regs.lookahead.toNat = 0) :
    attempt s = silent { storeTopState s with phase := .runTail } := by
  simp only [attempt, h.phase, runIter, flavourIter, h.flavour, storeIter_of_empty hempty, if_neg h.flush]
  rfl

variable (hroom : s.tokFifo.length < s.params.tokFifoDepth)
include hroom

theorem enabled : enabled s = true := enabled_of_room h.busy (.inl h.phase) hroom

theorem engineStep_of_byte (hbyte : 1 ≤ (storeTopState s).regs.lookahead.toNat) : engineStep s =
    emit (literalAt (storeTopState s).regs.strstart.toNat (storeTopState s)) (advance 1 1 (storeTopState s)) := by
  have k := keepsControl_storeTopState s
  have step := h.attempt_of_byte hbyte
  have would : wouldLeave s
      = emit (literalAt (storeTopState s).regs.strstart.toNat (storeTopState s)) (advance 1 1 (storeTopState s)) := by
    rw [wouldLeave, step]
    rfl
  rw [engineStep_of_nothingBroken (h.enabled hroom), would]
  refine ⟨?_, fun t e => ?_⟩
  · rw [would]
    refine specInvariants_emit _
      (specInvariants_advance_one h.specInvariants_storeTopState h.inSession_storeTopState hbyte) ?_
    rwa [advance_tokFifo, advance_params, k.tokFifo, k.params]
  · rw [step] at e
    obtain rfl := Option.some.inj e
    exact ⟨rfl, rfl⟩

theorem engineStep_of_empty (hempty : (storeTopState s).regs.lookahead.toNat = 0) :
    engineStep s = { storeTopState s with phase := .runTail } :=
  engineStep_of_silent (h.enabled hroom) (h.attempt_of_empty hempty) h.specInvariants_storeTopState

end StoreLoop

/-! ## The steps of the loop -/

/-- What a Store RUN in its loop has done from `s` to `t`: `bytes` encoded, the rest left, and no error. -/
structure StoreEncoded (bytes : List Byte) (s t : State) : Prop where
  loop : StoreLoop t
  pending : pendingBytes s = bytes ++ pendingBytes t
  tokFifo : t.tokFifo = s.tokFifo ++ bytes.map .lit
  totalIn : t.totalIn + BitVec.ofNat 32 t.inFifo.length = s.totalIn + BitVec.ofNat 32 s.inFifo.length
  totalTok : t.totalTok = s.totalTok + BitVec.ofNat 32 bytes.length
  cmd : t.cmd = s.cmd
  params : t.params = s.params
  err : t.err = s.err
  errFlag : t.errFlag = s.errFlag

theorem StoreEncoded.refl {s : State} (h : StoreLoop s) : StoreEncoded [] s s :=
  ⟨h, rfl, (List.append_nil _).symm, rfl, (BitVec.add_zero _).symm, rfl, rfl, rfl, rfl⟩

theorem StoreEncoded.trans {xs ys : List Byte} {s t u : State} (h : StoreEncoded xs s t) (k : StoreEncoded ys t u) :
    StoreEncoded (xs ++ ys) s u where
  loop := k.loop
  pending := by rw [h.pending, k.pending, List.append_assoc]
  tokFifo := by rw [k.tokFifo, h.tokFifo, List.map_append, List.append_assoc]
  totalIn := k.totalIn.trans h.totalIn
  totalTok := by rw [k.totalTok, h.totalTok, List.length_append, BitVec.add_assoc, ← BitVec.ofNat_add]
  cmd := k.cmd.trans h.cmd
  params := k.params.trans h.params
  err := k.err.trans h.err
  errFlag := k.errFlag.trans h.errFlag

/-- R206: one step encodes the next byte as a literal. -/
theorem StoreLoop.encodes_byte {s : State} (h : StoreLoop s) {b : Byte} {rest : List Byte} (hbytes : pendingBytes s = b :: rest)
    (hroom : s.tokFifo.length < s.params.tokFifoDepth) : StoreEncoded [b] s (engineStep s) := by
  have k := keepsControl_storeTopState s
  have hbyte := h.lookahead_storeTopState (by simp [hbytes])
  obtain ⟨session, -⟩ := h.specInvariants_storeTopState
  obtain ⟨fits, -, -, -⟩ := session h.inSession_storeTopState
  have next := pendingBytes_advance_one hbyte fits
  rw [pendingBytes_storeTopState h.memories h.wbits h.windowFits] at next
  have hb : Memory.read (storeTopState s).window (storeTopState s).regs.strstart.toNat = b := by
    rw [next] at hbytes
    exact (List.cons.inj hbytes).1
  have step := h.engineStep_of_byte hroom hbyte
  rw [hb] at next
  rw [literalAt, hb] at step
  have control := h.control.engineStep
  have invariants := h.invariants.engineStep h.control
  have memories := memoriesWf_engineStep h.memories
  rw [step] at control invariants memories ⊢
  exact {
    loop := ⟨k.phase.trans h.phase, control, invariants, memories,
      (congrArg SessionConfig.flavour k.cfg).trans h.flavour, by
        rw [emit_cmd, advance_cmd, k.cmd]
        exact h.flush⟩
    pending := next
    tokFifo := congrArg (· ++ [Token.lit b]) k.tokFifo
    totalIn := h.totalIn_storeTopState
    totalTok := congrArg (· + 1) k.totalTok
    cmd := k.cmd
    params := k.params
    err := k.err
    errFlag := k.errFlag }

/-- R206, R281: one step for each byte left, while the token FIFO has room for them. -/
theorem StoreLoop.encodes_all {s : State} (h : StoreLoop s) {bytes : List Byte} (hbytes : pendingBytes s = bytes)
    (hroom : s.tokFifo.length + bytes.length ≤ s.params.tokFifoDepth) :
    StoreEncoded bytes s (engineStep^[bytes.length] s) := by
  induction bytes generalizing s with
  | nil => exact .refl h
  | cons b rest ih =>
    rw [List.length_cons] at hroom
    have first := h.encodes_byte hbytes (by omega)
    have left : pendingBytes (engineStep s) = rest :=
      (List.cons.inj (first.pending.symm.trans hbytes)).2
    have room : (engineStep s).tokFifo.length + rest.length ≤ (engineStep s).params.tokFifoDepth := by
      rw [first.tokFifo, first.params, List.length_append, List.length_map, List.length_singleton]
      omega
    exact first.trans (ih first.loop left room)

/-! ## The end of the RUN (R222, R223) -/

/-- R204, R222, R223: with no byte left, the loop is left, the tail has nothing to emit, and the marker completes the RUN. -/
theorem StoreLoop.completes {s : State} (h : StoreLoop s) (hempty : pendingBytes s = [])
    (hroom : s.tokFifo.length < s.params.tokFifoDepth) : engineStep^[3] s =
      emitOpt (runMark { storeTopState s with phase := .runMark }).token
        (runMark { storeTopState s with phase := .runMark }).state := by
  have k := keepsControl_storeTopState s
  have busy : (storeTopState s).busy = true := k.busy.trans h.busy
  have room : (storeTopState s).tokFifo.length < (storeTopState s).params.tokFifoDepth := by rwa [k.tokFifo, k.params]
  have flavour : (storeTopState s).cfg.flavour ≠ .slow := by simp [k.cfg, h.flavour]
  obtain ⟨empty, -⟩ := empty_of_pendingBytes_nil
    ((pendingBytes_storeTopState h.memories h.wbits h.windowFits).trans hempty)
  have invariants := h.specInvariants_storeTopState
  have session := h.inSession_storeTopState
  obtain ⟨-, tail, -⟩ :=
    runTailAndMarkEndTheRun { storeTopState s with phase := .runTail } busy invariants session room
  change engineStep (engineStep (engineStep s)) = _
  rw [h.engineStep_of_empty hroom empty, tail rfl (.inl flavour)]
  exact engineStep_runMark (s := { storeTopState s with phase := .runMark }) busy invariants session room rfl

/-- What these last three steps leave. -/
theorem StoreLoop.completed {s t : State} (h : StoreLoop s) (hempty : pendingBytes s = [])
    (hroom : s.tokFifo.length < s.params.tokFifoDepth) (ht : engineStep^[3] s = t) :
    t.busy = false ∧ t.phase = .idle ∧ t.done = true ∧ t.inFifo = [] ∧ t.regs.lookahead.toNat = 0
      ∧ t.tokFifo = s.tokFifo ++ [.mark s.cmd.flush] ∧ t.totalIn = s.totalIn + BitVec.ofNat 32 s.inFifo.length
      ∧ t.totalTok = s.totalTok + 1 ∧ t.session = (if s.cmd.flush = .finish then .finished else .streaming)
      ∧ t.bstate = (if s.cmd.flush = .finish then .finishDone else .blockDone) ∧ t.err = s.err ∧ t.errFlag = s.errFlag := by
  have k := keepsControl_storeTopState s
  obtain ⟨look, input⟩ := empty_of_pendingBytes_nil
    ((pendingBytes_storeTopState h.memories h.wbits h.windowFits).trans hempty)
  have totalIn := h.totalIn_storeTopState
  rw [h.completes hempty hroom, runMark_eq] at ht
  subst ht
  simp only [emitOpt, emit_busy, emit_phase, emit_done, emit_inFifo, emit_regs, emit_tokFifo, emit_totalIn, emit_totalTok,
    emit_session, emit_bstate, emit_err, emit_errFlag, k.cmd]
  refine ⟨trivial, trivial, trivial, input, look, ?_, ?_, ?_, ?session, trivial, k.err, k.errFlag⟩
  · rw [k.tokFifo]
  · simpa [input] using totalIn
  · rw [k.totalTok]
  case session =>
    rw [k.session, h.session]
    split <;> rfl

/-- R201: a Store RUN that proceeds enters its loop with the input still to encode. -/
theorem storeEncoded_runStart {s : State} (hb : s.busy = true) (hp : s.phase = .runStart) (hc : ControlOk s)
    (hinv : SpecInvariants s) (hm : MemoriesWf s) (hflavour : s.cfg.flavour = .store)
    (hfin : s.session ≠ .finished) (hflush : s.cmd.flush ≠ .noFlush)
    (hwork : s.inFifo ≠ [] ∨ (flushCode s.regs.lastFlush).toNat < (flushCode s.cmd.flush).toNat ∨ s.cmd.flush = .finish) :
    StoreEncoded [] s (engineStep s) := by
  have hs := hc.inSession_of_enabled (by simp [enabled_iff, hb, hp]) (by simp [hp]) (by simp [hp])
  obtain ⟨hopen, halive⟩ := inSession_eq_true.1 hs
  obtain ⟨-, -, proceeds⟩ := runStartAppliesTheNoProgressRule s hb hp hinv
  have step := proceeds hfin hopen halive hwork
  have control := hc.engineStep
  have invariants := hinv.engineStep hc
  have memories := memoriesWf_engineStep hm
  rw [step] at control invariants memories ⊢
  exact ⟨⟨rfl, control, invariants, memories, hflavour, hflush⟩, rfl, (List.append_nil _).symm, rfl, (BitVec.add_zero _).symm,
    rfl, rfl, rfl, rfl⟩

/-- Settles O52: the first step enters the loop, which takes one step for each byte (`StoreLoop.encodes_all`), and three more steps
leave it and emit the marker (`StoreLoop.completed`). -/
theorem storeRunEncodesEveryByte : Obligations.StoreRunEncodesEveryByte := by
  intro s hb hp hc hinv hm hflavour hempty hfin hflush hwork hroom
  have start := storeEncoded_runStart hb hp hc hinv hm hflavour hfin hflush hwork
  have pending : pendingBytes (engineStep s) = s.inFifo := by
    have before : pendingBytes s = s.inFifo := by rw [pendingBytes, lookaheadBytes_of_empty hempty, List.nil_append]
    exact start.pending.symm.trans before
  have startTok : (engineStep s).tokFifo = s.tokFifo := by rw [start.tokFifo]; exact List.append_nil _
  have loop := start.loop.encodes_all pending (by rw [startTok, start.params]; omega)
  have run := start.trans loop
  rw [List.nil_append] at run
  have steps : engineStep^[s.inFifo.length + 4] s = engineStep^[3] (engineStep^[s.inFifo.length] (engineStep s)) := by
    rw [← Function.iterate_add_apply, ← Function.iterate_succ_apply]
    congr 2
    omega
  generalize engineStep^[s.inFifo.length] (engineStep s) = t at loop run steps
  have nothing : pendingBytes t = [] := List.append_right_eq_self.1 (loop.pending.symm.trans pending)
  have room : t.tokFifo.length < t.params.tokFifoDepth := by
    rw [run.tokFifo, run.params, List.length_append, List.length_map]
    omega
  obtain ⟨busy, phase, done, inFifo, lookahead, tokFifo, totalIn, totalTok, session, bstate, err, errFlag⟩ :=
    run.loop.completed nothing room steps.symm
  rw [run.cmd] at tokFifo session bstate
  refine ⟨_, rfl, busy, phase, done, inFifo, lookahead, ?_, totalIn.trans run.totalIn, ?_, session, bstate,
    err.trans run.err, errFlag.trans run.errFlag⟩
  · rw [tokFifo, run.tokFifo]
  · rw [totalTok, run.totalTok, BitVec.add_assoc, BitVec.ofNat_add]
    rfl

end Sys2Proof.Machine
